-- ==== Sys2Proof/Word.lean ====
section
/-! DEFINITION. The word types of MBCODEC: an 8-bit byte (00_scope R8) and a 64-bit address, length, capacity or
count (00_scope R7, `ADDR_W = 64`). -/

namespace Sys2Proof

/-- A byte of buffer memory, 8 bits, bit 0 least significant (00_scope R8). -/
abbrev Byte := BitVec 8

/-- An address, length, capacity or count as a command field: `ADDR_W = 64` bits (00_scope R7, D4). -/
abbrev Addr := BitVec 64

end Sys2Proof
end

