-- ==== Sys2Proof/Config.lean ====
section
/-! DEFINITION. The parameters of 00_scope R7: the fixed constants, the record of the open ones, and the free
values the spec leaves open (opaque, no body). -/

namespace Sys2Proof

/-- The open parameters of 00_scope R7 (92_eei_decisions, "Open parameters, collected"), each with its range.
They are no state (10_state R20): no step writes them. -/
structure Parameters where
  /-- `MAGIC`: the protocol constant `HDR_DES` requires, any 16-bit value (D7). -/
  magic : BitVec 16
  /-- `MAX_VERSION`: the highest version `HDR_DES` accepts, 0 to 255 (D8). -/
  maxVersion : BitVec 8
  /-- `MEM_SIZE`: the number of bytes of buffer memory, 0 to `2^64` (D4). -/
  memSize : Fin (2 ^ 64 + 1)
  /-- `MAX_VARBYTES_LEN`: the longest variable field the host writes, 0 to `2^64 - 1` (D32). -/
  maxVarbytesLen : BitVec 64
  deriving DecidableEq, Repr, Inhabited

/-- The parameters of the implementation at hand: the spec leaves them open, so nothing can be proved of their
values (log 3). -/
opaque Config.parameters : Parameters

/-- The `k`-th byte of the output range of an operation that a reset cut short: "any value"
(70_reset_and_hazards R272, U16; log 12). -/
opaque Config.freeByte : Nat → Byte

/-- `POLY`: the Castagnoli generator in normal form, the `x^32` term implied (00_scope R7, 40_crc32c R91). -/
def Config.poly : BitVec 32 := 0x1EDC6F41#32

/-- `rev_32(POLY)`: the constant of the reflected formulation (40_crc32c R91). -/
def Config.polyReflected : BitVec 32 := 0x82F63B78#32

/-- `CRC_INIT`, the initial register value (00_scope R7; PRESUMED by the spec itself, D9, log 7). -/
def Config.crcInit : BitVec 32 := 0xFFFFFFFF#32

/-- `CRC_XOROUT`, the final inversion (00_scope R7; PRESUMED by the spec itself, D9, log 7). -/
def Config.crcXorOut : BitVec 32 := 0xFFFFFFFF#32

/-- `TRAILER_SIZE`: bytes of the checksum trailer (00_scope R7). -/
abbrev Config.trailerSize : Nat := 4

/-- `VARINT_GROUP`: value bits per varint byte (00_scope R7). -/
abbrev Config.varintGroup : Nat := 7

/-- `MAX_VARINT_LEN`: most bytes a varint occupies and most bytes `VARINT_DEC` reads (00_scope R7). -/
abbrev Config.maxVarintLen : Nat := 10

/-- `HDR_SIZE`: bytes of the fixed header (00_scope R7; 90_conflicts C1: 14, not 16; log 9). -/
abbrev Config.hdrSize : Nat := 14

end Sys2Proof
end

