-- ==== Sys2Proof/Syntax.lean ====
section
/-! DEFINITION. The commands of the block as an inductive type: one constructor per row of the opcode table, with the
operand fields of its format (30_encoding R61, R62). -/

namespace Sys2Proof

/-- The FrameHeader record: six fields and nothing else (42_header R142). -/
structure FrameHeader where
  /-- `magic : u16`, the protocol constant. -/
  magic : BitVec 16
  /-- `version : u8`, the major protocol version. -/
  version : Byte
  /-- `flags : u8`; bit 0 is "header-extension present", bits 7:1 are reserved (30_encoding R73). -/
  flags : Byte
  /-- `msg_type : u16`, opaque to the block. -/
  msgType : BitVec 16
  /-- `seq : u32`, opaque to the block. -/
  seq : BitVec 32
  /-- `body_len : u32`, the byte length of the body region. -/
  bodyLen : BitVec 32
  deriving DecidableEq, Repr

/-- The five operations. The command formats W, V and H of 30_encoding R61 give the operand fields. -/
inductive Instr where
  /-- `CRC32C base len` (format W, opcode `0x01`, 40_crc32c R90). -/
  | crc32c (base len : Addr)
  /-- `VARINT_ENC base cap value` (format V, opcode `0x02`, 41_varint R110). -/
  | varintEnc (base cap : Addr) (value : BitVec 64)
  /-- `VARINT_DEC base avail` (format W, opcode `0x03`, 41_varint R117). -/
  | varintDec (base avail : Addr)
  /-- `HDR_SER base cap header` (format H, opcode `0x04`, 42_header R140). -/
  | hdrSer (base cap : Addr) (header : FrameHeader)
  /-- `HDR_DES base avail` (format W, opcode `0x05`, 42_header R146). -/
  | hdrDes (base avail : Addr)
  deriving DecidableEq, Repr

end Sys2Proof
end

