-- ==== Sys2Proof/Machine/Operands.lean ====
section
/-! DEFINITION. Operand forms: little-endian byte strings (`LE_n`, `FromLE`), bit length and varint length, and the
window, the block's one addressing mode (00_scope R9, R10, R13; 20_memory R41; 30_encoding R61; 41_varint R115). -/

namespace Sys2Proof

/-- `LE_n(v)`: `n` bytes, least significant first; byte `k` is `v[8k+7:8k]` (00_scope R10, 20_memory R41). -/
def leBytes : Nat → Nat → List Byte
  | 0, _ => []
  | n + 1, v => BitVec.ofNat 8 (v % 256) :: leBytes n (v / 256)

/-- `FromLE(s)`: the inverse of `LE_n` (00_scope R10). -/
def fromLE : List Byte → Nat
  | [] => 0
  | b :: bs => b.toNat + 256 * fromLE bs

/-- The unsigned field of `n` bytes at byte offset `off` of a record (30_encoding R72). -/
def fieldAt (off n : Nat) (bs : List Byte) : Nat := fromLE ((bs.drop off).take n)

/-- `bitlen(v)`: the position of the highest set bit plus one, and 0 for 0 (00_scope R9). -/
def bitlen (v : Nat) : Nat := if v = 0 then 0 else Nat.log2 v + 1

/-- `varint_len(v) = max(1, ceil(bitlen(v) / 7))` (30_encoding R69, 41_varint R115). -/
def varintLen (v : Nat) : Nat :=
  max 1 ((bitlen v + (Config.varintGroup - 1)) / Config.varintGroup)

/-- A window `(base, n)`: the buffer addresses `base` to `base + n - 1`, none if `n = 0` (00_scope R13). -/
structure Window where
  base : Nat
  len : Nat
  deriving DecidableEq, Repr

/-- The window holds the address (00_scope R13). -/
def Window.holds (w : Window) (a : Nat) : Bool := decide (w.base ≤ a ∧ a < w.base + w.len)

/-- Two windows share a byte (60_exceptions R252, 70_reset_and_hazards R277). An empty window shares none. -/
def Window.overlaps (v w : Window) : Bool :=
  decide (max v.base w.base < min (v.base + v.len) (w.base + w.len))

/-- `base + n <= MEM_SIZE` (20_memory R49), over unbounded numbers, so that the sum cannot wrap (D4). The first
case says no more than `0 <= MEM_SIZE`; it is there so that a window ending at 0 needs no value of `MEM_SIZE`. -/
def windowInside (p : Parameters) (w : Window) : Bool :=
  match w.base + w.len with
  | 0 => true
  | last + 1 => decide (last + 1 ≤ p.memSize.val)

/-- The window a command names (30_encoding R61): `base` and `len`, `avail` or `cap`. -/
def Instr.window : Instr → Window
  | .crc32c base len => ⟨base.toNat, len.toNat⟩
  | .varintEnc base cap _ => ⟨base.toNat, cap.toNat⟩
  | .varintDec base avail => ⟨base.toNat, avail.toNat⟩
  | .hdrSer base cap _ => ⟨base.toNat, cap.toNat⟩
  | .hdrDes base avail => ⟨base.toNat, avail.toNat⟩

end Sys2Proof
end

