-- ==== Sys2Proof/WellFormed.lean ====
section
/-! DEFINITION. When a command is well formed: its window lies inside `MEM`, and nothing else is asked of it, since
"every value of every other field is legal" (30_encoding R61). -/

namespace Sys2Proof

/-- `base + len <= MEM_SIZE` (or `base + cap <= MEM_SIZE`), the one condition of 30_encoding R61. -/
def Instr.wellFormed (p : Parameters) (i : Instr) : Bool := windowInside p i.window

end Sys2Proof
end

