-- ==== Sys2Proof/Decode.lean ====
section
/-! DEFINITION. Decoding and encoding of command records. The spec defines no packing of a record (30_encoding R66);
the byte string used here, "the opcode byte followed by the field values in the order of rule R61", each field
little-endian, is the model's own (DESIGN CHOICE, log 1). The opcode numbers are 30_encoding R62. -/

namespace Sys2Proof

/-- Why a byte string is no command record. -/
inductive DecodeReject where
  /-- There is no opcode byte. -/
  | noOpcode
  /-- The opcode selects no operation: `0x00` or `0x06` to `0xFF` (30_encoding R78). -/
  | unassigned (op : Byte)
  /-- An assigned opcode with fewer operand bytes than its format has (30_encoding R61). -/
  | tooShort (op : Byte)
  deriving DecidableEq, Repr

/-- Format `W`: `base : u64`, then `len` or `avail : u64` (30_encoding R61). -/
def decodeW (mk : Addr → Addr → Instr) (op : Byte) (bs : List Byte) : Except DecodeReject (Instr × List Byte) :=
  if bs.length < 16 then .error (.tooShort op)
  else .ok (mk (BitVec.ofNat 64 (fieldAt 0 8 bs)) (BitVec.ofNat 64 (fieldAt 8 8 bs)), bs.drop 16)

/-- Format `V`: `base : u64`, `cap : u64`, `value : u64` (30_encoding R61). -/
def decodeV (op : Byte) (bs : List Byte) : Except DecodeReject (Instr × List Byte) :=
  if bs.length < 24 then .error (.tooShort op)
  else .ok (.varintEnc (BitVec.ofNat 64 (fieldAt 0 8 bs)) (BitVec.ofNat 64 (fieldAt 8 8 bs))
    (BitVec.ofNat 64 (fieldAt 16 8 bs)), bs.drop 24)

/-- Format `H`: `base : u64`, `cap : u64`, then the six header fields in order (30_encoding R61). -/
def decodeH (op : Byte) (bs : List Byte) : Except DecodeReject (Instr × List Byte) :=
  if bs.length < 30 then .error (.tooShort op)
  else .ok (.hdrSer (BitVec.ofNat 64 (fieldAt 0 8 bs)) (BitVec.ofNat 64 (fieldAt 8 8 bs))
    { magic := BitVec.ofNat 16 (fieldAt 16 2 bs)
      version := BitVec.ofNat 8 (fieldAt 18 1 bs)
      flags := BitVec.ofNat 8 (fieldAt 19 1 bs)
      msgType := BitVec.ofNat 16 (fieldAt 20 2 bs)
      seq := BitVec.ofNat 32 (fieldAt 22 4 bs)
      bodyLen := BitVec.ofNat 32 (fieldAt 26 4 bs) }, bs.drop 30)

/-- Reads one command record from the front of a byte string and gives the rest. Total: the opcode selects the
format (30_encoding R62), and every other opcode is rejected by name (30_encoding R78). -/
def decode : List Byte → Except DecodeReject (Instr × List Byte)
  | [] => .error .noOpcode
  | op :: bs =>
    if op = 0x01#8 then decodeW .crc32c op bs
    else if op = 0x02#8 then decodeV op bs
    else if op = 0x03#8 then decodeW .varintDec op bs
    else if op = 0x04#8 then decodeH op bs
    else if op = 0x05#8 then decodeW .hdrDes op bs
    else .error (.unassigned op)

/-- The opcode of an operation (30_encoding R62). -/
def Instr.opcode : Instr → Byte
  | .crc32c _ _ => 0x01#8
  | .varintEnc _ _ _ => 0x02#8
  | .varintDec _ _ => 0x03#8
  | .hdrSer _ _ _ => 0x04#8
  | .hdrDes _ _ => 0x05#8

/-- The operand fields of a command in the order of 30_encoding R61, each little-endian (log 1). -/
def encodeOperands : Instr → List Byte
  | .crc32c base len => leBytes 8 base.toNat ++ leBytes 8 len.toNat
  | .varintEnc base cap value => leBytes 8 base.toNat ++ leBytes 8 cap.toNat ++ leBytes 8 value.toNat
  | .varintDec base avail => leBytes 8 base.toNat ++ leBytes 8 avail.toNat
  | .hdrSer base cap h =>
    leBytes 8 base.toNat ++ leBytes 8 cap.toNat ++ leBytes 2 h.magic.toNat ++ leBytes 1 h.version.toNat
      ++ leBytes 1 h.flags.toNat ++ leBytes 2 h.msgType.toNat ++ leBytes 4 h.seq.toNat ++ leBytes 4 h.bodyLen.toNat
  | .hdrDes base avail => leBytes 8 base.toNat ++ leBytes 8 avail.toNat

/-- The record of a command: its opcode byte and its operand fields. -/
def encode (i : Instr) : List Byte := i.opcode :: encodeOperands i

/-- The bytes of a record whose opcode is `op`: 17 for format W, 25 for V, 31 for H (30_encoding R61); 31, the
longest, for an opcode that selects no operation. -/
def recordLength (op : Byte) : Nat :=
  if op = 0x02#8 then 25
  else if op = 0x01#8 ∨ op = 0x03#8 ∨ op = 0x05#8 then 17
  else 31

/-- The record whose first `nbits` bits are those of `w`, numbered as the opcode table numbers them, and whose other
bits are 0; as long as its opcode's format. -/
def tableRecord (nbits w : Nat) : List Byte :=
  (leBytes 31 (w % 2 ^ nbits)).take (recordLength (BitVec.ofNat 8 (w % 2 ^ nbits % 256)))

/-- The instruction the decoder reads from an opcode-table word. -/
def decodeTableWord (nbits w : Nat) : Option Instr :=
  match decode (tableRecord nbits w) with
  | .ok (i, _) => some i
  | .error _ => none

end Sys2Proof
end

