-- ==== Sys2Proof/Machine/State.lean ====
section
/-! DEFINITION. The state of the machine as plain data: `MEM`, the parameters, the command interface, and the host's
encoder and decoder (10_state, 30_encoding section 1, 48_frame_context); the error kinds, the responses, the host's
calls and inputs; the reasons a step has no meaning. -/

namespace Sys2Proof.Machine

/-- Buffer memory `MEM` (10_state R27): the bytes that have been written, by strictly rising address. An address that
is not listed holds a byte nothing has written, which has no value (70_reset_and_hazards R275; log 4). -/
abbrev Memory := List Host.Cell

/-- The canonical form of a memory: addresses strictly rising, so equal memories are equal lists. Nothing is removed
by a write, since an unlisted address reads as no value at all. -/
abbrev Memory.wf (m : Memory) : Prop := m.Pairwise (fun x y => x.1 < y.1)

/-- The error kinds (60_exceptions R230): MB's eight and `InvalidState`. -/
inductive ErrorKind where
  /-- "insufficient space to write/reserve a requested amount" (R231). -/
  | bufferTooSmall
  /-- "insufficient bytes remain to satisfy a requested read" (R232). -/
  | truncated
  /-- The magic read differs from `MAGIC` (R233). -/
  | invalidMagic
  /-- The version read exceeds `MAX_VERSION` (R234). -/
  | unsupportedVersion
  /-- "declared `body_len` inconsistent with available buffer length"; host only (R236). -/
  | lengthMismatch
  /-- "integrity failure"; host only (R237). -/
  | checksumMismatch
  /-- "caller violated the write/read ordering protocol"; host only (R238). -/
  | fieldOrderViolation
  /-- "an arithmetic computation would exceed representable range" (R235). -/
  | overflow
  /-- "a state error"; host only (R239). -/
  | invalidState
  deriving DecidableEq, Repr

/-- The result fields of a successful operation (30_encoding R64). -/
inductive Result where
  /-- `CRC32C`: `crc : u32`. -/
  | crc32c (crc : BitVec 32)
  /-- `VARINT_ENC`: `n : u64`, bytes written. -/
  | varintEnc (n : BitVec 64)
  /-- `VARINT_DEC`: `value : u64` and `n : u64`, bytes consumed. -/
  | varintDec (value : BitVec 64) (n : BitVec 64)
  /-- `HDR_SER`: `n : u64`, bytes written. -/
  | hdrSer (n : BitVec 64)
  /-- `HDR_DES`: the six header fields and `n : u64`, bytes consumed. -/
  | hdrDes (header : FrameHeader) (n : BitVec 64)
  deriving DecidableEq, Repr

/-- A response: results, or one error kind and no result (30_encoding R63, D25). -/
inductive Response where
  | ok (result : Result)
  | error (kind : ErrorKind)
  deriving DecidableEq, Repr

/-- The eight fixed field types (48_frame_context R179). -/
inductive FixedType where
  | u8 | u16 | u32 | u64 | i8 | i16 | i32 | i64
  deriving DecidableEq, Repr

/-- A value of a fixed field type (48_frame_context R179); a signed value is held as its two's complement bits
(R180). -/
inductive FixedValue where
  | u8 (v : BitVec 8)
  | u16 (v : BitVec 16)
  | u32 (v : BitVec 32)
  | u64 (v : BitVec 64)
  | i8 (v : BitVec 8)
  | i16 (v : BitVec 16)
  | i32 (v : BitVec 32)
  | i64 (v : BitVec 64)
  deriving DecidableEq, Repr

/-- The width of a presence bitmap, the caller's choice (48_frame_context R175, D30). -/
inductive BitmapWidth where
  | w8 | w16 | w32 | w64
  deriving DecidableEq, Repr

/-- A presence bitmap of one of the four widths (48_frame_context R175). -/
inductive Bitmap where
  | b8 (v : BitVec 8)
  | b16 (v : BitVec 16)
  | b32 (v : BitVec 32)
  | b64 (v : BitVec 64)
  deriving DecidableEq, Repr

/-- The Body Writer's states (48_frame_context R181). -/
inductive WriterState where
  | writingFixed | bitmapWritten | writingVariable | closed
  deriving DecidableEq, Repr

/-- The Body Writer: a cursor over the body part of the encoder's buffer (48_frame_context R181). Cursors are plain
numbers, so no sum of a cursor and a length can wrap (R184). -/
structure Writer where
  /-- `ws` -/
  state : WriterState
  /-- `body_start` -/
  bodyStart : Nat
  /-- `w`, the write cursor -/
  cursor : Nat
  /-- `limit`, one past the last byte of the caller's buffer -/
  limit : Nat
  deriving DecidableEq, Repr

/-- The Frame Encoder's states (48_frame_context R183). -/
inductive EncoderState where
  | created | headerBegun | bodyInProgress | finished
  deriving DecidableEq, Repr

/-- The Frame Encoder over the caller's buffer `(F, cap)` (48_frame_context R183). -/
structure Encoder where
  /-- `es` -/
  state : EncoderState
  /-- `F` -/
  base : Nat
  /-- `cap` -/
  cap : Nat
  /-- the header record -/
  header : FrameHeader
  /-- `E`, the bytes of the extension region -/
  extSize : Nat
  /-- the Body Writer; it means nothing before `begin` -/
  writer : Writer
  deriving DecidableEq, Repr

/-- The Body Reader's states (48_frame_context R191). -/
inductive ReaderState where
  | readingFixed | bitmapRead | readingVariable | closed
  deriving DecidableEq, Repr

/-- The Body Reader: a cursor over the body bytes (48_frame_context R191). -/
structure Reader where
  /-- `rs` -/
  state : ReaderState
  /-- `body_start` -/
  bodyStart : Nat
  /-- `r`, the read cursor -/
  cursor : Nat
  /-- `body_end` -/
  bodyEnd : Nat
  deriving DecidableEq, Repr

/-- The Frame Decoder's states (48_frame_context R196). -/
inductive DecoderState where
  | created | headerRead | checksumVerified | bodyInProgress | done
  deriving DecidableEq, Repr

/-- The Frame Decoder over the caller's buffer `(F, L)` (48_frame_context R196). -/
structure Decoder where
  /-- `ds` -/
  state : DecoderState
  /-- `F` -/
  base : Nat
  /-- `L` -/
  len : Nat
  /-- the header record -/
  header : FrameHeader
  /-- `E` -/
  extSize : Nat
  /-- `B` -/
  bodyLen : Nat
  /-- the Body Reader; it exists once `body()` has returned it -/
  reader : Reader
  deriving DecidableEq, Repr

/-- The bytes `put_varbytes` is given: a value of the host's own, or bytes that lie in `MEM` (48_frame_context R187,
91_not_in_source N28; log 16). -/
inductive VarSource where
  | literal (bytes : List Byte)
  | window (w : Window)
  deriving DecidableEq, Repr

/-- The calls of the host layers (48_frame_context R185 to R200), and the two that make an encoder or a decoder over
a caller's buffer (R183, R196; their names are the model's, log 14). -/
inductive HostCall where
  /-- An encoder in state Created over the buffer `(F, cap)`. -/
  | openEncoder (base cap : Addr)
  /-- `begin(header, ext)` -/
  | beginFrame (header : FrameHeader) (ext : List Byte)
  /-- `put_<fixed-type>(value)` -/
  | putFixed (value : FixedValue)
  /-- `put_bitmap(value)` -/
  | putBitmap (value : Bitmap)
  /-- `put_varbytes(bytes)` -/
  | putVarbytes (source : VarSource)
  /-- `finish_crc32c()` -/
  | finishCrc32c
  /-- A decoder in state Created over the buffer `(F, L)`. -/
  | openDecoder (base len : Addr)
  /-- `header()` -/
  | readHeader
  /-- `verify_crc32c()` -/
  | verifyCrc32c
  /-- `body()` -/
  | openBody
  /-- `get_<fixed-type>()` -/
  | getFixed (type : FixedType)
  /-- `get_bitmap()` -/
  | getBitmap (width : BitmapWidth)
  /-- `get_varbytes()` -/
  | getVarbytes
  /-- `skip_varbytes()` -/
  | skipVarbytes
  deriving DecidableEq, Repr

/-- What a host call or a host read returns. -/
inductive CallValue where
  /-- No value. -/
  | unit
  /-- `finish_crc32c`: the total frame byte length (48_frame_context R189). -/
  | frameLength (n : Nat)
  /-- `header()`: the header and, if flagged, the extension view (R197). -/
  | header (h : FrameHeader) (ext : Option Window)
  /-- `get_<fixed-type>` (R191). -/
  | fixed (v : FixedValue)
  /-- `get_bitmap` (R192). -/
  | bitmap (b : Bitmap)
  /-- `get_varbytes`: a borrowed view, not a copy (R193, 20_memory R55). -/
  | view (w : Window)
  /-- A plain host read of `MEM`. -/
  | bytes (bs : List Byte)
  deriving DecidableEq, Repr

/-- The outcome of a host call: a value, or exactly one error kind (60_exceptions R230, R245). -/
inductive CallResult where
  | ok (value : CallValue)
  | error (kind : ErrorKind)
  deriving DecidableEq, Repr

/-- What another agent does between the issue of a command and its response (70_reset_and_hazards R277). -/
inductive HostAccess where
  /-- A read of a window of `MEM`. -/
  | read (w : Window)
  /-- A write of bytes to `MEM` at rising addresses. -/
  | write (base : Nat) (bytes : List Byte)
  /-- A second command presented to the same block. -/
  | command (record : List Byte)
  deriving DecidableEq, Repr

/-- One action of the world outside the block; a step takes one (10_state R31; log 2). -/
inductive Input where
  /-- The host presents a command record; `during` is what other agents do until the response. -/
  | command (record : List Byte) (during : List HostAccess)
  /-- The host presents a command and a reset cuts the operation short (70_reset_and_hazards R272). There is no `during`:
  the span of R277 ends at a response, which never comes, and the model lets no access fall in it (log 13). -/
  | cutByReset (record : List Byte)
  /-- A reset between operations (70_reset_and_hazards R270). -/
  | reset
  /-- The host reads `n` bytes of `MEM` between operations (10_state R31). -/
  | hostRead (base n : Nat)
  /-- The host writes bytes of `MEM` between operations (10_state R31). -/
  | hostWrite (base : Nat) (bytes : List Byte)
  /-- The host makes a call of one of its layers (48_frame_context R170). -/
  | call (c : HostCall)
  deriving DecidableEq, Repr

/-- The host objects a call can need. -/
inductive HostObject where
  | encoder | decoder | bodyReader
  deriving DecidableEq, Repr

/-- The machine's faults: there are none. "No behaviour of the block is `fault` or `stuck`"
(93_implementation_defined part 1; 60_exceptions R248): nothing raises one, which is safe. -/
inductive Fault where
  deriving DecidableEq, Repr

/-- Why a step has no meaning (60_exceptions R241): the run is outside the model. Each is safe: it errs toward
unprovable. -/
inductive Refusal where
  /-- An instruction without a meaning in this model; no arm raises it. Safe. -/
  | notModelled (mnemonic : String)
  /-- A command's, host access's or host buffer's window is not inside `MEM`; raised by every operation and by host
  accesses (20_memory R49, 60_exceptions R241 (a)). Safe. -/
  | windowOutsideMem (w : Window)
  /-- The command's opcode selects no operation; raised by `step` (30_encoding R78, R241 (b)). Safe. -/
  | unassignedOpcode (op : Byte)
  /-- The byte string is not exactly one command record; raised by `step`. The byte form is the model's own (log 1).
  Safe. -/
  | malformedCommand
  /-- A byte nothing has written is read; raised by the reading operations and host reads (70_reset_and_hazards R275,
  93 U15). Safe. -/
  | readUnwritten (addr : Nat)
  /-- Another agent touches a command's window during the operation; raised by `step` (70_reset_and_hazards R277,
  R241 (c)). Safe. -/
  | windowTouched (access : HostAccess)
  /-- A second command before the response; raised by `step` (70_reset_and_hazards R277). Safe. -/
  | secondCommand
  /-- The source of `put_varbytes` overlaps its destination; raised by that call (93 U17). Safe. -/
  | sourceOverlapsDestination
  /-- A host call on an object the host does not hold, which MB cannot express; raised by host calls (log 14).
  Safe. -/
  | noInstance (object : HostObject)
  deriving DecidableEq, Repr

/-- How an operation or a host call ends: a result and the next `MEM`; an error kind, with nothing changed
(60_exceptions R247); or a refusal (R241). -/
inductive OpResult (α : Type) where
  | done (result : α) (mem : Memory)
  | error (kind : ErrorKind)
  | refused (r : Refusal)
  deriving DecidableEq, Repr

/-- The state. The block's own is `mem` alone (10_state R20); `cfg` is a parameter no step writes (R20, log 3);
`inputs` and `response` are the command interface (30_encoding R60); `encoder`, `decoder` and `callResult` are the
host's (48_frame_context R170); `freeCount` is the model's own (log 12). -/
structure State where
  /-- The parameters of 00_scope R7. -/
  cfg : Parameters
  /-- `MEM`, the buffer memory (10_state R27). -/
  mem : Memory
  /-- The host's coming actions, oldest first (10_state R31). -/
  inputs : List Input
  /-- The response last delivered, if any (30_encoding R60, R63). -/
  response : Option Response
  /-- The host's Frame Encoder with its Body Writer, if it holds one (48_frame_context R183, R181). -/
  encoder : Option Encoder
  /-- The host's Frame Decoder with its Body Reader, if it holds one (48_frame_context R196, R191). -/
  decoder : Option Decoder
  /-- The outcome of the host's last call or read, if any. -/
  callResult : Option CallResult
  /-- How many free bytes have been drawn (70_reset_and_hazards R272). -/
  freeCount : Nat
  deriving DecidableEq, Repr

/-- `s` with another memory. -/
def State.setMem (s : State) (m : Memory) : State := { s with mem := m }
/-- `s` with other coming inputs. -/
def State.setInputs (s : State) (q : List Input) : State := { s with inputs := q }
/-- `s` with another last response. -/
def State.setResponse (s : State) (r : Option Response) : State := { s with response := r }
/-- `s` with another encoder. -/
def State.setEncoder (s : State) (e : Option Encoder) : State := { s with encoder := e }
/-- `s` with another decoder. -/
def State.setDecoder (s : State) (d : Option Decoder) : State := { s with decoder := d }
/-- `s` with another last call outcome. -/
def State.setCallResult (s : State) (r : Option CallResult) : State := { s with callResult := r }
/-- `s` with another count of free bytes. -/
def State.setFreeCount (s : State) (n : Nat) : State := { s with freeCount := n }

/-- The machine right after reset (70_reset_and_hazards R270, R271): the block holds nothing and is idle. Nothing of
`MEM` is assumed (R32); the parameters are the implementation's; the host has issued nothing and holds nothing
(DESIGN CHOICE, logs 2, 4, 6, 12, 14). -/
def State.reset : State where
  cfg := Config.parameters
  mem := []
  inputs := []
  response := none
  encoder := none
  decoder := none
  callResult := none
  freeCount := 0

end Sys2Proof.Machine
end

