-- ==== Sys2Proof/Machine/Ops.lean ====
section
/-! DEFINITION. The operations over memory every meaning shares (`MemRead`, `MemWrite`, 20_memory R44, R45), the window
check, and the delivery of a response or of an error (60_exceptions R246): the block's whole "exception entry". There
is nothing to return from (R248). -/

namespace Sys2Proof.Machine

/-- The byte at an address, or nothing if nothing has written it (20_memory R44, 70_reset_and_hazards R275). -/
def memRead : Memory → Nat → Option Byte
  | [], _ => none
  | (a, b) :: rest, x => if a = x then some b else memRead rest x

/-- Writes one byte, keeping the addresses rising (20_memory R45). -/
def memWrite : Memory → Nat → Byte → Memory
  | [], x, v => [(x, v)]
  | (a, b) :: rest, x, v =>
    if x < a then (x, v) :: (a, b) :: rest
    else if x = a then (x, v) :: rest
    else (a, b) :: memWrite rest x v

/-- `MemRead(addr, n)`: the bytes at `addr` to `addr + n - 1`, lowest address first (20_memory R44); if one of them
has never been written, the first such address instead. -/
def readBytes (m : Memory) (addr : Nat) : Nat → Except Nat (List Byte)
  | 0 => .ok []
  | n + 1 =>
    match memRead m addr with
    | none => .error addr
    | some b =>
      match readBytes m (addr + 1) n with
      | .ok bs => .ok (b :: bs)
      | .error a => .error a

/-- `MemWrite(addr, n, s)` with `n = len(s)`: `MEM[addr + k] <- s[k]`, nothing else changes (20_memory R45). -/
def writeBytes (m : Memory) (addr : Nat) : List Byte → Memory
  | [] => m
  | b :: bs => writeBytes (memWrite m addr b) (addr + 1) bs

/-- Goes on with a result; an error or a refusal ends the whole operation (00_scope R11). -/
def OpResult.andThen {α β : Type} (x : OpResult α) (f : α → Memory → OpResult β) : OpResult β :=
  match x with
  | .done a m => f a m
  | .error k => .error k
  | .refused r => .refused r

/-- Goes on only if the window is inside `MEM`: refusal comes before any error (20_memory R49, 60_exceptions R244). -/
def inWindow {α : Type} (p : Parameters) (w : Window) (x : OpResult α) : OpResult α :=
  if windowInside p w then x else .refused (.windowOutsideMem w)

/-- Goes on with the bytes of a window; a byte nothing has written refuses the run (70_reset_and_hazards R275). -/
def withBytes {α : Type} (m : Memory) (addr n : Nat) (f : List Byte → OpResult α) : OpResult α :=
  match readBytes m addr n with
  | .ok bs => f bs
  | .error a => .refused (.readUnwritten a)

/-- Goes on only if a sum of an address and a count is an `ADDR_W`-bit number: "a sum beyond `2^ADDR_W - 1` is the host's
`Overflow`", and "there is no wrap-around" (10_state R23, 48_frame_context R184; log 26). -/
def checkedSum {α : Type} (cursor count : Nat) (x : OpResult α) : OpResult α :=
  if 2 ^ 64 - 1 < cursor + count then .error .overflow else x

/-- Delivers an error: the response says the kind and nothing else, and nothing else changes; nothing is saved, no
mode or mask exists, control goes nowhere (60_exceptions R246, R247). -/
def deliverError (s : State) (k : ErrorKind) : State := s.setResponse (some (.error k))

/-- Delivers the response of an operation: its result fields and its effect on `MEM`, or its error
(30_encoding R60, R63). -/
def respond {α : Type} (s : State) (fields : α → Result) : OpResult α → Host.Outcome State Fault Refusal
  | .done a m => .next ((s.setMem m).setResponse (some (.ok (fields a))))
  | .error k => .next (deliverError s k)
  | .refused r => .refused r

end Sys2Proof.Machine
end

