-- ==== Sys2Proof/Machine/Crc.lean ====
section
/-! DEFINITION. The Checksum Primitive: `CRC32C` (40_crc32c). The function is fixed, the circuit is not (R96). -/

namespace Sys2Proof.Machine

/-- One step of the inner loop of 40_crc32c R92: shift right by one, and XOR the reflected polynomial if bit 0 was
set. -/
def crcShift (c : BitVec 32) : BitVec 32 :=
  if c.getLsbD 0 then (c >>> 1) ^^^ Config.polyReflected else c >>> 1

/-- `k` steps of the inner loop. -/
def crcShifts : Nat → BitVec 32 → BitVec 32
  | 0, c => c
  | k + 1, c => crcShifts k (crcShift c)

/-- One byte: XOR it into bits 7:0, then eight steps (40_crc32c R92). -/
def crcByte (c : BitVec 32) (b : Byte) : BitVec 32 := crcShifts 8 (c ^^^ b.setWidth 32)

/-- `upd(c, s)`: the register after the loop over `s`, starting from `c` (40_crc32c R95). -/
def crcUpdate (c : BitVec 32) : List Byte → BitVec 32
  | [] => c
  | b :: bs => crcUpdate (crcByte c b) bs

/-- The CRC-32C of a byte sequence (40_crc32c R92). -/
def crc32c (s : List Byte) : BitVec 32 := crcUpdate Config.crcInit s ^^^ Config.crcXorOut

/-- `T[k]` of the byte-wise form: eight steps from `zext_32(k)` (40_crc32c R92). -/
def crcTable (k : Byte) : BitVec 32 := crcShifts 8 (k.setWidth 32)

/-- One step of the normal form: shift left by one, and XOR the polynomial if bit 31 was set (40_crc32c R93). -/
def crcNormalShift (r : BitVec 32) : BitVec 32 :=
  if r.getLsbD 31 then (r <<< 1) ^^^ Config.poly else r <<< 1

/-- `k` steps of the normal form. -/
def crcNormalShifts : Nat → BitVec 32 → BitVec 32
  | 0, r => r
  | k + 1, r => crcNormalShifts k (crcNormalShift r)

/-- The normal-form register after a byte sequence: each byte reversed into the top byte (40_crc32c R93). -/
def crcNormalUpdate (r : BitVec 32) : List Byte → BitVec 32
  | [] => r
  | b :: bs => crcNormalUpdate (crcNormalShifts 8 (r ^^^ (b.reverse.setWidth 32 <<< 24))) bs

/-- The normal-form statement of the same function (40_crc32c R93). -/
def crc32cNormal (s : List Byte) : BitVec 32 := (crcNormalUpdate Config.crcInit s).reverse ^^^ Config.crcXorOut

/-- `CRC32C` on `MEM`: reads the `len` bytes of the window, writes nothing, has no error (40_crc32c R90, R94). -/
def opCrc32c (p : Parameters) (m : Memory) (base len : Nat) : OpResult (BitVec 32) :=
  inWindow p ⟨base, len⟩ (withBytes m base len fun bs => .done (crc32c bs) m)

/-- `CRC32C` (40_crc32c R90): `rsp.crc`. -/
def execCrc32c (base len : Addr) (s : State) : Host.Outcome State Fault Refusal :=
  respond s .crc32c (opCrc32c s.cfg s.mem base.toNat len.toNat)

end Sys2Proof.Machine
end

