-- ==== Sys2Proof/Machine/Fixed.lean ====
section
/-! DEFINITION. Fixed fields and the presence bitmap: widths and representation (48_frame_context R175, R179, R180). -/

namespace Sys2Proof.Machine

/-- The width of a fixed field type in bytes (48_frame_context R179). -/
def FixedType.width : FixedType → Nat
  | .u8 | .i8 => 1
  | .u16 | .i16 => 2
  | .u32 | .i32 => 4
  | .u64 | .i64 => 8

/-- The type of a fixed field value. -/
def FixedValue.type : FixedValue → FixedType
  | .u8 _ => .u8 | .u16 _ => .u16 | .u32 _ => .u32 | .u64 _ => .u64
  | .i8 _ => .i8 | .i16 _ => .i16 | .i32 _ => .i32 | .i64 _ => .i64

/-- `sext` of an `8w`-bit pattern: `p - 2^(8w)` if bit `8w - 1` is 1, else `p` (48_frame_context R180, 00_scope R9). -/
def sextBytes (w p : Nat) : Int :=
  if p.testBit (8 * w - 1) then (p : Int) - 2 ^ (8 * w) else p

/-- The integer a fixed field value stands for (48_frame_context R179, R180). -/
def FixedValue.int : FixedValue → Int
  | .u8 v => v.toNat
  | .u16 v => v.toNat
  | .u32 v => v.toNat
  | .u64 v => v.toNat
  | .i8 v => sextBytes 1 v.toNat
  | .i16 v => sextBytes 2 v.toNat
  | .i32 v => sextBytes 4 v.toNat
  | .i64 v => sextBytes 8 v.toNat

/-- The bytes of a fixed field: `LE_w(v)` for an unsigned value, `LE_w(s mod 2^(8w))` for a signed one
(48_frame_context R180). -/
def fixedBytes (v : FixedValue) : List Byte :=
  leBytes v.type.width (v.int % 2 ^ (8 * v.type.width)).toNat

/-- The value of a fixed field read back from its bytes (48_frame_context R180, R191). -/
def fixedOf (t : FixedType) (bs : List Byte) : FixedValue :=
  match t with
  | .u8 => .u8 (BitVec.ofNat 8 (fromLE bs))
  | .u16 => .u16 (BitVec.ofNat 16 (fromLE bs))
  | .u32 => .u32 (BitVec.ofNat 32 (fromLE bs))
  | .u64 => .u64 (BitVec.ofNat 64 (fromLE bs))
  | .i8 => .i8 (BitVec.ofNat 8 (fromLE bs))
  | .i16 => .i16 (BitVec.ofNat 16 (fromLE bs))
  | .i32 => .i32 (BitVec.ofNat 32 (fromLE bs))
  | .i64 => .i64 (BitVec.ofNat 64 (fromLE bs))

/-- The width of a bitmap in bytes (48_frame_context R175, R188). -/
def BitmapWidth.bytes : BitmapWidth → Nat
  | .w8 => 1
  | .w16 => 2
  | .w32 => 4
  | .w64 => 8

/-- The width of a bitmap value. -/
def Bitmap.width : Bitmap → BitmapWidth
  | .b8 _ => .w8
  | .b16 _ => .w16
  | .b32 _ => .w32
  | .b64 _ => .w64

/-- The unsigned value of a bitmap. -/
def Bitmap.value : Bitmap → Nat
  | .b8 v => v.toNat
  | .b16 v => v.toNat
  | .b32 v => v.toNat
  | .b64 v => v.toNat

/-- The bytes of a bitmap: `LE_wd(value)` (48_frame_context R180, R188). -/
def bitmapBytes (b : Bitmap) : List Byte := leBytes b.width.bytes b.value

/-- The bitmap of a width read back from its bytes (48_frame_context R192). -/
def bitmapOf (w : BitmapWidth) (bs : List Byte) : Bitmap :=
  match w with
  | .w8 => .b8 (BitVec.ofNat 8 (fromLE bs))
  | .w16 => .b16 (BitVec.ofNat 16 (fromLE bs))
  | .w32 => .b32 (BitVec.ofNat 32 (fromLE bs))
  | .w64 => .b64 (BitVec.ofNat 64 (fromLE bs))

end Sys2Proof.Machine
end

