-- ==== Sys2Proof/Machine/Header.lean ====
section
/-! DEFINITION. The Frame Header: `HDR_SER` and `HDR_DES` (42_header; wire format 30_encoding R71 to R74). -/

namespace Sys2Proof.Machine

/-- The 14 bytes of a header: `LE_2(magic) || version || flags || LE_2(msg_type) || LE_4(seq) || LE_4(body_len)`
(30_encoding R72). -/
def headerBytes (h : FrameHeader) : List Byte :=
  leBytes 2 h.magic.toNat ++ leBytes 1 h.version.toNat ++ leBytes 1 h.flags.toNat ++ leBytes 2 h.msgType.toNat
    ++ leBytes 4 h.seq.toNat ++ leBytes 4 h.bodyLen.toNat

/-- The header fields of 14 bytes, each unsigned and little-endian at its offset (30_encoding R71, R72). -/
def headerOf (bs : List Byte) : FrameHeader where
  magic := BitVec.ofNat 16 (fieldAt 0 2 bs)
  version := BitVec.ofNat 8 (fieldAt 2 1 bs)
  flags := BitVec.ofNat 8 (fieldAt 3 1 bs)
  msgType := BitVec.ofNat 16 (fieldAt 4 2 bs)
  seq := BitVec.ofNat 32 (fieldAt 6 4 bs)
  bodyLen := BitVec.ofNat 32 (fieldAt 10 4 bs)

/-- `HDR_SER` on `MEM`: the space check comes before any write, and nothing else is validated (42_header R141,
R143). -/
def opHdrSer (p : Parameters) (m : Memory) (base cap : Nat) (h : FrameHeader) : OpResult Nat :=
  inWindow p ⟨base, cap⟩
    (if cap < Config.hdrSize then .error .bufferTooSmall
     else .done Config.hdrSize (writeBytes m base (headerBytes h)))

/-- `HDR_SER` (42_header R140): `rsp.n = 14`. -/
def execHdrSer (base cap : Addr) (h : FrameHeader) (s : State) : Host.Outcome State Fault Refusal :=
  respond s (fun n => .hdrSer (BitVec.ofNat 64 n)) (opHdrSer s.cfg s.mem base.toNat cap.toNat h)

/-- The checks of `HDR_DES` on the 14 bytes read: `magic` first, then `version`, unsigned (42_header R147, R148). -/
def checkHeader (p : Parameters) (m : Memory) (h : FrameHeader) : OpResult (FrameHeader × Nat) :=
  if h.magic ≠ p.magic then .error .invalidMagic
  else if p.maxVersion.toNat < h.version.toNat then .error .unsupportedVersion
  else .done (h, Config.hdrSize) m

/-- `HDR_DES` on `MEM`: reads 14 bytes if that many are available and none otherwise; writes nothing (42_header R146,
R147). -/
def opHdrDes (p : Parameters) (m : Memory) (base avail : Nat) : OpResult (FrameHeader × Nat) :=
  inWindow p ⟨base, avail⟩
    (if avail < Config.hdrSize then .error .truncated
     else withBytes m base Config.hdrSize fun bs => checkHeader p m (headerOf bs))

/-- `HDR_DES` (42_header R146): the six fields and `rsp.n = 14`. -/
def execHdrDes (base avail : Addr) (s : State) : Host.Outcome State Fault Refusal :=
  respond s (fun r => .hdrDes r.1 (BitVec.ofNat 64 r.2)) (opHdrDes s.cfg s.mem base.toNat avail.toNat)

end Sys2Proof.Machine
end

