-- ==== Sys2Proof/Machine/Varint.lean ====
section
/-! DEFINITION. The Varint Codec: `VARINT_ENC` and `VARINT_DEC` (41_varint; wire format 30_encoding R68 to R70). -/

namespace Sys2Proof.Machine

/-- Byte `i` of an `n`-byte varint: payload `value[7i+6:7i]` in bits 6:0, the continuation bit in bit 7, set unless it
is the last byte (30_encoding R68, 41_varint R111). -/
def varintByte (value : BitVec 64) (n i : Nat) : Byte :=
  ((value >>> (Config.varintGroup * i)) &&& 0x7F#64).setWidth 8 ||| (if i < n - 1 then 0x80#8 else 0#8)

/-- The shortest varint of a value (41_varint R111, 30_encoding R69). -/
def varintBytes (value : BitVec 64) : List Byte :=
  (List.range (varintLen value.toNat)).map (varintByte value (varintLen value.toNat))

/-- The usual loop of 41_varint R111, with at most `fuel + 1` bytes: emit 7 bits and go on while a bit is left. -/
def varintLoop : Nat → BitVec 64 → List Byte
  | 0, value => [(value &&& 0x7F#64).setWidth 8]
  | fuel + 1, value =>
    if value >>> 7 = 0#64 then [(value &&& 0x7F#64).setWidth 8]
    else ((value &&& 0x7F#64).setWidth 8 ||| 0x80#8) :: varintLoop fuel (value >>> 7)

/-- `VARINT_ENC` on `MEM`: the space check comes before any write (41_varint R111, R112). -/
def opVarintEnc (p : Parameters) (m : Memory) (base cap : Nat) (value : BitVec 64) : OpResult Nat :=
  inWindow p ⟨base, cap⟩
    (if cap < varintLen value.toNat then .error .bufferTooSmall
     else .done (varintLen value.toNat) (writeBytes m base (varintBytes value)))

/-- `VARINT_ENC` (41_varint R110): `rsp.n`. -/
def execVarintEnc (base cap : Addr) (value : BitVec 64) (s : State) : Host.Outcome State Fault Refusal :=
  respond s (fun n => .varintEnc (BitVec.ofNat 64 n)) (opVarintEnc s.cfg s.mem base.toNat cap.toNat value)

/-- The loop of 41_varint R118 at byte index `i` with `value` accumulated so far; `left` is the number of bytes it may
still read, so `i + left = 10`. The tests (T), (O1), (O2) stand in the rule's order; with `left = 0`, `i` is 10, and
the eleventh byte is not read. -/
def varintDecLoop (m : Memory) (base avail : Nat) : Nat → Nat → BitVec 64 → OpResult (BitVec 64 × Nat)
  | 0, i, _ => if avail ≤ i then .error .truncated else .error .overflow
  | left + 1, i, value =>
    if avail ≤ i then .error .truncated
    else match memRead m (base + i) with
      | none => .refused (.readUnwritten (base + i))
      | some b =>
        if i = 9 ∧ 1 < (b &&& 0x7F#8).toNat then .error .overflow
        else
          let value' := value ||| ((b &&& 0x7F#8).setWidth 64 <<< (Config.varintGroup * i))
          if b.getLsbD 7 = false then .done (value', i + 1) m
          else varintDecLoop m base avail left (i + 1) value'

/-- `VARINT_DEC` on `MEM`: at most 10 bytes are read, nothing is written (41_varint R117, R118). -/
def opVarintDec (p : Parameters) (m : Memory) (base avail : Nat) : OpResult (BitVec 64 × Nat) :=
  inWindow p ⟨base, avail⟩ (varintDecLoop m base avail Config.maxVarintLen 0 0#64)

/-- `VARINT_DEC` (41_varint R117): `rsp.value` and `rsp.n`. -/
def execVarintDec (base avail : Addr) (s : State) : Host.Outcome State Fault Refusal :=
  respond s (fun r => .varintDec r.1 (BitVec.ofNat 64 r.2)) (opVarintDec s.cfg s.mem base.toNat avail.toNat)

end Sys2Proof.Machine
end

