-- ==== Sys2Proof/Machine/FrameEncoder.lean ====
section
/-! DEFINITION. The Frame Encoder and its Body Writer: host procedures over the block's operations and plain host
writes (48_frame_context R181 to R190). A call that fails changes nothing (R195), and its checks stand in the order of
60_exceptions R245. -/

namespace Sys2Proof.Machine

/-- An encoder in state Created over the buffer `(F, cap)`, its writer in WritingFixed with `w = body_start`
(48_frame_context R183, R181; log 14). -/
def newEncoder (base cap : Nat) : Encoder where
  state := .created
  base := base
  cap := cap
  header := ⟨0#16, 0#8, 0#8, 0#16, 0#32, 0#32⟩
  extSize := 0
  writer := ⟨.writingFixed, base, base, base + cap⟩

/-- Making an encoder over a caller's buffer: the buffer must lie in `MEM` (48_frame_context R183, 20_memory R49), and
`limit = F + cap`, an address, must be one of `ADDR_W` bits, so that no later sum of the write cursor can be beyond
`2^ADDR_W - 1` (10_state R23, 48_frame_context R181, R184; that the sum is checked here is a DESIGN CHOICE, log 26). -/
def openEncoder (p : Parameters) (m : Memory) (base cap : Nat) : OpResult (CallValue × Encoder) :=
  inWindow p ⟨base, cap⟩ (checkedSum base cap (.done (.unit, newEncoder base cap) m))

/-- `put_<fixed-type>` in a writer state: legal and the state after, or `none` for `FieldOrderViolation`
(48_frame_context R182). -/
def writerAfterFixed : WriterState → Option WriterState
  | .writingFixed => some .writingFixed
  | .bitmapWritten => none
  | .writingVariable => none
  | .closed => none

/-- `put_bitmap` in a writer state (48_frame_context R182). -/
def writerAfterBitmap : WriterState → Option WriterState
  | .writingFixed => some .bitmapWritten
  | .bitmapWritten => none
  | .writingVariable => none
  | .closed => none

/-- `put_varbytes` in a writer state; `untouched` is "nothing written (`w = body_start`)" (48_frame_context R182). -/
def writerAfterVarbytes (untouched : Bool) : WriterState → Option WriterState
  | .writingFixed => if untouched then some .writingVariable else none
  | .bitmapWritten => some .writingVariable
  | .writingVariable => some .writingVariable
  | .closed => none

/-- The encoder after its writer has written `n` bytes and entered a state. -/
def Encoder.advance (e : Encoder) (ws : WriterState) (n : Nat) : Encoder :=
  { e with writer := { e.writer with state := ws, cursor := e.writer.cursor + n } }

/-- The encoder in BodyInProgress after `begin` has reserved the header `h` and an extension region of `extSize` bytes
(48_frame_context R185); its record is the header reserved, placeholder length and all (DESIGN CHOICE, log 25). -/
def Encoder.begun (e : Encoder) (h : FrameHeader) (extSize : Nat) : Encoder :=
  { e with
    state := .bodyInProgress
    header := h
    extSize := extSize
    writer := ⟨.writingFixed, e.base + Config.hdrSize + extSize, e.base + Config.hdrSize + extSize, e.base + e.cap⟩ }

/-- The header `begin` reserves: `magic` is the core's, `body_len` the placeholder 0, the rest the caller's
(48_frame_context R185, D36). -/
def placeholderHeader (p : Parameters) (h : FrameHeader) : FrameHeader :=
  { h with magic := p.magic, bodyLen := 0#32 }

/-- `flags[0]`: "header-extension present" (30_encoding R73). -/
def extFlag (h : FrameHeader) : Bool := h.flags.getLsbD 0

/-- The bytes `begin` needs: the header and, if flagged, `varint(len(ext)) || ext` (48_frame_context R185). -/
def beginNeed (h : FrameHeader) (ext : List Byte) : Nat :=
  if extFlag h then Config.hdrSize + varintLen ext.length + ext.length else Config.hdrSize

/-- `begin(header, ext)` (48_frame_context R185). -/
def beginFrame (p : Parameters) (m : Memory) (e : Encoder) (h : FrameHeader) (ext : List Byte) :
    OpResult (CallValue × Encoder) :=
  if e.state ≠ .created then .error .invalidState
  else if extFlag h = true ∧ e.cap < ext.length then .error .bufferTooSmall
  else if e.cap < beginNeed h ext then .error .bufferTooSmall
  else
    (opHdrSer p m e.base Config.hdrSize (placeholderHeader p h)).andThen fun _ m1 =>
      if extFlag h then
        (opVarintEnc p m1 (e.base + Config.hdrSize) (e.cap - Config.hdrSize) (BitVec.ofNat 64 ext.length)).andThen
          fun n m2 =>
            .done (.unit, e.begun (placeholderHeader p h) (n + ext.length))
              (writeBytes m2 (e.base + Config.hdrSize + n) ext)
      else .done (.unit, e.begun (placeholderHeader p h) 0) m1

/-- Writes bytes at the write cursor if they fit (48_frame_context R186, R188). -/
def putBytes (m : Memory) (e : Encoder) (ws : WriterState) (bs : List Byte) : OpResult (CallValue × Encoder) :=
  if e.writer.limit - e.writer.cursor < bs.length then .error .bufferTooSmall
  else .done (.unit, e.advance ws bs.length) (writeBytes m e.writer.cursor bs)

/-- `put_<fixed-type>(value)` (48_frame_context R186). -/
def putFixed (m : Memory) (e : Encoder) (v : FixedValue) : OpResult (CallValue × Encoder) :=
  if e.state ≠ .bodyInProgress then .error .invalidState
  else match writerAfterFixed e.writer.state with
    | none => .error .fieldOrderViolation
    | some ws => putBytes m e ws (fixedBytes v)

/-- `put_bitmap(value)` (48_frame_context R188). -/
def putBitmap (m : Memory) (e : Encoder) (b : Bitmap) : OpResult (CallValue × Encoder) :=
  if e.state ≠ .bodyInProgress then .error .invalidState
  else match writerAfterBitmap e.writer.state with
    | none => .error .fieldOrderViolation
    | some ws => putBytes m e ws (bitmapBytes b)

/-- `len(bytes)` of a source. -/
def VarSource.length : VarSource → Nat
  | .literal bs => bs.length
  | .window w => w.len

/-- Goes on with the source's bytes; a source in `MEM` must lie there and must not overlap the destination
(91_not_in_source N28, 93 U17; log 16). -/
def withSource {α : Type} (p : Parameters) (m : Memory) (dest : Window) (f : List Byte → OpResult α) :
    VarSource → OpResult α
  | .literal bs => f bs
  | .window w =>
    inWindow p w
      (if dest.overlaps w then .refused .sourceOverlapsDestination else withBytes m w.base w.len f)

/-- `put_varbytes(bytes)` (48_frame_context R187): order, then magnitude, then space, all before any write. -/
def putVarbytes (p : Parameters) (m : Memory) (e : Encoder) (src : VarSource) : OpResult (CallValue × Encoder) :=
  if e.state ≠ .bodyInProgress then .error .invalidState
  else match writerAfterVarbytes (e.writer.cursor == e.writer.bodyStart) e.writer.state with
    | none => .error .fieldOrderViolation
    | some ws =>
      let room := e.writer.limit - e.writer.cursor
      if p.maxVarbytesLen.toNat < src.length then .error .overflow
      else if room < src.length then .error .bufferTooSmall
      else if room < varintLen src.length + src.length then .error .bufferTooSmall
      else withSource p m ⟨e.writer.cursor, varintLen src.length + src.length⟩ (fun bs =>
        (opVarintEnc p m e.writer.cursor room (BitVec.ofNat 64 bs.length)).andThen fun n m1 =>
          .done (.unit, e.advance ws (n + bs.length)) (writeBytes m1 (e.writer.cursor + n) bs)) src

/-- The encoder in Finished, its writer Closed (48_frame_context R189). R189 back-patches the bytes of `MEM`; that the
host's own header record takes the body length `b` too is a DESIGN CHOICE (log 25). -/
def Encoder.finished (e : Encoder) (b : Nat) : Encoder :=
  { e with
    state := .finished
    header := { e.header with bodyLen := BitVec.ofNat 32 b }
    writer := { e.writer with state := .closed } }

/-- `finish_crc32c()`: back-patch, then sum, then trailer (48_frame_context R189). -/
def finishFrame (p : Parameters) (m : Memory) (e : Encoder) : OpResult (CallValue × Encoder) :=
  let b := e.writer.cursor - e.writer.bodyStart
  if e.state ≠ .bodyInProgress then .error .invalidState
  else if 2 ^ 32 - 1 < b then .error .overflow
  else if e.writer.limit - e.writer.cursor < Config.trailerSize then .error .bufferTooSmall
  else
    (opCrc32c p (writeBytes m (e.base + 10) (leBytes 4 b)) e.base (e.writer.cursor - e.base)).andThen fun crc m1 =>
      .done (.frameLength (e.writer.cursor + Config.trailerSize - e.base), e.finished b)
        (writeBytes m1 e.writer.cursor (leBytes 4 crc.toNat))

end Sys2Proof.Machine
end

