-- ==== Sys2Proof/Machine/FrameDecoder.lean ====
section
/-! DEFINITION. The Frame Decoder and its Body Reader: host procedures over the block's operations and plain host reads
(48_frame_context R191 to R201). -/

namespace Sys2Proof.Machine

/-- A decoder in state Created over the buffer `(F, L)` (48_frame_context R196; log 14). -/
def newDecoder (base len : Nat) : Decoder where
  state := .created
  base := base
  len := len
  header := ⟨0#16, 0#8, 0#8, 0#16, 0#32, 0#32⟩
  extSize := 0
  bodyLen := 0
  reader := ⟨.readingFixed, base, base, base⟩

/-- Making a decoder over a caller's buffer: the buffer must lie in `MEM` (48_frame_context R196, 20_memory R49), and its
end must be an address of `ADDR_W` bits, so that no later sum of the read cursor can be beyond `2^ADDR_W - 1` (10_state
R23, 48_frame_context R184; that the sum is checked here is a DESIGN CHOICE, log 26). -/
def openDecoder (p : Parameters) (m : Memory) (base len : Nat) : OpResult (CallValue × Decoder) :=
  inWindow p ⟨base, len⟩ (checkedSum base len (.done (.unit, newDecoder base len) m))

/-- The decoder in HeaderRead (48_frame_context R197). -/
def Decoder.withHeader (d : Decoder) (h : FrameHeader) (extSize : Nat) : Decoder :=
  { d with state := .headerRead, header := h, extSize := extSize, bodyLen := h.bodyLen.toNat }

/-- The last check of `header()`: the buffer holds body and trailer after `ext` extension bytes
(48_frame_context R197, D34); `rem` is what is left after them. -/
def checkLength (m : Memory) (d : Decoder) (h : FrameHeader) (ext : Nat) (rem : Nat) (view : Option Window) :
    OpResult (CallValue × Decoder) :=
  if rem < Config.trailerSize ∨ rem - Config.trailerSize < h.bodyLen.toNat then .error .lengthMismatch
  else .done (.header h view, d.withHeader h ext) m

/-- `header()` (48_frame_context R197, R198). -/
def readHeader (p : Parameters) (m : Memory) (d : Decoder) : OpResult (CallValue × Decoder) :=
  if d.state ≠ .created then .error .invalidState
  else
    (opHdrDes p m d.base d.len).andThen fun r _ =>
      let h := r.1
      let rem := d.len - Config.hdrSize
      if extFlag h then
        (opVarintDec p m (d.base + Config.hdrSize) rem).andThen fun x _ =>
          let xl := x.1.toNat
          let n := x.2
          if rem - n < xl then .error .lengthMismatch
          else checkLength m d h (n + xl) (rem - (n + xl)) (some ⟨d.base + Config.hdrSize + n, xl⟩)
      else checkLength m d h 0 rem none

/-- The canonical span of the frame being decoded: `14 + E + B` bytes from `F` (48_frame_context R176). -/
def Decoder.span (d : Decoder) : Nat := Config.hdrSize + d.extSize + d.bodyLen

/-- `verify_crc32c()` (48_frame_context R199). -/
def verifyFrame (p : Parameters) (m : Memory) (d : Decoder) : OpResult (CallValue × Decoder) :=
  if d.state ≠ .headerRead then .error .invalidState
  else
    (opCrc32c p m d.base d.span).andThen fun crc _ =>
      withBytes m (d.base + d.span) Config.trailerSize fun stored =>
        if crc.toNat ≠ fromLE stored then .error .checksumMismatch
        else .done (.unit, { d with state := .checksumVerified }) m

/-- The decoder in BodyInProgress with a reader over the body bytes (48_frame_context R200). -/
def Decoder.withBody (d : Decoder) : Decoder :=
  { d with
    state := .bodyInProgress
    reader := ⟨.readingFixed, d.base + Config.hdrSize + d.extSize, d.base + Config.hdrSize + d.extSize,
      d.base + Config.hdrSize + d.extSize + d.bodyLen⟩ }

/-- `body()` (48_frame_context R200). -/
def openBody (m : Memory) (d : Decoder) : OpResult (CallValue × Decoder) :=
  if d.state ≠ .checksumVerified then .error .invalidState
  else .done (.unit, d.withBody) m

/-- `get_<fixed-type>` in a reader state: the table of R182, mirrored (48_frame_context R191). -/
def readerAfterFixed : ReaderState → Option ReaderState
  | .readingFixed => some .readingFixed
  | .bitmapRead => none
  | .readingVariable => none
  | .closed => none

/-- `get_bitmap` in a reader state (48_frame_context R192). -/
def readerAfterBitmap : ReaderState → Option ReaderState
  | .readingFixed => some .bitmapRead
  | .bitmapRead => none
  | .readingVariable => none
  | .closed => none

/-- `get_varbytes` or `skip_varbytes` in a reader state; `untouched` is `r = body_start` (48_frame_context R191). -/
def readerAfterVarbytes (untouched : Bool) : ReaderState → Option ReaderState
  | .readingFixed => if untouched then some .readingVariable else none
  | .bitmapRead => some .readingVariable
  | .readingVariable => some .readingVariable
  | .closed => none

/-- The decoder after its reader has moved `n` bytes and entered a state. -/
def Decoder.advance (d : Decoder) (rs : ReaderState) (n : Nat) : Decoder :=
  { d with reader := { d.reader with state := rs, cursor := d.reader.cursor + n } }

/-- A reader call needs the reader that `body()` returns: before that there is none to call (48_frame_context R200;
log 14). -/
def withReader (d : Decoder) (x : OpResult (CallValue × Decoder)) : OpResult (CallValue × Decoder) :=
  if d.state ≠ .bodyInProgress then .refused (.noInstance .bodyReader) else x

/-- Reads `n` bytes at the read cursor if they remain (48_frame_context R191, R192). -/
def getBytes (m : Memory) (d : Decoder) (rs : ReaderState) (n : Nat) (value : List Byte → CallValue) :
    OpResult (CallValue × Decoder) :=
  if d.reader.bodyEnd - d.reader.cursor < n then .error .truncated
  else withBytes m d.reader.cursor n fun bs => .done (value bs, d.advance rs n) m

/-- `get_<fixed-type>()` (48_frame_context R191). -/
def getFixed (m : Memory) (d : Decoder) (t : FixedType) : OpResult (CallValue × Decoder) :=
  withReader d <| match readerAfterFixed d.reader.state with
    | none => .error .fieldOrderViolation
    | some rs => getBytes m d rs t.width fun bs => .fixed (fixedOf t bs)

/-- `get_bitmap()` (48_frame_context R192). -/
def getBitmap (m : Memory) (d : Decoder) (w : BitmapWidth) : OpResult (CallValue × Decoder) :=
  withReader d <| match readerAfterBitmap d.reader.state with
    | none => .error .fieldOrderViolation
    | some rs => getBytes m d rs w.bytes fun bs => .bitmap (bitmapOf w bs)

/-- The common part of `get_varbytes` and `skip_varbytes` (48_frame_context R193, R194); `value` says what of the view
is returned. The declared length is compared by subtraction, so a hostile one cannot wrap a sum. -/
def takeVarbytes (p : Parameters) (m : Memory) (d : Decoder) (value : Window → CallValue) :
    OpResult (CallValue × Decoder) :=
  withReader d <| match readerAfterVarbytes (d.reader.cursor == d.reader.bodyStart) d.reader.state with
    | none => .error .fieldOrderViolation
    | some rs =>
      (opVarintDec p m d.reader.cursor (d.reader.bodyEnd - d.reader.cursor)).andThen fun x _ =>
        let l := x.1.toNat
        let n := x.2
        if d.reader.bodyEnd - d.reader.cursor - n < l then .error .truncated
        else .done (value ⟨d.reader.cursor + n, l⟩, d.advance rs (n + l)) m

/-- `get_varbytes()`: the view (48_frame_context R193). -/
def getVarbytes (p : Parameters) (m : Memory) (d : Decoder) : OpResult (CallValue × Decoder) :=
  takeVarbytes p m d .view

/-- `skip_varbytes()`: no view (48_frame_context R194). -/
def skipVarbytes (p : Parameters) (m : Memory) (d : Decoder) : OpResult (CallValue × Decoder) :=
  takeVarbytes p m d fun _ => .unit

end Sys2Proof.Machine
end

