-- ==== Sys2Proof/Machine/Calls.lean ====
section
/-! DEFINITION. The host's calls on the state: which object each call needs, and what it leaves (48_frame_context R170,
R195; 60_exceptions R245). One call is one step of the model (log 14). -/

namespace Sys2Proof.Machine

/-- What an encoder call leaves: its value, the encoder and `MEM`; after an error, nothing but the error
(48_frame_context R195, D38). -/
def settleEncoder (s : State) : OpResult (CallValue × Encoder) → Host.Outcome State Fault Refusal
  | .done r m => .next (((s.setMem m).setEncoder (some r.2)).setCallResult (some (.ok r.1)))
  | .error k => .next (s.setCallResult (some (.error k)))
  | .refused r => .refused r

/-- What a decoder call leaves: its value, the decoder and `MEM`; after an error, nothing but the error
(48_frame_context R195, R202, D38). -/
def settleDecoder (s : State) : OpResult (CallValue × Decoder) → Host.Outcome State Fault Refusal
  | .done r m => .next (((s.setMem m).setDecoder (some r.2)).setCallResult (some (.ok r.1)))
  | .error k => .next (s.setCallResult (some (.error k)))
  | .refused r => .refused r

/-- A call on the host's encoder; without one there is nothing to call (log 14). -/
def onEncoder (s : State) (f : Encoder → OpResult (CallValue × Encoder)) : Host.Outcome State Fault Refusal :=
  match s.encoder with
  | some e => settleEncoder s (f e)
  | none => .refused (.noInstance .encoder)

/-- A call on the host's decoder; without one there is nothing to call (log 14). -/
def onDecoder (s : State) (f : Decoder → OpResult (CallValue × Decoder)) : Host.Outcome State Fault Refusal :=
  match s.decoder with
  | some d => settleDecoder s (f d)
  | none => .refused (.noInstance .decoder)

/-- A host call. It is one step, so a block reset falls before or after it and never cuts an operation it issues: the
spec does not say what the call does then (DESIGN CHOICE, log 14). -/
def runCall (c : HostCall) (s : State) : Host.Outcome State Fault Refusal :=
  match c with
  | .openEncoder base cap => settleEncoder s (openEncoder s.cfg s.mem base.toNat cap.toNat)
  | .beginFrame h ext => onEncoder s fun e => beginFrame s.cfg s.mem e h ext
  | .putFixed v => onEncoder s fun e => putFixed s.mem e v
  | .putBitmap b => onEncoder s fun e => putBitmap s.mem e b
  | .putVarbytes src => onEncoder s fun e => putVarbytes s.cfg s.mem e src
  | .finishCrc32c => onEncoder s fun e => finishFrame s.cfg s.mem e
  | .openDecoder base len => settleDecoder s (openDecoder s.cfg s.mem base.toNat len.toNat)
  | .readHeader => onDecoder s fun d => readHeader s.cfg s.mem d
  | .verifyCrc32c => onDecoder s fun d => verifyFrame s.cfg s.mem d
  | .openBody => onDecoder s fun d => openBody s.mem d
  | .getFixed t => onDecoder s fun d => getFixed s.mem d t
  | .getBitmap w => onDecoder s fun d => getBitmap s.mem d w
  | .getVarbytes => onDecoder s fun d => getVarbytes s.cfg s.mem d
  | .skipVarbytes => onDecoder s fun d => skipVarbytes s.cfg s.mem d

end Sys2Proof.Machine
end

