-- ==== Sys2Proof/Machine/Dispatch.lean ====
section
/-! DEFINITION. exec: one arm per constructor of Instr (30_encoding R62). -/

namespace Sys2Proof.Machine

def exec (i : Instr) (s : State) : Host.Outcome State Fault Refusal :=
  match i with
  | .crc32c base len => Sys2Proof.Machine.execCrc32c base len s
  | .varintEnc base cap value => Sys2Proof.Machine.execVarintEnc base cap value s
  | .varintDec base avail => Sys2Proof.Machine.execVarintDec base avail s
  | .hdrSer base cap header => Sys2Proof.Machine.execHdrSer base cap header s
  | .hdrDes base avail => Sys2Proof.Machine.execHdrDes base avail s

end Sys2Proof.Machine
end

