-- ==== Sys2Proof/Machine/Inputs.lean ====
section
/-! DEFINITION. What the block and the host do with one input: a command and the exclusivity rule, a command cut short
by a reset, a reset, plain host accesses, host calls (70_reset_and_hazards R270 to R277, 10_state R31). -/

namespace Sys2Proof.Machine

/-- The command a record says, or why the record has none: an unassigned opcode is refused by name (30_encoding R78),
a byte string that is not exactly one record is refused as the model's own (log 1). -/
def parseCommand (record : List Byte) : Except Refusal Instr :=
  match decode record with
  | .ok (i, []) => .ok i
  | .ok (_, _ :: _) => .error .malformedCommand
  | .error .noOpcode => .error .malformedCommand
  | .error (.unassigned op) => .error (.unassignedOpcode op)
  | .error (.tooShort _) => .error .malformedCommand

/-- The output range of a command: the bytes the operation writes (20_memory R46). -/
def outputRange : Instr → Window
  | .crc32c base _ => ⟨base.toNat, 0⟩
  | .varintEnc base cap value =>
    ⟨base.toNat, if cap.toNat < varintLen value.toNat then 0 else varintLen value.toNat⟩
  | .varintDec base _ => ⟨base.toNat, 0⟩
  | .hdrSer base cap _ => ⟨base.toNat, if cap.toNat < Config.hdrSize then 0 else Config.hdrSize⟩
  | .hdrDes base _ => ⟨base.toNat, 0⟩

/-- How an access by another agent during an operation breaks exclusivity: no byte of the command's window may be
written, no byte of its output range read, and no second command presented (70_reset_and_hazards R277). -/
def accessBreaks (i : Instr) (a : HostAccess) : Option Refusal :=
  match a with
  | .write base bytes => if i.window.overlaps ⟨base, bytes.length⟩ then some (.windowTouched a) else none
  | .read w => if (outputRange i).overlaps w then some (.windowTouched a) else none
  | .command _ => some .secondCommand

/-- The effect on `MEM` of accesses that break nothing; each must lie in `MEM` (20_memory R49). -/
def otherAccesses (p : Parameters) (m : Memory) : List HostAccess → Except Refusal Memory
  | [] => .ok m
  | .read w :: rest => if windowInside p w then otherAccesses p m rest else .error (.windowOutsideMem w)
  | .write base bytes :: rest =>
    if windowInside p ⟨base, bytes.length⟩ then otherAccesses p (writeBytes m base bytes) rest
    else .error (.windowOutsideMem ⟨base, bytes.length⟩)
  | .command _ :: _ => .error .secondCommand

/-- The state once the other agents' accesses have been made too. They touch no byte the operation touches, so their
place among its accesses cannot be observed (20_memory R51; log 13). -/
def afterAccesses (during : List HostAccess) (s : State) : Host.Outcome State Fault Refusal :=
  match otherAccesses s.cfg s.mem during with
  | .ok m => .next (s.setMem m)
  | .error r => .refused r

/-- Goes on from a next state. -/
def thenDo (x : Host.Outcome State Fault Refusal) (f : State → Host.Outcome State Fault Refusal) :
    Host.Outcome State Fault Refusal :=
  match x with
  | .next s => f s
  | .fault r => .fault r
  | .refused r => .refused r

/-- A command: decoded, refused if exclusivity is broken, executed (10_state R31, 60_exceptions R241). -/
def runCommand (record : List Byte) (during : List HostAccess) (s : State) : Host.Outcome State Fault Refusal :=
  match parseCommand record with
  | .error r => .refused r
  | .ok i =>
    match during.findSome? (accessBreaks i) with
    | some r => .refused r
    | none => thenDo (exec i s) (afterAccesses during)

/-- `n` free bytes, from the `k`-th on. -/
def freeBytes (k n : Nat) : List Byte := (List.range n).map fun j => Config.freeByte (k + j)

/-- A command cut short by a reset: no response is delivered and the bytes of its output range hold any value; all
else is as before (70_reset_and_hazards R272, log 12). R272 speaks of writing operations; a reading one cut short is
treated alike, with an empty output range, and is not refused for a byte nothing has written (DESIGN CHOICE, log 12).
No other agent's access falls between the command and the reset (DESIGN CHOICE, log 13). -/
def runCut (record : List Byte) (s : State) : Host.Outcome State Fault Refusal :=
  match parseCommand record with
  | .error r => .refused r
  | .ok i =>
    if windowInside s.cfg i.window then
      .next (((s.setMem (writeBytes s.mem (outputRange i).base (freeBytes s.freeCount (outputRange i).len))).setResponse
        none).setFreeCount (s.freeCount + (outputRange i).len))
    else .refused (.windowOutsideMem i.window)

/-- A reset between operations: there is nothing to initialise, `MEM` is not touched, and the host keeps its own state
(70_reset_and_hazards R270, R271, R273). -/
def runReset (s : State) : Host.Outcome State Fault Refusal := .next s

/-- A host read of `MEM`: it changes nothing of it (20_memory R44); a byte nothing has written has no value (R275). -/
def runHostRead (base n : Nat) (s : State) : Host.Outcome State Fault Refusal :=
  if windowInside s.cfg ⟨base, n⟩ then
    match readBytes s.mem base n with
    | .ok bs => .next (s.setCallResult (some (.ok (.bytes bs))))
    | .error a => .refused (.readUnwritten a)
  else .refused (.windowOutsideMem ⟨base, n⟩)

/-- A host write of `MEM` (20_memory R45, R51). -/
def runHostWrite (base : Nat) (bytes : List Byte) (s : State) : Host.Outcome State Fault Refusal :=
  if windowInside s.cfg ⟨base, bytes.length⟩ then .next (s.setMem (writeBytes s.mem base bytes))
  else .refused (.windowOutsideMem ⟨base, bytes.length⟩)

/-- One input. -/
def runInput (x : Input) (s : State) : Host.Outcome State Fault Refusal :=
  match x with
  | .command record during => runCommand record during s
  | .cutByReset record => runCut record s
  | .reset => runReset s
  | .hostRead base n => runHostRead base n s
  | .hostWrite base bytes => runHostWrite base bytes s
  | .call c => runCall c s

end Sys2Proof.Machine
end

