-- ==== Sys2Proof/Machine/Step.lean ====
section
/-! DEFINITION. step: takes the oldest input; with none, the block is idle (70_reset_and_hazards R270; log 2). Also the
state whose next step runs a given opcode-table word. -/

namespace Sys2Proof.Machine

/-- One step (10_state R31): the oldest input is taken and acted on; without one the block is idle and nothing
changes. -/
def step (s : State) : Host.Outcome State Fault Refusal :=
  match s.inputs with
  | [] => .next s
  | x :: rest => runInput x (s.setInputs rest)

/-- `s` with the command of an opcode-table word presented as the next input (log 5). -/
def State.withFetchWord (s : State) (nbits w : Nat) : State :=
  s.setInputs (.command (tableRecord nbits w) [] :: s.inputs)

end Sys2Proof.Machine
end

