-- ==== Sys2Proof/Machine/Flags.lean ====
section
/-! DEFINITION. Status. The block has no flags (10_state R24): the outcome of an operation is the `status` field of its
own response, `u8`, 0 for success and 1 to 9 for an error kind (30_encoding R63, 60_exceptions R230, D19). -/

namespace Sys2Proof.Machine

/-- The numeric code of an error kind (60_exceptions R230). -/
def ErrorKind.code : ErrorKind → Byte
  | .bufferTooSmall => 1#8
  | .truncated => 2#8
  | .invalidMagic => 3#8
  | .unsupportedVersion => 4#8
  | .lengthMismatch => 5#8
  | .checksumMismatch => 6#8
  | .fieldOrderViolation => 7#8
  | .overflow => 8#8
  | .invalidState => 9#8

/-- `rsp.status` (30_encoding R63): 0 is `Ok`. -/
def Response.status : Response → Byte
  | .ok _ => 0#8
  | .error k => k.code

/-- The errors each operation can return (30_encoding R65). -/
def errorsOf : Instr → List ErrorKind
  | .crc32c _ _ => []
  | .varintEnc _ _ _ => [.bufferTooSmall]
  | .varintDec _ _ => [.truncated, .overflow]
  | .hdrSer _ _ _ => [.bufferTooSmall]
  | .hdrDes _ _ => [.truncated, .invalidMagic, .unsupportedVersion]

end Sys2Proof.Machine
end

