-- ==== Sys2Proof/Safety.lean ====
section
/-! DEFINITION. The terms claims are stated in: what a memory holds, what a run leaves alone, the value of a varint as a
number, and the invariant of the machine. -/

namespace Sys2Proof.Machine

/-- `MEM` holds the bytes `bs` at `base`, `base + 1`, ... -/
abbrev HoldsBytes (m : Memory) (base : Nat) (bs : List Byte) : Prop :=
  ∀ k, (hk : k < bs.length) → memRead m (base + k) = some bs[k]

/-- Every byte outside the window reads as before (20_memory R46). -/
def SameOutside (w : Window) (m m' : Memory) : Prop := ∀ a, w.holds a = false → memRead m' a = memRead m a

/-- Two memories agree on the bytes of a window. -/
def AgreeOn (w : Window) (m m' : Memory) : Prop := ∀ a, w.holds a = true → memRead m' a = memRead m a

/-- Everything but `MEM` and the last response is as before: an operation of the block touches nothing else
(10_state R20). -/
structure OnlyBlock (s t : State) : Prop where
  cfg : t.cfg = s.cfg
  inputs : t.inputs = s.inputs
  encoder : t.encoder = s.encoder
  decoder : t.decoder = s.decoder
  callResult : t.callResult = s.callResult
  freeCount : t.freeCount = s.freeCount

/-- Everything but `MEM`, the encoder and the last call outcome is as before: an encoder call touches nothing else. -/
structure OnlyEncoder (s t : State) : Prop where
  cfg : t.cfg = s.cfg
  inputs : t.inputs = s.inputs
  response : t.response = s.response
  decoder : t.decoder = s.decoder
  freeCount : t.freeCount = s.freeCount

/-- The number a varint's payloads stand for, least significant group first (30_encoding R68): payload `k` counts
`128^k`. -/
def varintNumber : List Byte → Nat
  | [] => 0
  | b :: bs => b.toNat % 128 + 128 * varintNumber bs

/-- A varint's bytes: continuation bytes and then one terminating byte, at most ten, the tenth with payload 0 or 1
(30_encoding R70). -/
abbrev IsVarint (bs : List Byte) : Prop :=
  (∃ l, bs.getLast? = some l ∧ l.toNat < 128) ∧ (∀ b ∈ bs.dropLast, 128 ≤ b.toNat) ∧ bs.length ≤ 10
    ∧ (∀ b, bs[9]? = some b → b.toNat % 128 ≤ 1)

/-- The first `k` bytes at `base` are continuation bytes: bit 7 set (00_scope R15). -/
abbrev FirstContinue (m : Memory) (base k : Nat) : Prop :=
  ∀ j, j < k → ∃ b, memRead m (base + j) = some b ∧ 128 ≤ b.toNat

/-- The source of a `put_varbytes` gives these bytes: they are the literal, or they lie in `MEM` and share no byte
with the destination (48_frame_context R187, 93 U17). -/
def SourceGives (p : Parameters) (m : Memory) (dest : Window) (bs : List Byte) : VarSource → Prop
  | .literal lit => lit = bs
  | .window w =>
    w.len = bs.length ∧ w.base + w.len ≤ p.memSize.val ∧ dest.overlaps w = false ∧ HoldsBytes m w.base bs

/-- Every written byte is a byte of `MEM` (10_state R27). -/
abbrev Memory.inside (p : Parameters) (m : Memory) : Prop := ∀ c ∈ m, c.1 < p.memSize.val

/-- The encoder's invariant: its buffer lies in `MEM`, `HeaderBegun` is never the result of a call (48_frame_context
R203), the writer is Closed exactly when the encoder is Finished, the cursors are in order, the buffer's end is an
address (10_state R23, log 26), and a finished header record counts the body bytes written (R172; that the record does
is the model's choice, log 25). -/
structure EncoderOk (p : Parameters) (e : Encoder) : Prop where
  buffer : e.base + e.cap ≤ p.memSize.val
  representable : e.base + e.cap < 2 ^ 64
  limit : e.writer.limit = e.base + e.cap
  notHeaderBegun : e.state ≠ .headerBegun
  closed : e.state = .finished ↔ e.writer.state = .closed
  created : e.state = .created → e.writer.state = .writingFixed
  bodyStart : e.state ≠ .created → e.writer.bodyStart = e.base + 14 + e.extSize
  lower : e.state ≠ .created → e.writer.bodyStart ≤ e.writer.cursor
  upper : e.state ≠ .created → e.writer.cursor ≤ e.writer.limit
  magic : e.state ≠ .created → e.header.magic = p.magic
  ext : e.state ≠ .created → extFlag e.header = false → e.extSize = 0
  moved : e.writer.state = .bitmapWritten ∨ e.writer.state = .writingVariable → e.writer.bodyStart < e.writer.cursor
  trailer : e.state = .finished → e.writer.cursor + 4 ≤ e.writer.limit
  bodyLen : e.state = .finished → e.header.bodyLen.toNat = e.writer.cursor - e.writer.bodyStart

/-- The decoder's invariant: its buffer lies in `MEM` and its end is an address (10_state R23, log 26), `Done` and the
reader's `Closed` are never entered (48_frame_context R203), and once the header is read the whole frame lies in the
buffer (R197). -/
structure DecoderOk (p : Parameters) (d : Decoder) : Prop where
  buffer : d.base + d.len ≤ p.memSize.val
  representable : d.base + d.len < 2 ^ 64
  notDone : d.state ≠ .done
  notClosed : d.reader.state ≠ .closed
  frame : d.state ≠ .created → 14 + d.extSize + d.bodyLen + 4 ≤ d.len
  bodyLen : d.state ≠ .created → d.bodyLen = d.header.bodyLen.toNat
  magic : d.state ≠ .created → d.header.magic = p.magic
  version : d.state ≠ .created → d.header.version.toNat ≤ p.maxVersion.toNat
  ext : d.state ≠ .created → extFlag d.header = false → d.extSize = 0
  bodyStart : d.state = .bodyInProgress → d.reader.bodyStart = d.base + 14 + d.extSize
  bodyEnd : d.state = .bodyInProgress → d.reader.bodyEnd = d.reader.bodyStart + d.bodyLen
  lower : d.state = .bodyInProgress → d.reader.bodyStart ≤ d.reader.cursor
  upper : d.state = .bodyInProgress → d.reader.cursor ≤ d.reader.bodyEnd

/-- The invariant of the machine: `MEM` in canonical form and inside its bounds, and the host's objects in order. -/
structure Inv (s : State) : Prop where
  wf : Memory.wf s.mem
  inside : Memory.inside s.cfg s.mem
  encoder : ∀ e, s.encoder = some e → EncoderOk s.cfg e
  decoder : ∀ d, s.decoder = some d → DecoderOk s.cfg d

/-- A state a claim about a safe run starts from: the invariant holds and the next step has a meaning
(60_exceptions R241). -/
def SafeStep (s : State) : Prop := Inv s ∧ ∃ t, step s = .next t

end Sys2Proof.Machine
end

