-- ==== Sys2Proof/Certificates/Slice0/Obligations.lean ====
section
/-! DEFINITION. The statements for the provers. Each docstring names the rule of spec/ it formalises; a statement that
rests on a choice of the model says so and names the log entry. -/

open Sys2Proof Sys2Proof.Machine

/-! ## The step and the records -/

/-- 10_state R31, 30_encoding R60: a step takes the oldest input. A record that decodes to a command, with nothing done
meanwhile by others, is executed by `exec`; a host call is run by `runCall`; with no input the block is idle. The byte
record, the input list and the idle step are the model's choice (logs 1, 2). -/
def Obligations.StepRunsDecodedCommand : Prop :=
  (∀ (s : State) (record : List Byte) (i : Instr) (rest : List Input),
    s.inputs = .command record [] :: rest → decode record = .ok (i, []) → step s = exec i (s.setInputs rest))
  ∧ (∀ (s : State) (c : HostCall) (rest : List Input),
    s.inputs = .call c :: rest → step s = runCall c (s.setInputs rest))
  ∧ (∀ s : State, s.inputs = [] → step s = .next s)

/-- 30_encoding R61, R62 with the byte form of log 1 (the model's choice): five records written out by hand. -/
def Obligations.RecordsOfTheFiveOpcodesDecode : Prop :=
  decode [0x01, 0x00, 0x10, 0, 0, 0, 0, 0, 0, 40, 0, 0, 0, 0, 0, 0, 0] = .ok (.crc32c 0x1000 40, [])
  ∧ decode [0x02, 0x23, 0x10, 0, 0, 0, 0, 0, 0, 29, 0, 0, 0, 0, 0, 0, 0, 4, 0, 0, 0, 0, 0, 0, 0]
      = .ok (.varintEnc 0x1023 29 4, [])
  ∧ decode [0x03, 0x00, 0x40, 0, 0, 0, 0, 0, 0, 9, 0, 0, 0, 0, 0, 0, 0] = .ok (.varintDec 0x4000 9, [])
  ∧ decode [0x04, 0x00, 0x30, 0, 0, 0, 0, 0, 0, 14, 0, 0, 0, 0, 0, 0, 0, 0x4D, 0x42, 1, 0xFE, 0xCD, 0xAB,
        0x04, 0x03, 0x02, 0x01, 0x0D, 0x0C, 0x0B, 0x0A]
      = .ok (.hdrSer 0x3000 14 ⟨0x424D, 1, 0xFE, 0xABCD, 0x01020304, 0x0A0B0C0D⟩, [])
  ∧ decode [0x05, 0x00, 0x20, 0, 0, 0, 0, 0, 0, 44, 0, 0, 0, 0, 0, 0, 0] = .ok (.hdrDes 0x2000 44, [])

/-- 30_encoding R61, R62 with the byte form of log 1 (the model's choice): no bit of a record is dropped. -/
def Obligations.DecodeOfEncodeIsIdentity : Prop :=
  ∀ (i : Instr) (rest : List Byte), decode (encode i ++ rest) = .ok (i, rest)

/-- 30_encoding R61, R62 with the byte form of log 1 (the model's choice): each record has one meaning and each command
one record. -/
def Obligations.DecodedBytesAreTheEncoding : Prop :=
  ∀ (bs : List Byte) (i : Instr) (rest : List Byte), decode bs = .ok (i, rest) → bs = encode i ++ rest

/-- 30_encoding R78: `op` values `0x00` and `0x06` to `0xFF` select no operation; a command with one is refused by
name, whatever its operands. -/
def Obligations.UnassignedOpcodeRefused : Prop :=
  ∀ (s : State) (op : Byte) (operands : List Byte) (during : List HostAccess) (rest : List Input),
    op.toNat = 0 ∨ 6 ≤ op.toNat → s.inputs = .command (op :: operands) during :: rest →
    step s = .refused (.unassignedOpcode op)

/-- 20_memory R49, 60_exceptions R244: a command whose window is not inside `MEM` is refused, before any error. -/
def Obligations.WindowOutsideMemRefused : Prop :=
  ∀ (i : Instr) (s : State), s.cfg.memSize.val < i.window.base + i.window.len →
    exec i s = .refused (.windowOutsideMem i.window)

/-! ## CRC32C -/

/-- 40_crc32c R90: `CRC32C` reads the window and returns the CRC-32C of its bytes in rising address order; it writes
nothing and has no error; `len = 0` is legal. -/
def Obligations.CrcReturnsChecksumOfWindow : Prop :=
  ∀ (s : State) (base len : Addr) (bs : List Byte),
    base.toNat + len.toNat ≤ s.cfg.memSize.val → bs.length = len.toNat → HoldsBytes s.mem base.toNat bs →
    exec (.crc32c base len) s = .next (s.setResponse (some (.ok (.crc32c (crc32c bs)))))

/-- 40_crc32c R93: the most-significant-bit-first statement computes the same function. -/
def Obligations.CrcNormalFormComputesTheSame : Prop := ∀ s : List Byte, crc32cNormal s = crc32c s

/-- 40_crc32c R92: the byte-wise table form of the inner loop, and sample entries of the table. -/
def Obligations.CrcByteTableFormAgrees : Prop :=
  (∀ (c : BitVec 32) (b : Byte),
    crcByte c b = ((c ^^^ b.setWidth 32) >>> 8) ^^^ crcTable ((c ^^^ b.setWidth 32).setWidth 8))
  ∧ crcTable 1 = 0xF26B8303 ∧ crcTable 16 = 0x105EC76F ∧ crcTable 128 = 0x82F63B78 ∧ crcTable 255 = 0xAD7D5351

/-- 40_crc32c R95 (a), (b): chaining and linearity of the register update. -/
def Obligations.CrcUpdateChainsAndIsLinear : Prop :=
  (∀ (c : BitVec 32) (s t : List Byte), crcUpdate c (s ++ t) = crcUpdate (crcUpdate c s) t)
  ∧ (∀ (s t : List Byte), s.length = t.length → ∀ c d : BitVec 32,
      crcUpdate (c ^^^ d) (List.zipWith (· ^^^ ·) s t) = crcUpdate c s ^^^ crcUpdate d t)

/-- 40_crc32c R95 (c): a message followed by its own little-endian CRC has a constant CRC. -/
def Obligations.CrcResidueIsConstant : Prop :=
  ∀ s : List Byte, crc32c (s ++ leBytes 4 (crc32c s).toNat) = 0x48674BC7#32

/-- 40_crc32c R95 (d): flipping one bit of a message changes its CRC. -/
def Obligations.CrcDetectsEverySingleBitFlip : Prop :=
  ∀ (s : List Byte) (k : Nat) (hk : k < s.length) (j : Nat), j < 8 →
    crc32c (s.set k (s[k] ^^^ (1#8 <<< j))) ≠ crc32c s

/-- 40_crc32c R94 (a), (b), (e), R98: the values the spec gives. -/
def Obligations.CrcKnownValues : Prop :=
  crc32c [] = 0x00000000#32 ∧ crc32c [0x00] = 0x527D5351#32 ∧ crc32c (List.replicate 32 0x00) = 0x8A9136AA#32
  ∧ crc32c [0x31, 0x32, 0x33, 0x34, 0x35, 0x36, 0x37, 0x38, 0x39] = 0xE3069283#32
  ∧ crc32c [0x4D, 0x42, 0x01, 0, 0, 0, 0, 0, 0, 0, 0, 0, 0, 0] = 0xCDB944DF#32

/-! ## VARINT_ENC and VARINT_DEC -/

/-- 41_varint R110, R111: `VARINT_ENC` writes the shortest varint at `base` and returns its length; byte `i` has
`value[7i+6:7i]` in bits 6:0 and bit 7 set unless it is the last. Nothing else changes. -/
def Obligations.VarintEncWritesShortestForm : Prop :=
  ∀ (s : State) (base cap : Addr) (value : BitVec 64),
    base.toNat + cap.toNat ≤ s.cfg.memSize.val → varintLen value.toNat ≤ cap.toNat →
    ∃ t, exec (.varintEnc base cap value) s = .next t
      ∧ t.response = some (.ok (.varintEnc (BitVec.ofNat 64 (varintLen value.toNat))))
      ∧ (∀ i, i < varintLen value.toNat → memRead t.mem (base.toNat + i) = some (BitVec.ofNat 8
          (value.toNat / 2 ^ (7 * i) % 128 + if i + 1 < varintLen value.toNat then 128 else 0)))
      ∧ SameOutside ⟨base.toNat, varintLen value.toNat⟩ s.mem t.mem ∧ OnlyBlock s t

/-- 60_exceptions R231: `BufferTooSmall` in the block, from `VARINT_ENC` and from `HDR_SER`; only the kind is
recorded and nothing is written. -/
def Obligations.BufferTooSmallWhenSpaceIsShort : Prop :=
  (∀ (s : State) (base cap : Addr) (value : BitVec 64),
    base.toNat + cap.toNat ≤ s.cfg.memSize.val → cap.toNat < varintLen value.toNat →
    exec (.varintEnc base cap value) s = .next (s.setResponse (some (.error .bufferTooSmall))))
  ∧ (∀ (s : State) (base cap : Addr) (h : FrameHeader),
    base.toNat + cap.toNat ≤ s.cfg.memSize.val → cap.toNat < 14 →
    exec (.hdrSer base cap h) s = .next (s.setResponse (some (.error .bufferTooSmall))))

/-- 30_encoding R69: the length of the shortest form, between 1 and 10; `n` bytes exactly for the values from
`2^(7(n-1))` (0 for `n = 1`) to `2^(7n) - 1`; zero is the byte `00`, and a tenth byte is `01`. -/
def Obligations.VarintLengthFollowsTheTable : Prop :=
  ∀ v : BitVec 64, (varintBytes v).length = varintLen v.toNat
    ∧ 1 ≤ varintLen v.toNat ∧ varintLen v.toNat ≤ 10
    ∧ (∀ n, 1 ≤ n → n ≤ 10 →
      (varintLen v.toNat = n ↔ (n = 1 ∨ 2 ^ (7 * (n - 1)) ≤ v.toNat) ∧ v.toNat < 2 ^ (7 * n)))
    ∧ (v = 0#64 → varintBytes v = [0x00#8]) ∧ (∀ b, (varintBytes v)[9]? = some b → b = 0x01#8)

/-- 41_varint R111: "the same result by the usual loop". -/
def Obligations.VarintUsualLoopAgrees : Prop := ∀ v : BitVec 64, varintLoop 9 v = varintBytes v

/-- 41_varint R116: `VARINT_DEC` after `VARINT_ENC` returns the value and the length. -/
def Obligations.VarintEncodeThenDecode : Prop :=
  ∀ (s : State) (base cap avail : Addr) (v : BitVec 64),
    base.toNat + cap.toNat ≤ s.cfg.memSize.val → varintLen v.toNat ≤ cap.toNat →
    base.toNat + avail.toNat ≤ s.cfg.memSize.val → varintLen v.toNat ≤ avail.toNat →
    ∃ t, exec (.varintEnc base cap v) s = .next t
      ∧ t.response = some (.ok (.varintEnc (BitVec.ofNat 64 (varintLen v.toNat))))
      ∧ exec (.varintDec base avail) t
        = .next (t.setResponse (some (.ok (.varintDec v (BitVec.ofNat 64 (varintLen v.toNat))))))

/-- 41_varint R117, R118: where the window begins with a varint, `VARINT_DEC` returns the number its payloads stand
for and its length. Bytes after the terminating byte need hold nothing (R122). -/
def Obligations.VarintDecReturnsValueAndLength : Prop :=
  ∀ (s : State) (base avail : Addr) (bs : List Byte),
    base.toNat + avail.toNat ≤ s.cfg.memSize.val → IsVarint bs → bs.length ≤ avail.toNat →
    HoldsBytes s.mem base.toNat bs →
    varintNumber bs < 2 ^ 64
    ∧ exec (.varintDec base avail) s = .next (s.setResponse
        (some (.ok (.varintDec (BitVec.ofNat 64 (varintNumber bs)) (BitVec.ofNat 64 bs.length)))))

/-- 41_varint R120 (a) to (e): which of `Truncated` and `Overflow` is reported. -/
def Obligations.VarintDecErrorOrder : Prop :=
  ∀ (s : State) (base avail : Addr), base.toNat + avail.toNat ≤ s.cfg.memSize.val →
    (∀ b, avail.toNat = 10 → FirstContinue s.mem base.toNat 10 → memRead s.mem (base.toNat + 9) = some b →
      b.toNat % 128 ≤ 1 →
      exec (.varintDec base avail) s = .next (s.setResponse (some (.error .truncated))))
    ∧ (∀ b, 10 < avail.toNat → FirstContinue s.mem base.toNat 10 → memRead s.mem (base.toNat + 9) = some b →
      b.toNat % 128 ≤ 1 →
      exec (.varintDec base avail) s = .next (s.setResponse (some (.error .overflow))))
    ∧ (∀ b, 10 ≤ avail.toNat → FirstContinue s.mem base.toNat 9 → memRead s.mem (base.toNat + 9) = some b →
      1 < b.toNat % 128 →
      exec (.varintDec base avail) s = .next (s.setResponse (some (.error .overflow))))
    ∧ (avail.toNat < 10 → FirstContinue s.mem base.toNat avail.toNat →
      exec (.varintDec base avail) s = .next (s.setResponse (some (.error .truncated))))
    ∧ (avail.toNat = 0 → exec (.varintDec base avail) s = .next (s.setResponse (some (.error .truncated))))

/-- 60_exceptions R235: `Overflow` comes from `VARINT_DEC` only, at its tests (O1) and (O2). -/
def Obligations.OverflowOnlyFromVarintDec : Prop :=
  ∀ (i : Instr) (s t : State), exec i s = .next t → t.response = some (.error .overflow) →
    ∃ base avail b, i = .varintDec base avail ∧ FirstContinue s.mem base.toNat 9 ∧ 10 ≤ avail.toNat
      ∧ memRead s.mem (base.toNat + 9) = some b
      ∧ (1 < b.toNat % 128 ∨ (128 ≤ b.toNat ∧ 10 < avail.toNat))

/-- 60_exceptions R232: `Truncated` comes from `VARINT_DEC`, when the window ends before a terminating byte, and from
`HDR_DES`, when fewer than 14 bytes are available. -/
def Obligations.TruncatedWhenTheWindowEnds : Prop :=
  (∀ (i : Instr) (s t : State), exec i s = .next t → t.response = some (.error .truncated) →
    (∃ base avail, i = .varintDec base avail ∧ avail.toNat ≤ 10 ∧ FirstContinue s.mem base.toNat avail.toNat)
    ∨ (∃ base avail, i = .hdrDes base avail ∧ avail.toNat < 14))
  ∧ (∀ (s : State) (base avail : Addr), base.toNat + avail.toNat ≤ s.cfg.memSize.val → avail.toNat ≤ 10 →
    FirstContinue s.mem base.toNat avail.toNat →
    (∀ b, avail.toNat = 10 → memRead s.mem (base.toNat + 9) = some b → b.toNat % 128 ≤ 1) →
    exec (.varintDec base avail) s = .next (s.setResponse (some (.error .truncated))))
  ∧ (∀ (s : State) (base avail : Addr), base.toNat + avail.toNat ≤ s.cfg.memSize.val → avail.toNat < 14 →
    exec (.hdrDes base avail) s = .next (s.setResponse (some (.error .truncated))))

/-- 41_varint R121: a padded form decodes to the same value, and its length is the bytes consumed. -/
def Obligations.PaddedVarintsDecodeToTheSameValue : Prop :=
  ∀ (s : State) (base avail : Addr) (v : BitVec 64) (pad : Nat),
    base.toNat + avail.toNat ≤ s.cfg.memSize.val → varintLen v.toNat + pad + 1 ≤ 10 →
    varintLen v.toNat + pad + 1 ≤ avail.toNat →
    HoldsBytes s.mem base.toNat ((varintBytes v).map (· ||| 0x80#8) ++ List.replicate pad 0x80#8 ++ [0x00#8]) →
    exec (.varintDec base avail) s = .next (s.setResponse
      (some (.ok (.varintDec v (BitVec.ofNat 64 (varintLen v.toNat + pad + 1))))))

/-! ## HDR_SER and HDR_DES -/

/-- 42_header R140, R141: `HDR_SER` writes the 14 bytes of the header at `base`, little-endian, as given, and returns
14. Nothing else changes. -/
def Obligations.HdrSerWritesTheHeader : Prop :=
  ∀ (s : State) (base cap : Addr) (h : FrameHeader),
    base.toNat + cap.toNat ≤ s.cfg.memSize.val → 14 ≤ cap.toNat →
    ∃ t, exec (.hdrSer base cap h) s = .next t ∧ t.response = some (.ok (.hdrSer 14))
      ∧ HoldsBytes t.mem base.toNat
        [BitVec.ofNat 8 h.magic.toNat, BitVec.ofNat 8 (h.magic.toNat / 2 ^ 8), h.version, h.flags,
          BitVec.ofNat 8 h.msgType.toNat, BitVec.ofNat 8 (h.msgType.toNat / 2 ^ 8),
          BitVec.ofNat 8 h.seq.toNat, BitVec.ofNat 8 (h.seq.toNat / 2 ^ 8),
          BitVec.ofNat 8 (h.seq.toNat / 2 ^ 16), BitVec.ofNat 8 (h.seq.toNat / 2 ^ 24),
          BitVec.ofNat 8 h.bodyLen.toNat, BitVec.ofNat 8 (h.bodyLen.toNat / 2 ^ 8),
          BitVec.ofNat 8 (h.bodyLen.toNat / 2 ^ 16), BitVec.ofNat 8 (h.bodyLen.toNat / 2 ^ 24)]
      ∧ SameOutside ⟨base.toNat, 14⟩ s.mem t.mem ∧ OnlyBlock s t

/-- 42_header R144 (e): repeating an `HDR_SER` with the same operands changes nothing. -/
def Obligations.HdrSerTwiceIsHdrSerOnce : Prop :=
  ∀ (s t : State) (base cap : Addr) (h : FrameHeader), Memory.wf s.mem →
    exec (.hdrSer base cap h) s = .next t → exec (.hdrSer base cap h) t = .next t

/-- 42_header R146, R147: with 14 bytes available, the right magic and a version not above `MAX_VERSION`, `HDR_DES`
returns the six fields, all of `flags` among them, and 14; it writes nothing. -/
def Obligations.HdrDesReturnsTheFields : Prop :=
  ∀ (s : State) (base avail : Addr) (b0 b1 b2 b3 b4 b5 b6 b7 b8 b9 b10 b11 b12 b13 : Byte),
    base.toNat + avail.toNat ≤ s.cfg.memSize.val → 14 ≤ avail.toNat →
    HoldsBytes s.mem base.toNat [b0, b1, b2, b3, b4, b5, b6, b7, b8, b9, b10, b11, b12, b13] →
    b0.toNat + 256 * b1.toNat = s.cfg.magic.toNat → b2.toNat ≤ s.cfg.maxVersion.toNat →
    exec (.hdrDes base avail) s = .next (s.setResponse (some (.ok (.hdrDes
      { magic := s.cfg.magic
        version := b2
        flags := b3
        msgType := BitVec.ofNat 16 (b4.toNat + 256 * b5.toNat)
        seq := BitVec.ofNat 32 (b6.toNat + 2 ^ 8 * b7.toNat + 2 ^ 16 * b8.toNat + 2 ^ 24 * b9.toNat)
        bodyLen := BitVec.ofNat 32 (b10.toNat + 2 ^ 8 * b11.toNat + 2 ^ 16 * b12.toNat + 2 ^ 24 * b13.toNat) }
      14))))

/-- 42_header R148: the priority of the three errors: a short window first, then a wrong magic, then a version above
`MAX_VERSION`. -/
def Obligations.HdrDesErrorPriority : Prop :=
  ∀ (s : State) (base avail : Addr), base.toNat + avail.toNat ≤ s.cfg.memSize.val →
    (avail.toNat < 14 → exec (.hdrDes base avail) s = .next (s.setResponse (some (.error .truncated))))
    ∧ (∀ bs : List Byte, bs.length = 14 → 14 ≤ avail.toNat → HoldsBytes s.mem base.toNat bs →
      (fromLE (bs.take 2) ≠ s.cfg.magic.toNat →
        exec (.hdrDes base avail) s = .next (s.setResponse (some (.error .invalidMagic))))
      ∧ (fromLE (bs.take 2) = s.cfg.magic.toNat → (∀ v, bs[2]? = some v → s.cfg.maxVersion.toNat < v.toNat) →
        exec (.hdrDes base avail) s = .next (s.setResponse (some (.error .unsupportedVersion)))))

/-- 42_header R151: both round trips of the header. -/
def Obligations.HeaderRoundTrips : Prop :=
  (∀ (s : State) (base cap avail : Addr) (h : FrameHeader),
    base.toNat + cap.toNat ≤ s.cfg.memSize.val → 14 ≤ cap.toNat →
    base.toNat + avail.toNat ≤ s.cfg.memSize.val → 14 ≤ avail.toNat →
    h.magic = s.cfg.magic → h.version.toNat ≤ s.cfg.maxVersion.toNat →
    ∃ t, exec (.hdrSer base cap h) s = .next t
      ∧ exec (.hdrDes base avail) t = .next (t.setResponse (some (.ok (.hdrDes h 14)))))
  ∧ (∀ (s t : State) (base avail cap : Addr) (h : FrameHeader) (n : BitVec 64),
    exec (.hdrDes base avail) s = .next t → t.response = some (.ok (.hdrDes h n)) →
    base.toNat + cap.toNat ≤ s.cfg.memSize.val → 14 ≤ cap.toNat →
    ∃ u, exec (.hdrSer base cap h) t = .next u ∧ ∀ a, memRead u.mem a = memRead s.mem a)

/-! ## All operations -/

/-- 10_state R20, 20_memory R46: what each operation changes: the response, and of `MEM` only the `n` bytes of a
varint or the 14 bytes of a header; the three reading operations write nothing. -/
def Obligations.OperationsChangeOnlyTheirOutput : Prop :=
  ∀ (i : Instr) (s t : State), exec i s = .next t → OnlyBlock s t ∧
    match i with
    | .crc32c _ _ => t.mem = s.mem
    | .varintEnc base _ value => SameOutside ⟨base.toNat, varintLen value.toNat⟩ s.mem t.mem
    | .varintDec _ _ => t.mem = s.mem
    | .hdrSer base _ _ => SameOutside ⟨base.toNat, 14⟩ s.mem t.mem
    | .hdrDes _ _ => t.mem = s.mem

/-- 60_exceptions R247: an operation that returns an error has written no byte of `MEM`; only the response changes. -/
def Obligations.ErrorsWriteNothing : Prop :=
  ∀ (i : Instr) (s t : State) (k : ErrorKind), exec i s = .next t → t.response = some (.error k) →
    t = s.setResponse (some (.error k))

/-- 30_encoding R65, R63; 60_exceptions R230: which errors each operation can return, the status of a response (0 exactly
for success, else the code of its error kind), the codes, and which errors the host's calls can return. (The two calls that
make an encoder or a decoder are not in R230's table: BeginReservesHeaderAndExtension says what they answer.) -/
def Obligations.EachOperationsErrors : Prop :=
  (∀ (i : Instr) (s t : State) (k : ErrorKind), exec i s = .next t → t.response = some (.error k) →
    match i with
    | .crc32c _ _ => False
    | .varintEnc _ _ _ => k = .bufferTooSmall
    | .varintDec _ _ => k = .truncated ∨ k = .overflow
    | .hdrSer _ _ _ => k = .bufferTooSmall
    | .hdrDes _ _ => k = .truncated ∨ k = .invalidMagic ∨ k = .unsupportedVersion)
  ∧ (∀ r : Response, r.status = 0x00#8 ↔ ∃ x, r = .ok x)
  ∧ (Response.error .bufferTooSmall).status = 0x01#8 ∧ (Response.error .truncated).status = 0x02#8
  ∧ (Response.error .invalidMagic).status = 0x03#8 ∧ (Response.error .unsupportedVersion).status = 0x04#8
  ∧ (Response.error .lengthMismatch).status = 0x05#8 ∧ (Response.error .checksumMismatch).status = 0x06#8
  ∧ (Response.error .fieldOrderViolation).status = 0x07#8 ∧ (Response.error .overflow).status = 0x08#8
  ∧ (Response.error .invalidState).status = 0x09#8
  ∧ (∀ (c : HostCall) (s t : State) (k : ErrorKind), runCall c s = .next t → t.callResult = some (.error k) →
    match c with
    | .openEncoder _ _ => True
    | .beginFrame _ _ => k = .invalidState ∨ k = .bufferTooSmall
    | .putFixed _ => k = .invalidState ∨ k = .fieldOrderViolation ∨ k = .bufferTooSmall
    | .putBitmap _ => k = .invalidState ∨ k = .fieldOrderViolation ∨ k = .bufferTooSmall
    | .putVarbytes _ => k = .invalidState ∨ k = .fieldOrderViolation ∨ k = .overflow ∨ k = .bufferTooSmall
    | .finishCrc32c => k = .invalidState ∨ k = .overflow ∨ k = .bufferTooSmall
    | .openDecoder _ _ => True
    | .readHeader => k = .invalidState ∨ k = .truncated ∨ k = .invalidMagic ∨ k = .unsupportedVersion
      ∨ k = .overflow ∨ k = .lengthMismatch
    | .verifyCrc32c => k = .invalidState ∨ k = .checksumMismatch
    | .openBody => k = .invalidState
    | .getFixed _ => k = .fieldOrderViolation ∨ k = .truncated
    | .getBitmap _ => k = .fieldOrderViolation ∨ k = .truncated
    | .getVarbytes => k = .fieldOrderViolation ∨ k = .truncated ∨ k = .overflow
    | .skipVarbytes => k = .fieldOrderViolation ∨ k = .truncated ∨ k = .overflow)

/-- 30_encoding R64: the result fields of each operation on success, with their ranges. -/
def Obligations.EachOperationsResultFields : Prop :=
  ∀ (i : Instr) (s t : State) (r : Result), exec i s = .next t → t.response = some (.ok r) →
    match i with
    | .crc32c _ _ => ∃ crc, r = .crc32c crc
    | .varintEnc _ _ _ => ∃ n, r = .varintEnc n ∧ 1 ≤ n.toNat ∧ n.toNat ≤ 10
    | .varintDec _ _ => ∃ value n, r = .varintDec value n ∧ 1 ≤ n.toNat ∧ n.toNat ≤ 10
    | .hdrSer _ _ _ => r = .hdrSer 14
    | .hdrDes _ _ => ∃ h, r = .hdrDes h 14

/-- 60_exceptions R241, 70_reset_and_hazards R275, R286: a command is answered unless its window is outside `MEM` or it
needs a byte of its window that nothing has written. Refusing the latter is what R275 asks of a model. -/
def Obligations.OnlyTwoReasonsToRefuseACommand : Prop :=
  ∀ (i : Instr) (s : State),
    (∃ t r, exec i s = .next t ∧ t.response = some r)
    ∨ (exec i s = .refused (.windowOutsideMem i.window) ∧ s.cfg.memSize.val < i.window.base + i.window.len)
    ∨ (∃ a, exec i s = .refused (.readUnwritten a) ∧ i.window.holds a = true ∧ memRead s.mem a = none)

/-- 70_reset_and_hazards R275 (and 93 U15): a reading operation that needs a byte nothing has written is refused, and
the refusal names such a byte; nothing is assumed of it. -/
def Obligations.ReadOfUnwrittenByteRefused : Prop :=
  ∀ (s : State) (base len : Addr), base.toNat + len.toNat ≤ s.cfg.memSize.val →
    ((∃ k, k < len.toNat ∧ memRead s.mem (base.toNat + k) = none) →
      ∃ a, exec (.crc32c base len) s = .refused (.readUnwritten a) ∧ memRead s.mem a = none)
    ∧ (∀ k, k < len.toNat → k < 10 → FirstContinue s.mem base.toNat k → memRead s.mem (base.toNat + k) = none →
      exec (.varintDec base len) s = .refused (.readUnwritten (base.toNat + k)))
    ∧ (14 ≤ len.toNat → (∃ k, k < 14 ∧ memRead s.mem (base.toNat + k) = none) →
      ∃ a, exec (.hdrDes base len) s = .refused (.readUnwritten a) ∧ memRead s.mem a = none)

/-- 10_state R22, R31, 20_memory R46: the response of an operation depends only on the command, the parameters and the
bytes of its window, and so does what it leaves in the window. -/
def Obligations.ResponseDependsOnlyOnTheWindow : Prop :=
  ∀ (i : Instr) (s s' t : State), s'.cfg = s.cfg → AgreeOn i.window s.mem s'.mem → exec i s = .next t →
    ∃ t', exec i s' = .next t' ∧ t'.response = t.response ∧ AgreeOn i.window t.mem t'.mem

/-! ## Exclusivity, reset, host accesses, the invariant -/

/-- 70_reset_and_hazards R277, 60_exceptions R241 (c): a write of a byte of the window, a read of a byte of the output
range, or a second command, before the response, refuses the run. -/
def Obligations.TouchedWindowRefused : Prop :=
  ∀ (s : State) (record : List Byte) (i : Instr) (during : List HostAccess) (rest : List Input),
    decode record = .ok (i, []) → s.inputs = .command record during :: rest →
    (∃ a ∈ during, (∃ b bs, a = .write b bs ∧ i.window.overlaps ⟨b, bs.length⟩ = true)
      ∨ (∃ w, a = .read w ∧ (outputRange i).overlaps w = true) ∨ (∃ r, a = .command r)) →
    ∃ r, step s = .refused r ∧ (r = .secondCommand ∨ ∃ a ∈ during, r = .windowTouched a)

/-- 20_memory R51, R52: a write by another agent outside the window during an operation has the effect it would have
had before the operation: the same response and the same bytes. The model makes such a write after the operation
(log 13, the model's choice); this says that the order cannot be observed. -/
def Obligations.WritesElsewhereCommuteWithTheOperation : Prop :=
  ∀ (s t : State) (record : List Byte) (i : Instr) (b : Nat) (bs : List Byte) (rest : List Input),
    decode record = .ok (i, []) → i.window.overlaps ⟨b, bs.length⟩ = false →
    s.inputs = .command record [.write b bs] :: rest → step s = .next t →
    ∃ u v, step (s.setInputs (.hostWrite b bs :: .command record [] :: rest)) = .next u ∧ step u = .next v
      ∧ v.response = t.response ∧ v.inputs = t.inputs ∧ ∀ a, memRead v.mem a = memRead t.mem a

/-- 10_state R20: the parameters are never written. -/
def Obligations.ParametersNeverWritten : Prop := ∀ s t : State, step s = .next t → t.cfg = s.cfg

/-- 10_state R27, R31; 48_frame_context R172, R197, R203: every step keeps the invariant: memory in canonical form and
inside `MEM`, the cursors of the host's objects inside their buffers and no wider than an address (10_state R23), and the
states no call enters not entered. That a finished header record counts the body is the model's choice (log 25). -/
def Obligations.EveryStepKeepsTheInvariant : Prop := ∀ s t : State, Inv s → step s = .next t → Inv t

/-- The invariant holds at reset (70_reset_and_hazards R270, R271; the host's part is the model's choice, log 14). -/
def Obligations.InvariantHoldsAtReset : Prop := Inv State.reset

/-- 10_state R32, 70_reset_and_hazards R270, R273: a reset between operations touches neither `MEM` nor the host's
state. -/
def Obligations.ResetTouchesNothing : Prop :=
  ∀ (s : State) (rest : List Input), s.inputs = .reset :: rest → step s = .next (s.setInputs rest)

/-- 70_reset_and_hazards R272: a reset that cuts a writing operation short: no response; the bytes of the output range
hold some value, nothing says which; the bytes outside it are unchanged. R272 speaks of writing operations only: that a
reading one cut short gives no response either, changes nothing, and is not refused for unwritten bytes is the model's
choice (log 12), and so is holding no response in `State.response` (log 6). -/
def Obligations.CutOperationIsConfined : Prop :=
  ∀ (s : State) (record : List Byte) (i : Instr) (rest : List Input),
    decode record = .ok (i, []) → i.window.base + i.window.len ≤ s.cfg.memSize.val →
    s.inputs = .cutByReset record :: rest →
    ∃ t, step s = .next t ∧ t.response = none ∧ SameOutside (outputRange i) s.mem t.mem
      ∧ (∀ a, (outputRange i).holds a = true → ∃ b, memRead t.mem a = some b)
      ∧ t.cfg = s.cfg ∧ t.inputs = rest ∧ t.encoder = s.encoder ∧ t.decoder = s.decoder
      ∧ t.callResult = s.callResult

/-- 20_memory R44, R45, R51: the host reads what it wrote, and a write changes no other byte. -/
def Obligations.HostReadsWhatItWrote : Prop :=
  ∀ (s : State) (b : Nat) (bs : List Byte) (rest : List Input), b + bs.length ≤ s.cfg.memSize.val →
    s.inputs = .hostWrite b bs :: .hostRead b bs.length :: rest →
    ∃ t u, step s = .next t ∧ step t = .next u ∧ u.callResult = some (.ok (.bytes bs)) ∧ u.inputs = rest
      ∧ SameOutside ⟨b, bs.length⟩ s.mem u.mem ∧ u.response = s.response ∧ u.encoder = s.encoder
      ∧ u.decoder = s.decoder

/-! ## The Frame Encoder and the Body Writer -/

/-- 48_frame_context R190: `InvalidState` for `begin` twice, `finish_crc32c` twice or before `begin`, and any `put_*`
before `begin` or after `finish_crc32c`. -/
def Obligations.EncoderStateErrors : Prop :=
  ∀ (s : State) (e : Encoder), s.encoder = some e →
    (e.state ≠ .created → ∀ h ext,
      runCall (.beginFrame h ext) s = .next (s.setCallResult (some (.error .invalidState))))
    ∧ (e.state ≠ .bodyInProgress →
      (∀ v, runCall (.putFixed v) s = .next (s.setCallResult (some (.error .invalidState))))
      ∧ (∀ b, runCall (.putBitmap b) s = .next (s.setCallResult (some (.error .invalidState))))
      ∧ (∀ src, runCall (.putVarbytes src) s = .next (s.setCallResult (some (.error .invalidState))))
      ∧ runCall .finishCrc32c s = .next (s.setCallResult (some (.error .invalidState))))

/-- 48_frame_context R182: the table of calls and states: the cells that are violations fail with
`FieldOrderViolation`, the others never do, and a call that succeeds leaves the writer in the state of its cell. -/
def Obligations.WriterOrderFollowsTheTable : Prop :=
  ∀ (s : State) (e : Encoder), s.encoder = some e → e.state = .bodyInProgress →
    (e.writer.state ≠ .writingFixed →
      (∀ v, runCall (.putFixed v) s = .next (s.setCallResult (some (.error .fieldOrderViolation))))
      ∧ (∀ b, runCall (.putBitmap b) s = .next (s.setCallResult (some (.error .fieldOrderViolation)))))
    ∧ (e.writer.state = .closed ∨ (e.writer.state = .writingFixed ∧ e.writer.cursor ≠ e.writer.bodyStart) →
      ∀ src, runCall (.putVarbytes src) s = .next (s.setCallResult (some (.error .fieldOrderViolation))))
    ∧ (∀ c t, (e.writer.state = .writingFixed ∧ ((∃ v, c = .putFixed v) ∨ ∃ b, c = .putBitmap b))
        ∨ ((e.writer.state = .bitmapWritten ∨ e.writer.state = .writingVariable
            ∨ (e.writer.state = .writingFixed ∧ e.writer.cursor = e.writer.bodyStart)) ∧ ∃ src, c = .putVarbytes src) →
      runCall c s = .next t → t.callResult ≠ some (.error .fieldOrderViolation))
    ∧ (∀ c t v, runCall c s = .next t → t.callResult = some (.ok v) → ∃ e', t.encoder = some e'
      ∧ ((∃ v, c = .putFixed v) → e'.writer.state = .writingFixed)
      ∧ ((∃ b, c = .putBitmap b) → e'.writer.state = .bitmapWritten)
      ∧ ((∃ src, c = .putVarbytes src) → e'.writer.state = .writingVariable))

/-- 48_frame_context R181, R183, R196: an encoder or a decoder made over a buffer inside `MEM` is in Created over it, the
writer in WritingFixed at its start, and making it writes nothing; a buffer that does not end at an address of 64 bits is
`Overflow` (10_state R23, R184). That calls named `openEncoder` and `openDecoder` make them and check this is the model's
choice (logs 14, 26). R185: `begin` reserves the header with the core's magic and a zero length, writes the extension
region if flagged, and exposes a Body Writer on the rest; it needs its whole space before it writes anything. The encoder's
record is the header reserved (log 25). -/
def Obligations.BeginReservesHeaderAndExtension : Prop :=
  (∀ (s : State) (base cap : Addr), base.toNat + cap.toNat ≤ s.cfg.memSize.val →
    (base.toNat + cap.toNat < 2 ^ 64 →
      ∃ t e, runCall (.openEncoder base cap) s = .next t ∧ t.callResult = some (.ok .unit) ∧ t.encoder = some e
        ∧ e.state = .created ∧ e.base = base.toNat ∧ e.cap = cap.toNat
        ∧ e.writer.state = .writingFixed ∧ e.writer.cursor = e.writer.bodyStart
        ∧ e.writer.limit = base.toNat + cap.toNat ∧ t.mem = s.mem ∧ OnlyEncoder s t)
    ∧ (base.toNat + cap.toNat < 2 ^ 64 →
      ∃ t d, runCall (.openDecoder base cap) s = .next t ∧ t = (s.setDecoder (some d)).setCallResult (some (.ok .unit))
        ∧ d.state = .created ∧ d.base = base.toNat ∧ d.len = cap.toNat)
    ∧ (2 ^ 64 ≤ base.toNat + cap.toNat →
      runCall (.openEncoder base cap) s = .next (s.setCallResult (some (.error .overflow)))
      ∧ runCall (.openDecoder base cap) s = .next (s.setCallResult (some (.error .overflow)))))
  ∧ ∀ (s : State) (e : Encoder) (h : FrameHeader) (ext : List Byte) (extSize : Nat), s.encoder = some e →
    extSize = (if h.flags.getLsbD 0 then varintLen ext.length + ext.length else 0) →
    (e.state ≠ .created →
      runCall (.beginFrame h ext) s = .next (s.setCallResult (some (.error .invalidState))))
    ∧ (e.state = .created → e.cap < 14 + extSize →
      runCall (.beginFrame h ext) s = .next (s.setCallResult (some (.error .bufferTooSmall))))
    ∧ (e.state = .created → 14 + extSize ≤ e.cap → e.base + e.cap ≤ s.cfg.memSize.val →
      ∃ t, runCall (.beginFrame h ext) s = .next t ∧ t.callResult = some (.ok .unit)
        ∧ t.encoder = some { e with
            state := .bodyInProgress
            header := { h with magic := s.cfg.magic, bodyLen := 0 }
            extSize := extSize
            writer := ⟨.writingFixed, e.base + 14 + extSize, e.base + 14 + extSize, e.base + e.cap⟩ }
        ∧ HoldsBytes t.mem e.base (headerBytes { h with magic := s.cfg.magic, bodyLen := 0 })
        ∧ (h.flags.getLsbD 0 = true →
          HoldsBytes t.mem (e.base + 14) (varintBytes (BitVec.ofNat 64 ext.length) ++ ext))
        ∧ SameOutside ⟨e.base, 14 + extSize⟩ s.mem t.mem ∧ OnlyEncoder s t)

/-- 48_frame_context R186, R188: `put_<fixed-type>` and `put_bitmap` write the value's bytes at the cursor and advance
it by their width, or fail with `BufferTooSmall`. -/
def Obligations.PutFixedAndBitmapWriteAtTheCursor : Prop :=
  ∀ (s : State) (e : Encoder), s.encoder = some e → e.state = .bodyInProgress → e.writer.state = .writingFixed →
    (∀ v, e.writer.limit - e.writer.cursor < v.type.width →
      runCall (.putFixed v) s = .next (s.setCallResult (some (.error .bufferTooSmall))))
    ∧ (∀ v, v.type.width ≤ e.writer.limit - e.writer.cursor →
      ∃ t, runCall (.putFixed v) s = .next t ∧ t.callResult = some (.ok .unit)
        ∧ t.encoder = some { e with writer := { e.writer with cursor := e.writer.cursor + v.type.width } }
        ∧ HoldsBytes t.mem e.writer.cursor
          (leBytes v.type.width (v.int % 2 ^ (8 * v.type.width)).toNat)
        ∧ SameOutside ⟨e.writer.cursor, v.type.width⟩ s.mem t.mem ∧ OnlyEncoder s t)
    ∧ (∀ b, e.writer.limit - e.writer.cursor < b.width.bytes →
      runCall (.putBitmap b) s = .next (s.setCallResult (some (.error .bufferTooSmall))))
    ∧ (∀ b, b.width.bytes ≤ e.writer.limit - e.writer.cursor →
      ∃ t, runCall (.putBitmap b) s = .next t ∧ t.callResult = some (.ok .unit)
        ∧ t.encoder = some { e with
            writer := { e.writer with state := .bitmapWritten, cursor := e.writer.cursor + b.width.bytes } }
        ∧ HoldsBytes t.mem e.writer.cursor (leBytes b.width.bytes b.value)
        ∧ SameOutside ⟨e.writer.cursor, b.width.bytes⟩ s.mem t.mem ∧ OnlyEncoder s t)

/-- 48_frame_context R187: `put_varbytes` writes `varint(len) || bytes`, after the checks of magnitude and space. The
source, which may lie in `MEM`, must not overlap the destination: after those checks the call is refused
(91_not_in_source N28, 93 U17; that a source can be a window of `MEM` is the model's choice, log 16). -/
def Obligations.PutVarbytesWritesLengthAndBytes : Prop :=
  ∀ (s : State) (e : Encoder) (src : VarSource), s.encoder = some e → e.state = .bodyInProgress →
    e.writer.state = .bitmapWritten ∨ e.writer.state = .writingVariable
      ∨ (e.writer.state = .writingFixed ∧ e.writer.cursor = e.writer.bodyStart) →
    (s.cfg.maxVarbytesLen.toNat < src.length →
      runCall (.putVarbytes src) s = .next (s.setCallResult (some (.error .overflow))))
    ∧ (src.length ≤ s.cfg.maxVarbytesLen.toNat →
      e.writer.limit - e.writer.cursor < varintLen src.length + src.length →
      runCall (.putVarbytes src) s = .next (s.setCallResult (some (.error .bufferTooSmall))))
    ∧ (∀ w : Window, src = .window w → w.len ≤ s.cfg.maxVarbytesLen.toNat →
      varintLen w.len + w.len ≤ e.writer.limit - e.writer.cursor → w.base + w.len ≤ s.cfg.memSize.val →
      (⟨e.writer.cursor, varintLen w.len + w.len⟩ : Window).overlaps w = true →
      runCall (.putVarbytes src) s = .refused .sourceOverlapsDestination)
    ∧ (∀ bs : List Byte, bs.length ≤ s.cfg.maxVarbytesLen.toNat →
      varintLen bs.length + bs.length ≤ e.writer.limit - e.writer.cursor →
      e.writer.limit ≤ s.cfg.memSize.val →
      SourceGives s.cfg s.mem ⟨e.writer.cursor, varintLen bs.length + bs.length⟩ bs src →
      ∃ t, runCall (.putVarbytes src) s = .next t ∧ t.callResult = some (.ok .unit)
        ∧ t.encoder = some { e with writer := { e.writer with
            state := .writingVariable
            cursor := e.writer.cursor + (varintLen bs.length + bs.length) } }
        ∧ HoldsBytes t.mem e.writer.cursor (varintBytes (BitVec.ofNat 64 bs.length) ++ bs)
        ∧ SameOutside ⟨e.writer.cursor, varintLen bs.length + bs.length⟩ s.mem t.mem ∧ OnlyEncoder s t)

/-- 48_frame_context R189: `finish_crc32c` back-patches `body_len`, sums the canonical span with the length in it,
appends the trailer little-endian, and returns the frame's length; or fails with `Overflow` or `BufferTooSmall` and
changes nothing. That the encoder's record takes the length too is the model's choice (log 25). -/
def Obligations.FinishBackPatchesThenSums : Prop :=
  ∀ (s : State) (e : Encoder), s.encoder = some e → EncoderOk s.cfg e → e.state = .bodyInProgress →
    (2 ^ 32 - 1 < e.writer.cursor - e.writer.bodyStart →
      runCall .finishCrc32c s = .next (s.setCallResult (some (.error .overflow))))
    ∧ (e.writer.cursor - e.writer.bodyStart ≤ 2 ^ 32 - 1 → e.writer.limit - e.writer.cursor < 4 →
      runCall .finishCrc32c s = .next (s.setCallResult (some (.error .bufferTooSmall))))
    ∧ (∀ span patched : List Byte, e.writer.cursor - e.writer.bodyStart ≤ 2 ^ 32 - 1 →
      4 ≤ e.writer.limit - e.writer.cursor → span.length = e.writer.cursor - e.base →
      HoldsBytes s.mem e.base span →
      patched = span.take 10 ++ leBytes 4 (e.writer.cursor - e.writer.bodyStart) ++ span.drop 14 →
      ∃ t, runCall .finishCrc32c s = .next t
        ∧ t.callResult = some (.ok (.frameLength (e.writer.cursor + 4 - e.base)))
        ∧ t.encoder = some { e with
            state := .finished
            header := { e.header with bodyLen := BitVec.ofNat 32 (e.writer.cursor - e.writer.bodyStart) }
            writer := { e.writer with state := .closed } }
        ∧ HoldsBytes t.mem e.base (patched ++ leBytes 4 (crc32c patched).toNat)
        ∧ SameOutside ⟨e.base, e.writer.cursor + 4 - e.base⟩ s.mem t.mem ∧ OnlyEncoder s t)

/-- 48_frame_context R195: a host call that fails leaves the buffer, the cursors and the state enums as they were. -/
def Obligations.FailedHostCallsChangeNothing : Prop :=
  ∀ (c : HostCall) (s t : State) (k : ErrorKind), runCall c s = .next t → t.callResult = some (.error k) →
    t = s.setCallResult (some (.error k))

/-- 48_frame_context R180: fixed fields and bitmaps read back as written; a signed value is the two's complement of its
pattern. -/
def Obligations.FixedFieldsReadBackAsWritten : Prop :=
  (∀ v : FixedValue, (fixedBytes v).length = v.type.width ∧ fixedOf v.type (fixedBytes v) = v
    ∧ v.int = (if (v.type = .i8 ∨ v.type = .i16 ∨ v.type = .i32 ∨ v.type = .i64)
          ∧ 2 ^ (8 * v.type.width - 1) ≤ fromLE (fixedBytes v)
        then (fromLE (fixedBytes v) : Int) - 2 ^ (8 * v.type.width) else (fromLE (fixedBytes v) : Int)))
  ∧ (∀ b : Bitmap, (bitmapBytes b).length = b.width.bytes ∧ bitmapOf b.width (bitmapBytes b) = b
    ∧ fromLE (bitmapBytes b) = b.value)

/-! ## The Frame Decoder and the Body Reader -/

/-- 48_frame_context R197: `header()` reads the header and, if flagged, the extension length, checks that the buffer
holds the whole frame, and returns the header and the extension view; errors of the block's operations are its own. -/
def Obligations.HeaderCallLocatesTheFrame : Prop :=
  ∀ (s : State) (d : Decoder), s.decoder = some d → d.base + d.len ≤ s.cfg.memSize.val →
    (d.state ≠ .created → runCall .readHeader s = .next (s.setCallResult (some (.error .invalidState))))
    ∧ (∀ k, d.state = .created → opHdrDes s.cfg s.mem d.base d.len = .error k →
      runCall .readHeader s = .next (s.setCallResult (some (.error k))))
    ∧ (∀ (bs : List Byte) (h : FrameHeader), d.state = .created → 14 ≤ d.len → bs.length = 14 →
      HoldsBytes s.mem d.base bs → h = headerOf bs → h.magic = s.cfg.magic →
      h.version.toNat ≤ s.cfg.maxVersion.toNat →
      (∀ k, h.flags.getLsbD 0 = true → opVarintDec s.cfg s.mem (d.base + 14) (d.len - 14) = .error k →
        runCall .readHeader s = .next (s.setCallResult (some (.error k))))
      ∧ (h.flags.getLsbD 0 = false →
        (d.len < 14 + h.bodyLen.toNat + 4 →
          runCall .readHeader s = .next (s.setCallResult (some (.error .lengthMismatch))))
        ∧ (14 + h.bodyLen.toNat + 4 ≤ d.len →
          runCall .readHeader s = .next ((s.setDecoder (some { d with
            state := .headerRead, header := h, extSize := 0, bodyLen := h.bodyLen.toNat })).setCallResult
              (some (.ok (.header h none))))))
      ∧ (∀ vs : List Byte, h.flags.getLsbD 0 = true → IsVarint vs → vs.length ≤ d.len - 14 →
        HoldsBytes s.mem (d.base + 14) vs →
        (d.len < 14 + (vs.length + varintNumber vs) + h.bodyLen.toNat + 4 →
          runCall .readHeader s = .next (s.setCallResult (some (.error .lengthMismatch))))
        ∧ (14 + (vs.length + varintNumber vs) + h.bodyLen.toNat + 4 ≤ d.len →
          runCall .readHeader s = .next ((s.setDecoder (some { d with
            state := .headerRead
            header := h
            extSize := vs.length + varintNumber vs
            bodyLen := h.bodyLen.toNat })).setCallResult
              (some (.ok (.header h (some ⟨d.base + 14 + vs.length, varintNumber vs⟩))))))))

/-- 48_frame_context R199: `verify_crc32c` compares the CRC of the canonical span with the stored trailer; on a
mismatch the decoder stays in HeaderRead. -/
def Obligations.VerifyComparesChecksumAndTrailer : Prop :=
  ∀ (s : State) (d : Decoder) (span trailer : List Byte), s.decoder = some d →
    (d.state ≠ .headerRead → runCall .verifyCrc32c s = .next (s.setCallResult (some (.error .invalidState))))
    ∧ (d.state = .headerRead → span.length = 14 + d.extSize + d.bodyLen → trailer.length = 4 →
      d.base + span.length ≤ s.cfg.memSize.val → HoldsBytes s.mem d.base span →
      HoldsBytes s.mem (d.base + span.length) trailer →
      (trailer = leBytes 4 (crc32c span).toNat →
        runCall .verifyCrc32c s = .next ((s.setDecoder (some { d with state := .checksumVerified })).setCallResult
          (some (.ok .unit))))
      ∧ (trailer ≠ leBytes 4 (crc32c span).toNat →
        runCall .verifyCrc32c s = .next (s.setCallResult (some (.error .checksumMismatch)))))

/-- 48_frame_context R200, R201: the decoder's state errors, and `body()` after a successful verification. -/
def Obligations.DecoderStateErrors : Prop :=
  ∀ (s : State) (d : Decoder), s.decoder = some d →
    (d.state ≠ .created → runCall .readHeader s = .next (s.setCallResult (some (.error .invalidState))))
    ∧ (d.state ≠ .headerRead → runCall .verifyCrc32c s = .next (s.setCallResult (some (.error .invalidState))))
    ∧ (d.state ≠ .checksumVerified → runCall .openBody s = .next (s.setCallResult (some (.error .invalidState))))
    ∧ (d.state = .checksumVerified → runCall .openBody s = .next ((s.setDecoder (some { d with
        state := .bodyInProgress
        reader := ⟨.readingFixed, d.base + 14 + d.extSize, d.base + 14 + d.extSize,
          d.base + 14 + d.extSize + d.bodyLen⟩ })).setCallResult (some (.ok .unit))))

/-- 48_frame_context R196, R199, R200; 70_reset_and_hazards R278: whatever step is taken, a decoder newly in
ChecksumVerified has a span whose CRC is its trailer, and one newly in BodyInProgress was verified, over the same
buffer, header and region, and its reader stands on exactly the body of that frame; later calls keep all of this. -/
def Obligations.BodyOnlyAfterVerification : Prop :=
  ∀ (s t : State) (d' : Decoder), step s = .next t → t.decoder = some d' →
    (d'.state = .checksumVerified → s.decoder = some d' ∨ ∃ d span, s.decoder = some d ∧ d.state = .headerRead
      ∧ d' = { d with state := .checksumVerified } ∧ span.length = 14 + d.extSize + d.bodyLen
      ∧ HoldsBytes s.mem d.base span
      ∧ HoldsBytes s.mem (d.base + span.length) (leBytes 4 (crc32c span).toNat))
    ∧ (d'.state = .bodyInProgress →
      ∃ d, s.decoder = some d ∧ d'.base = d.base ∧ d'.len = d.len ∧ d'.header = d.header
        ∧ d'.extSize = d.extSize ∧ d'.bodyLen = d.bodyLen
        ∧ ((d.state = .bodyInProgress ∧ d'.reader.bodyStart = d.reader.bodyStart
            ∧ d'.reader.bodyEnd = d.reader.bodyEnd)
          ∨ (d.state = .checksumVerified ∧ d'.reader = ⟨.readingFixed, d.base + 14 + d.extSize,
            d.base + 14 + d.extSize, d.base + 14 + d.extSize + d.bodyLen⟩)))

/-- 48_frame_context R182, R191, R192, R194: the reader's ordering table, mirrored from the writer's: the cells that are
violations fail with `FieldOrderViolation`, the others never do, and a call that succeeds leaves the reader in the state
of its cell. -/
def Obligations.ReaderOrderMirrorsTheWriter : Prop :=
  ∀ (s : State) (d : Decoder), s.decoder = some d → d.state = .bodyInProgress →
    (d.reader.state ≠ .readingFixed →
      (∀ ty, runCall (.getFixed ty) s = .next (s.setCallResult (some (.error .fieldOrderViolation))))
      ∧ (∀ w, runCall (.getBitmap w) s = .next (s.setCallResult (some (.error .fieldOrderViolation)))))
    ∧ (d.reader.state = .closed ∨ (d.reader.state = .readingFixed ∧ d.reader.cursor ≠ d.reader.bodyStart) →
      runCall .getVarbytes s = .next (s.setCallResult (some (.error .fieldOrderViolation)))
      ∧ runCall .skipVarbytes s = .next (s.setCallResult (some (.error .fieldOrderViolation))))
    ∧ (∀ c t, (d.reader.state = .readingFixed ∧ ((∃ ty, c = .getFixed ty) ∨ ∃ w, c = .getBitmap w))
        ∨ ((d.reader.state = .bitmapRead ∨ d.reader.state = .readingVariable
            ∨ (d.reader.state = .readingFixed ∧ d.reader.cursor = d.reader.bodyStart))
          ∧ (c = .getVarbytes ∨ c = .skipVarbytes)) →
      runCall c s = .next t → t.callResult ≠ some (.error .fieldOrderViolation))
    ∧ (∀ c t v, runCall c s = .next t → t.callResult = some (.ok v) → ∃ d', t.decoder = some d'
      ∧ ((∃ ty, c = .getFixed ty) → d'.reader.state = .readingFixed)
      ∧ ((∃ w, c = .getBitmap w) → d'.reader.state = .bitmapRead)
      ∧ (c = .getVarbytes ∨ c = .skipVarbytes → d'.reader.state = .readingVariable))

/-- 48_frame_context R191, R192: `get_<fixed-type>` and `get_bitmap` return the value of the bytes at the cursor and
advance it, or fail with `Truncated`. -/
def Obligations.ReaderReadsFixedFieldsAndBitmap : Prop :=
  ∀ (s : State) (d : Decoder), s.decoder = some d → d.state = .bodyInProgress → d.reader.state = .readingFixed →
    (∀ ty, d.reader.bodyEnd - d.reader.cursor < ty.width →
      runCall (.getFixed ty) s = .next (s.setCallResult (some (.error .truncated))))
    ∧ (∀ (ty : FixedType) (bs : List Byte), bs.length = ty.width → ty.width ≤ d.reader.bodyEnd - d.reader.cursor →
      HoldsBytes s.mem d.reader.cursor bs →
      runCall (.getFixed ty) s = .next ((s.setDecoder (some { d with
        reader := { d.reader with cursor := d.reader.cursor + ty.width } })).setCallResult
          (some (.ok (.fixed (fixedOf ty bs))))))
    ∧ (∀ w, d.reader.bodyEnd - d.reader.cursor < w.bytes →
      runCall (.getBitmap w) s = .next (s.setCallResult (some (.error .truncated))))
    ∧ (∀ (w : BitmapWidth) (bs : List Byte), bs.length = w.bytes → w.bytes ≤ d.reader.bodyEnd - d.reader.cursor →
      HoldsBytes s.mem d.reader.cursor bs →
      runCall (.getBitmap w) s = .next ((s.setDecoder (some { d with
        reader := { d.reader with state := .bitmapRead, cursor := d.reader.cursor + w.bytes } })).setCallResult
          (some (.ok (.bitmap (bitmapOf w bs))))))

/-- 48_frame_context R193, R194: `get_varbytes` returns the view that follows the length varint, `skip_varbytes` moves
past it without returning it; a declared length beyond what remains is `Truncated`. An error of the length varint
(`Truncated` or `Overflow`) is the call's own and changes nothing, and with no byte left it is `Truncated` (R205). -/
def Obligations.VarbytesAreReturnedAsViews : Prop :=
  ∀ (s : State) (d : Decoder), s.decoder = some d → d.state = .bodyInProgress →
    d.reader.state = .bitmapRead ∨ d.reader.state = .readingVariable
      ∨ (d.reader.state = .readingFixed ∧ d.reader.cursor = d.reader.bodyStart) →
    (∀ k, opVarintDec s.cfg s.mem d.reader.cursor (d.reader.bodyEnd - d.reader.cursor) = .error k →
      (k = .truncated ∨ k = .overflow)
      ∧ runCall .getVarbytes s = .next (s.setCallResult (some (.error k)))
      ∧ runCall .skipVarbytes s = .next (s.setCallResult (some (.error k))))
    ∧ (d.reader.cursor = d.reader.bodyEnd → d.reader.bodyEnd ≤ s.cfg.memSize.val →
      runCall .getVarbytes s = .next (s.setCallResult (some (.error .truncated)))
      ∧ runCall .skipVarbytes s = .next (s.setCallResult (some (.error .truncated))))
    ∧ ∀ vs : List Byte,
    d.reader.cursor ≤ d.reader.bodyEnd → d.reader.bodyEnd ≤ s.cfg.memSize.val → IsVarint vs →
    vs.length ≤ d.reader.bodyEnd - d.reader.cursor → HoldsBytes s.mem d.reader.cursor vs →
    (d.reader.bodyEnd - d.reader.cursor < vs.length + varintNumber vs →
      runCall .getVarbytes s = .next (s.setCallResult (some (.error .truncated)))
      ∧ runCall .skipVarbytes s = .next (s.setCallResult (some (.error .truncated))))
    ∧ (vs.length + varintNumber vs ≤ d.reader.bodyEnd - d.reader.cursor → ∃ d', d' = { d with reader := { d.reader with
          state := .readingVariable, cursor := d.reader.cursor + (vs.length + varintNumber vs) } }
      ∧ runCall .getVarbytes s = .next ((s.setDecoder (some d')).setCallResult
          (some (.ok (.view ⟨d.reader.cursor + vs.length, varintNumber vs⟩))))
      ∧ runCall .skipVarbytes s = .next ((s.setDecoder (some d')).setCallResult (some (.ok .unit))))

/-- 48_frame_context R209: `header()` on a proper prefix of a frame: `Truncated` below 14 bytes or inside the extension
length varint, `LengthMismatch` otherwise. -/
def Obligations.TruncatedFramesAreRejected : Prop :=
  ∀ (s : State) (d : Decoder) (bs vs : List Byte) (h : FrameHeader) (total : Nat),
    s.decoder = some d → d.state = .created → d.base + d.len ≤ s.cfg.memSize.val → bs.length = 14 →
    HoldsBytes s.mem d.base bs → h = headerOf bs → h.magic = s.cfg.magic →
    h.version.toNat ≤ s.cfg.maxVersion.toNat →
    (h.flags.getLsbD 0 = false ∧ vs = [] ∧ total = 14 + h.bodyLen.toNat + 4)
      ∨ (h.flags.getLsbD 0 = true ∧ IsVarint vs ∧ HoldsBytes s.mem (d.base + 14) vs
        ∧ total = 14 + (vs.length + varintNumber vs) + h.bodyLen.toNat + 4) →
    d.len < total →
    (d.len < 14 + vs.length →
      runCall .readHeader s = .next (s.setCallResult (some (.error .truncated))))
    ∧ (14 + vs.length ≤ d.len →
      runCall .readHeader s = .next (s.setCallResult (some (.error .lengthMismatch))))

/-- 48_frame_context R172, R196, R207; 40_crc32c R97: a frame that `finish_crc32c` has finished is accepted: a decoder
made over it (by `openDecoder`, the model's name, log 14) is in Created, reads the header with the body length written,
verifies, and opens a reader on exactly the body bytes. -/
def Obligations.FinishedFramesDecode : Prop :=
  ∀ (s : State) (e : Encoder) (span : List Byte) (n : Nat), s.encoder = some e → EncoderOk s.cfg e →
    e.state = .bodyInProgress → e.writer.cursor - e.writer.bodyStart ≤ 2 ^ 32 - 1 →
    4 ≤ e.writer.limit - e.writer.cursor → span.length = e.writer.cursor - e.base → HoldsBytes s.mem e.base span →
    headerOf (span.take 14) = e.header → e.header.version.toNat ≤ s.cfg.maxVersion.toNat →
    (e.header.flags.getLsbD 0 = false ∨ ∃ vs, IsVarint vs ∧ vs.length + varintNumber vs = e.extSize
      ∧ HoldsBytes s.mem (e.base + 14) vs) →
    n = e.writer.cursor + 4 - e.base →
    ∃ t t1 t2 t3 t4 view d, runCall .finishCrc32c s = .next t
      ∧ t.callResult = some (.ok (.frameLength n))
      ∧ runCall (.openDecoder (BitVec.ofNat 64 e.base) (BitVec.ofNat 64 n)) t = .next t1
      ∧ (∃ d1, t1.decoder = some d1 ∧ d1.state = .created ∧ d1.base = e.base ∧ d1.len = n)
      ∧ runCall .readHeader t1 = .next t2
      ∧ t2.callResult = some (.ok (.header
          { e.header with bodyLen := BitVec.ofNat 32 (e.writer.cursor - e.writer.bodyStart) } view))
      ∧ runCall .verifyCrc32c t2 = .next t3 ∧ t3.callResult = some (.ok .unit)
      ∧ runCall .openBody t3 = .next t4 ∧ t4.callResult = some (.ok .unit)
      ∧ t4.decoder = some d ∧ d.reader.bodyStart = e.writer.bodyStart ∧ d.reader.bodyEnd = e.writer.cursor
      ∧ t4.mem = t.mem
end

