-- ==== Sys2Proof/Laws/Memory.lean ====
section
/-! SUPPORT. The laws of memory: read after write, what a write leaves alone, and that every memory operation keeps the
canonical form (20_memory R44, R45). -/

namespace Sys2Proof.Machine

@[simp] theorem memRead_nil (x : Nat) : memRead [] x = none := rfl

theorem memRead_cons (a : Nat) (b : Byte) (m : Memory) (x : Nat) :
    memRead ((a, b) :: m) x = if a = x then some b else memRead m x := rfl

/-- A read after a write to the same address gives the byte written. -/
@[simp] theorem memRead_memWrite_self (m : Memory) (x : Nat) (v : Byte) : memRead (memWrite m x v) x = some v := by
  induction m with
  | nil => simp [memWrite, memRead]
  | cons c m ih =>
    obtain ⟨a, b⟩ := c
    simp only [memWrite]
    split
    · simp [memRead]
    · split
      · simp [memRead]
      · have : a ≠ x := by omega
        simp [memRead, this, ih]

/-- A write leaves every other address alone. -/
theorem memRead_memWrite_ne (m : Memory) {x y : Nat} (v : Byte) (h : y ≠ x) :
    memRead (memWrite m x v) y = memRead m y := by
  induction m with
  | nil => simp [memWrite, memRead, h.symm]
  | cons c m ih =>
    obtain ⟨a, b⟩ := c
    simp only [memWrite]
    split
    · simp [memRead, h.symm]
    · split
      · next hx => subst hx; simp [memRead, h.symm]
      · simp [memRead, ih]

/-- The addresses listed after a write are the one written and those listed before. -/
theorem mem_memWrite {m : Memory} {x : Nat} {v : Byte} {c : Host.Cell} (h : c ∈ memWrite m x v) :
    c = (x, v) ∨ c ∈ m := by
  induction m with
  | nil => simpa [memWrite] using h
  | cons d m ih =>
    obtain ⟨a, b⟩ := d
    simp only [memWrite] at h
    split at h
    · simpa using h
    · split at h
      · simp only [List.mem_cons] at h ⊢
        rcases h with h | h
        · exact .inl h
        · exact .inr (.inr h)
      · simp only [List.mem_cons] at h ⊢
        rcases h with h | h
        · exact .inr (.inl h)
        · rcases ih h with h | h
          · exact .inl h
          · exact .inr (.inr h)

/-- A write keeps the canonical form. -/
theorem memWrite_wf {m : Memory} (h : Memory.wf m) (x : Nat) (v : Byte) : Memory.wf (memWrite m x v) := by
  induction m with
  | nil => simp [Memory.wf, memWrite]
  | cons c m ih =>
    obtain ⟨a, b⟩ := c
    have hc := List.pairwise_cons.1 h
    simp only [memWrite]
    split
    · next hx =>
      refine List.pairwise_cons.2 ⟨fun d hd => ?_, h⟩
      rcases List.mem_cons.1 hd with rfl | hd
      · exact hx
      · exact lt_trans hx (hc.1 d hd)
    · split
      · next hx =>
        subst hx
        exact List.pairwise_cons.2 ⟨fun d hd => hc.1 d hd, hc.2⟩
      · next h1 h2 =>
        refine List.pairwise_cons.2 ⟨fun d hd => ?_, ih hc.2⟩
        rcases mem_memWrite hd with rfl | hd
        · show a < x
          omega
        · exact hc.1 d hd

/-- A write inside `MEM` keeps every written byte inside `MEM`. -/
theorem memWrite_inside {p : Parameters} {m : Memory} (h : Memory.inside p m) {x : Nat} (hx : x < p.memSize.val)
    (v : Byte) : Memory.inside p (memWrite m x v) := by
  intro c hc
  rcases mem_memWrite hc with rfl | hc
  · exact hx
  · exact h c hc

@[simp] theorem writeBytes_nil (m : Memory) (addr : Nat) : writeBytes m addr [] = m := rfl

theorem writeBytes_cons (m : Memory) (addr : Nat) (b : Byte) (bs : List Byte) :
    writeBytes m addr (b :: bs) = writeBytes (memWrite m addr b) (addr + 1) bs := rfl

/-- Writing two strings after one another is writing them as one. -/
theorem writeBytes_append (m : Memory) (addr : Nat) (s t : List Byte) :
    writeBytes m addr (s ++ t) = writeBytes (writeBytes m addr s) (addr + s.length) t := by
  induction s generalizing m addr with
  | nil => simp
  | cons b s ih =>
    simp only [List.cons_append, writeBytes_cons, ih, List.length_cons]
    congr 1
    omega

/-- A byte outside the range written reads as before. -/
theorem memRead_writeBytes_outside (m : Memory) (addr : Nat) (s : List Byte) {a : Nat}
    (h : a < addr ∨ addr + s.length ≤ a) : memRead (writeBytes m addr s) a = memRead m a := by
  induction s generalizing m addr with
  | nil => rfl
  | cons b s ih =>
    simp only [List.length_cons] at h
    rw [writeBytes_cons, ih _ _ (by omega), memRead_memWrite_ne _ _ (by omega)]

/-- The range written holds the bytes written. -/
theorem holdsBytes_writeBytes (m : Memory) (addr : Nat) (s : List Byte) :
    HoldsBytes (writeBytes m addr s) addr s := by
  induction s generalizing m addr with
  | nil => intro k hk; simp at hk
  | cons b s ih =>
    intro k hk
    rw [writeBytes_cons]
    cases k with
    | zero => simp [memRead_writeBytes_outside]
    | succ k =>
      have := ih (memWrite m addr b) (addr + 1) k (by simpa using hk)
      rw [show addr + (k + 1) = addr + 1 + k by omega]
      simpa using this

/-- The address is in the window. -/
theorem Window.holds_iff (w : Window) (a : Nat) : w.holds a = true ↔ w.base ≤ a ∧ a < w.base + w.len := by
  simp [Window.holds]

/-- The address is not in the window. -/
theorem Window.holds_eq_false (w : Window) (a : Nat) :
    w.holds a = false ↔ a < w.base ∨ w.base + w.len ≤ a := by
  simp only [Window.holds, decide_eq_false_iff_not]
  omega

/-- A write leaves everything outside its range as it was. -/
theorem sameOutside_writeBytes (m : Memory) (addr : Nat) (s : List Byte) :
    SameOutside ⟨addr, s.length⟩ m (writeBytes m addr s) := fun _ h =>
  memRead_writeBytes_outside m addr s ((Window.holds_eq_false _ _).1 h)

/-- A write of bytes keeps the canonical form. -/
theorem writeBytes_wf {m : Memory} (h : Memory.wf m) (addr : Nat) (s : List Byte) :
    Memory.wf (writeBytes m addr s) := by
  induction s generalizing m addr with
  | nil => exact h
  | cons b s ih => exact ih (memWrite_wf h addr b) _

/-- A write of bytes inside `MEM` keeps every written byte inside `MEM`. -/
theorem writeBytes_inside {p : Parameters} {m : Memory} (h : Memory.inside p m) {addr : Nat} {s : List Byte}
    (hs : addr + s.length ≤ p.memSize.val) : Memory.inside p (writeBytes m addr s) := by
  induction s generalizing m addr with
  | nil => exact h
  | cons b s ih =>
    simp only [List.length_cons] at hs
    exact ih (memWrite_inside h (by omega) b) (by omega)

/-- `MemRead` gives exactly the bytes that are there. -/
theorem readBytes_eq_ok {m : Memory} {addr n : Nat} {bs : List Byte} :
    readBytes m addr n = .ok bs ↔ bs.length = n ∧ HoldsBytes m addr bs := by
  induction n generalizing addr bs with
  | zero =>
    simp only [readBytes, Except.ok.injEq]
    constructor
    · rintro rfl; exact ⟨rfl, fun k hk => by simp at hk⟩
    · rintro ⟨h, -⟩; exact (List.length_eq_zero_iff.1 h).symm
  | succ n ih =>
    constructor
    · intro h
      simp only [readBytes] at h
      split at h
      · cases h
      · next b hb =>
        split at h
        · next rest hr =>
          cases h
          obtain ⟨hl, hh⟩ := ih.1 hr
          refine ⟨by simp [hl], fun k hk => ?_⟩
          cases k with
          | zero => simpa using hb
          | succ k =>
            have := hh k (by simpa using hk)
            rw [show addr + (k + 1) = addr + 1 + k by omega]
            simpa using this
        · cases h
    · rintro ⟨hl, hh⟩
      cases bs with
      | nil => simp at hl
      | cons b rest =>
        have h0 := hh 0 (by simp)
        have hr : readBytes m (addr + 1) n = .ok rest := ih.2 ⟨by simpa using hl, fun k hk => by
          have := hh (k + 1) (by simpa using hk)
          rw [show addr + (k + 1) = addr + 1 + k by omega] at this
          simpa using this⟩
        simp only [Nat.add_zero, List.getElem_cons_zero] at h0
        simp [readBytes, h0, hr]

/-- Where `MemRead` meets a byte nothing has written, it names an address of the range with no value. -/
theorem readBytes_eq_error {m : Memory} {addr n a : Nat} (h : readBytes m addr n = .error a) :
    addr ≤ a ∧ a < addr + n ∧ memRead m a = none := by
  induction n generalizing addr with
  | zero => simp [readBytes] at h
  | succ n ih =>
    simp only [readBytes] at h
    split at h
    · next hb => cases h; exact ⟨le_refl _, by omega, hb⟩
    · split at h
      · cases h
      · next hr => cases h; have := ih hr; exact ⟨by omega, by omega, this.2.2⟩

/-- `MemRead` depends only on the bytes of its range. -/
theorem readBytes_congr {m m' : Memory} {addr n : Nat}
    (h : ∀ a, addr ≤ a → a < addr + n → memRead m' a = memRead m a) :
    readBytes m' addr n = readBytes m addr n := by
  induction n generalizing addr with
  | zero => rfl
  | succ n ih =>
    simp only [readBytes, h addr (le_refl _) (by omega), ih (addr := addr + 1) fun a h1 h2 => h a (by omega) (by omega)]

/-- Two canonical memories with the same bytes are the same list. -/
theorem Memory.ext_of_wf {m m' : Memory} (h : Memory.wf m) (h' : Memory.wf m') (hr : ∀ a, memRead m a = memRead m' a) :
    m = m' := by
  have key : ∀ {m : Memory}, Memory.wf m → ∀ a b, (a, b) ∈ m ↔ memRead m a = some b := by
    intro m hm
    induction m with
    | nil => simp
    | cons c m ih =>
      obtain ⟨x, v⟩ := c
      have hc := List.pairwise_cons.1 hm
      intro a b
      rw [List.mem_cons, memRead_cons, ih hc.2]
      by_cases hx : x = a
      · subst hx
        simp only [if_true, Prod.mk.injEq, Option.some.injEq, true_and]
        constructor
        · rintro (rfl | h)
          · rfl
          · exact absurd (hc.1 _ ((ih hc.2 x b).2 h)) (lt_irrefl _)
        · rintro rfl; exact .inl rfl
      · simp [hx, Ne.symm hx]
  refine List.Perm.eq_of_pairwise (le := fun x y => x.1 < y.1) ?_ h h' ?_
  · intro a b _ _ h1 h2
    exact absurd (lt_trans h1 h2) (lt_irrefl _)
  · refine (List.perm_ext_iff_of_nodup ?_ ?_).2 ?_
    · exact h.imp fun h1 h2 => absurd (congrArg Prod.fst h2) (ne_of_lt h1)
    · exact h'.imp fun h1 h2 => absurd (congrArg Prod.fst h2) (ne_of_lt h1)
    · rintro ⟨a, b⟩
      rw [key h, key h', hr]

/-- Reset memory is in canonical form. -/
theorem reset_mem_wf : Memory.wf State.reset.mem := List.Pairwise.nil

end Sys2Proof.Machine
end

