-- ==== Sys2Proof/Laws/Operands.lean ====
section
/-! SUPPORT. Little-endian strings, varint lengths and windows (00_scope R10, R13; 30_encoding R69). -/

namespace Sys2Proof

@[simp] theorem leBytes_length (n v : Nat) : (leBytes n v).length = n := by
  induction n generalizing v with
  | zero => rfl
  | succ n ih => simp [leBytes, ih]

/-- `LE_n` byte `k` is `v[8k+7:8k]` (20_memory R41). -/
theorem leBytes_getElem (n v k : Nat) (hk : k < (leBytes n v).length) :
    (leBytes n v)[k] = BitVec.ofNat 8 (v / 256 ^ k % 256) := by
  induction n generalizing v k with
  | zero => simp at hk
  | succ n ih =>
    cases k with
    | zero => simp [leBytes]
    | succ k =>
      simp only [leBytes, List.getElem_cons_succ]
      rw [ih, Nat.pow_succ, Nat.mul_comm, Nat.div_div_eq_div_mul]

/-- `FromLE` inverts `LE_n` on the values it can hold. -/
theorem fromLE_leBytes (n v : Nat) : fromLE (leBytes n v) = v % 256 ^ n := by
  induction n generalizing v with
  | zero => simp [leBytes, fromLE, Nat.mod_one]
  | succ n ih =>
    have h : v % 256 ^ (n + 1) = v % 256 + 256 * (v / 256 % 256 ^ n) := by
      rw [Nat.pow_succ, Nat.mul_comm (256 ^ n), Nat.mod_mul]
    simp only [leBytes, fromLE, ih, BitVec.toNat_ofNat, h]
    omega

theorem fromLE_lt (bs : List Byte) : fromLE bs < 256 ^ bs.length := by
  induction bs with
  | nil => simp [fromLE]
  | cons b bs ih =>
    simp only [fromLE, List.length_cons, Nat.pow_succ]
    have := b.isLt
    omega

/-- `LE_n` inverts `FromLE`. -/
theorem leBytes_fromLE (bs : List Byte) : leBytes bs.length (fromLE bs) = bs := by
  induction bs with
  | nil => rfl
  | cons b bs ih =>
    have hb := b.isLt
    have h1 : (b.toNat + 256 * fromLE bs) % 256 = b.toNat := by omega
    have h2 : (b.toNat + 256 * fromLE bs) / 256 = fromLE bs := by omega
    simp only [List.length_cons, leBytes, fromLE, h1, h2, ih]
    simp

/-- A window is inside `MEM` exactly when `base + n <= MEM_SIZE` (20_memory R49). -/
theorem windowInside_iff (p : Parameters) (w : Window) :
    windowInside p w = true ↔ w.base + w.len ≤ p.memSize.val := by
  unfold windowInside
  split
  · next h => simp [h]
  · next h => simp [h]

theorem windowInside_eq_false (p : Parameters) (w : Window) :
    windowInside p w = false ↔ p.memSize.val < w.base + w.len := by
  rw [← Bool.not_eq_true, windowInside_iff]
  omega

/-- `MEM_SIZE <= 2^ADDR_W` (00_scope R7). -/
theorem memSize_le (p : Parameters) : p.memSize.val ≤ 2 ^ 64 := Nat.lt_succ_iff.1 p.memSize.isLt

/-- Windows that do not overlap share no address. -/
theorem Window.not_holds_of_overlaps_eq_false {v w : Window} (h : v.overlaps w = false) {a : Nat}
    (hv : v.holds a = true) : w.holds a = false := by
  simp only [Window.overlaps, decide_eq_false_iff_not, Window.holds, decide_eq_true_eq] at *
  omega

/-- Windows that overlap share an address. -/
theorem Window.exists_holds_of_overlaps {v w : Window} (h : v.overlaps w = true) :
    ∃ a, v.holds a = true ∧ w.holds a = true := by
  simp only [Window.overlaps, decide_eq_true_eq, Window.holds] at *
  exact ⟨max v.base w.base, by omega, by omega⟩

/-- `bitlen(v) <= n` exactly when `v < 2^n` (00_scope R9). -/
theorem bitlen_le_iff (v n : Nat) : bitlen v ≤ n ↔ v < 2 ^ n := by
  unfold bitlen
  split
  · next h => subst h; simp
  · next h =>
    rw [Nat.succ_le_iff, Nat.log2_lt h]

/-- A varint has at least one byte. -/
theorem varintLen_pos (v : Nat) : 1 ≤ varintLen v := by
  unfold varintLen; omega

/-- A varint has at most `n` bytes exactly when the value fits in `n` groups of 7 bits (30_encoding R69). -/
theorem varintLen_le_iff (v n : Nat) (hn : 1 ≤ n) : varintLen v ≤ n ↔ v < 2 ^ (7 * n) := by
  rw [← bitlen_le_iff]
  simp only [varintLen, Config.varintGroup]
  omega

/-- A 64-bit value needs at most ten bytes (30_encoding R69). -/
theorem varintLen_le_ten (v : BitVec 64) : varintLen v.toNat ≤ 10 :=
  (varintLen_le_iff _ _ (by omega)).2 (lt_of_lt_of_le v.isLt (by norm_num))

end Sys2Proof
end

