-- ==== Sys2Proof/Laws/State.lean ====
section
/-! SUPPORT. One lemma per field per update of State, each true by rfl, so that no proof unfolds a record update. -/

namespace Sys2Proof.Machine

section
variable (s : State) (m : Memory)
@[simp] theorem State.setMem_cfg : (s.setMem m).cfg = s.cfg := rfl
@[simp] theorem State.setMem_mem : (s.setMem m).mem = m := rfl
@[simp] theorem State.setMem_inputs : (s.setMem m).inputs = s.inputs := rfl
@[simp] theorem State.setMem_response : (s.setMem m).response = s.response := rfl
@[simp] theorem State.setMem_encoder : (s.setMem m).encoder = s.encoder := rfl
@[simp] theorem State.setMem_decoder : (s.setMem m).decoder = s.decoder := rfl
@[simp] theorem State.setMem_callResult : (s.setMem m).callResult = s.callResult := rfl
@[simp] theorem State.setMem_freeCount : (s.setMem m).freeCount = s.freeCount := rfl
end

section
variable (s : State) (q : List Input)
@[simp] theorem State.setInputs_cfg : (s.setInputs q).cfg = s.cfg := rfl
@[simp] theorem State.setInputs_mem : (s.setInputs q).mem = s.mem := rfl
@[simp] theorem State.setInputs_inputs : (s.setInputs q).inputs = q := rfl
@[simp] theorem State.setInputs_response : (s.setInputs q).response = s.response := rfl
@[simp] theorem State.setInputs_encoder : (s.setInputs q).encoder = s.encoder := rfl
@[simp] theorem State.setInputs_decoder : (s.setInputs q).decoder = s.decoder := rfl
@[simp] theorem State.setInputs_callResult : (s.setInputs q).callResult = s.callResult := rfl
@[simp] theorem State.setInputs_freeCount : (s.setInputs q).freeCount = s.freeCount := rfl
end

section
variable (s : State) (r : Option Response)
@[simp] theorem State.setResponse_cfg : (s.setResponse r).cfg = s.cfg := rfl
@[simp] theorem State.setResponse_mem : (s.setResponse r).mem = s.mem := rfl
@[simp] theorem State.setResponse_inputs : (s.setResponse r).inputs = s.inputs := rfl
@[simp] theorem State.setResponse_response : (s.setResponse r).response = r := rfl
@[simp] theorem State.setResponse_encoder : (s.setResponse r).encoder = s.encoder := rfl
@[simp] theorem State.setResponse_decoder : (s.setResponse r).decoder = s.decoder := rfl
@[simp] theorem State.setResponse_callResult : (s.setResponse r).callResult = s.callResult := rfl
@[simp] theorem State.setResponse_freeCount : (s.setResponse r).freeCount = s.freeCount := rfl
end

section
variable (s : State) (e : Option Encoder)
@[simp] theorem State.setEncoder_cfg : (s.setEncoder e).cfg = s.cfg := rfl
@[simp] theorem State.setEncoder_mem : (s.setEncoder e).mem = s.mem := rfl
@[simp] theorem State.setEncoder_inputs : (s.setEncoder e).inputs = s.inputs := rfl
@[simp] theorem State.setEncoder_response : (s.setEncoder e).response = s.response := rfl
@[simp] theorem State.setEncoder_encoder : (s.setEncoder e).encoder = e := rfl
@[simp] theorem State.setEncoder_decoder : (s.setEncoder e).decoder = s.decoder := rfl
@[simp] theorem State.setEncoder_callResult : (s.setEncoder e).callResult = s.callResult := rfl
@[simp] theorem State.setEncoder_freeCount : (s.setEncoder e).freeCount = s.freeCount := rfl
end

section
variable (s : State) (d : Option Decoder)
@[simp] theorem State.setDecoder_cfg : (s.setDecoder d).cfg = s.cfg := rfl
@[simp] theorem State.setDecoder_mem : (s.setDecoder d).mem = s.mem := rfl
@[simp] theorem State.setDecoder_inputs : (s.setDecoder d).inputs = s.inputs := rfl
@[simp] theorem State.setDecoder_response : (s.setDecoder d).response = s.response := rfl
@[simp] theorem State.setDecoder_encoder : (s.setDecoder d).encoder = s.encoder := rfl
@[simp] theorem State.setDecoder_decoder : (s.setDecoder d).decoder = d := rfl
@[simp] theorem State.setDecoder_callResult : (s.setDecoder d).callResult = s.callResult := rfl
@[simp] theorem State.setDecoder_freeCount : (s.setDecoder d).freeCount = s.freeCount := rfl
end

section
variable (s : State) (r : Option CallResult)
@[simp] theorem State.setCallResult_cfg : (s.setCallResult r).cfg = s.cfg := rfl
@[simp] theorem State.setCallResult_mem : (s.setCallResult r).mem = s.mem := rfl
@[simp] theorem State.setCallResult_inputs : (s.setCallResult r).inputs = s.inputs := rfl
@[simp] theorem State.setCallResult_response : (s.setCallResult r).response = s.response := rfl
@[simp] theorem State.setCallResult_encoder : (s.setCallResult r).encoder = s.encoder := rfl
@[simp] theorem State.setCallResult_decoder : (s.setCallResult r).decoder = s.decoder := rfl
@[simp] theorem State.setCallResult_callResult : (s.setCallResult r).callResult = r := rfl
@[simp] theorem State.setCallResult_freeCount : (s.setCallResult r).freeCount = s.freeCount := rfl
end

section
variable (s : State) (n : Nat)
@[simp] theorem State.setFreeCount_cfg : (s.setFreeCount n).cfg = s.cfg := rfl
@[simp] theorem State.setFreeCount_mem : (s.setFreeCount n).mem = s.mem := rfl
@[simp] theorem State.setFreeCount_inputs : (s.setFreeCount n).inputs = s.inputs := rfl
@[simp] theorem State.setFreeCount_response : (s.setFreeCount n).response = s.response := rfl
@[simp] theorem State.setFreeCount_encoder : (s.setFreeCount n).encoder = s.encoder := rfl
@[simp] theorem State.setFreeCount_decoder : (s.setFreeCount n).decoder = s.decoder := rfl
@[simp] theorem State.setFreeCount_callResult : (s.setFreeCount n).callResult = s.callResult := rfl
@[simp] theorem State.setFreeCount_freeCount : (s.setFreeCount n).freeCount = n := rfl
end

/-- Writing back what is there changes nothing. -/
@[simp] theorem State.setMem_self (s : State) : s.setMem s.mem = s := rfl

/-- Delivering an error changes the response only (60_exceptions R246). -/
theorem deliverError_eq (s : State) (k : ErrorKind) : deliverError s k = s.setResponse (some (.error k)) := rfl

end Sys2Proof.Machine
end

