-- ==== Sys2Proof/Laws/Ops.lean ====
section
/-! SUPPORT. What each shared operation can do: one lemma per operation (Ops, Calls, Inputs), which later proofs cite
instead of unfolding it. -/

namespace Sys2Proof.Machine

section
variable {α β : Type}

@[simp] theorem andThen_done (a : α) (m : Memory) (f : α → Memory → OpResult β) :
    (OpResult.done a m).andThen f = f a m := rfl
@[simp] theorem andThen_error (k : ErrorKind) (f : α → Memory → OpResult β) :
    (OpResult.error k : OpResult α).andThen f = .error k := rfl
@[simp] theorem andThen_refused (r : Refusal) (f : α → Memory → OpResult β) :
    (OpResult.refused r : OpResult α).andThen f = .refused r := rfl

/-- A sequence ends in a result only through a result of its first part. -/
theorem andThen_eq_done {x : OpResult α} {f : α → Memory → OpResult β} {b : β} {m : Memory} :
    x.andThen f = .done b m ↔ ∃ a m1, x = .done a m1 ∧ f a m1 = .done b m := by
  cases x <;> simp

/-- A sequence ends in an error through an error of one of its parts. -/
theorem andThen_eq_error {x : OpResult α} {f : α → Memory → OpResult β} {k : ErrorKind} :
    x.andThen f = .error k ↔ x = .error k ∨ ∃ a m1, x = .done a m1 ∧ f a m1 = .error k := by
  cases x <;> simp

variable {p : Parameters} {w : Window} {x : OpResult α}

/-- A window inside `MEM` changes nothing of the operation. -/
theorem inWindow_of_le (h : w.base + w.len ≤ p.memSize.val) : inWindow p w x = x := by
  simp [inWindow, (windowInside_iff p w).2 h]

/-- A window outside `MEM` refuses the operation whatever it is (60_exceptions R244). -/
theorem inWindow_of_lt (h : p.memSize.val < w.base + w.len) : inWindow p w x = .refused (.windowOutsideMem w) := by
  simp [inWindow, (windowInside_eq_false p w).2 h]

theorem inWindow_eq_done {a : α} {m : Memory} :
    inWindow p w x = .done a m ↔ w.base + w.len ≤ p.memSize.val ∧ x = .done a m := by
  rw [← windowInside_iff]
  unfold inWindow
  split <;> simp_all

theorem inWindow_eq_error {k : ErrorKind} :
    inWindow p w x = .error k ↔ w.base + w.len ≤ p.memSize.val ∧ x = .error k := by
  rw [← windowInside_iff]
  unfold inWindow
  split <;> simp_all

/-- A sum that is a number of `ADDR_W` bits changes nothing of the operation. -/
theorem checkedSum_of_lt {cursor count : Nat} (h : cursor + count < 2 ^ 64) : checkedSum cursor count x = x :=
  if_neg (by omega)

/-- A sum beyond `2^ADDR_W - 1` is `Overflow` whatever the operation is (10_state R23). -/
theorem checkedSum_of_ge {cursor count : Nat} (h : 2 ^ 64 ≤ cursor + count) :
    checkedSum cursor count x = .error .overflow :=
  if_pos (by omega)

theorem checkedSum_eq_done {cursor count : Nat} {a : α} {m : Memory} :
    checkedSum cursor count x = .done a m ↔ cursor + count < 2 ^ 64 ∧ x = .done a m := by
  unfold checkedSum
  split
  · exact ⟨fun hx => (by cases hx), fun hx => absurd hx.1 (by omega)⟩
  · exact ⟨fun hx => ⟨by omega, hx⟩, (·.2)⟩

theorem checkedSum_eq_error {cursor count : Nat} {k : ErrorKind} :
    checkedSum cursor count x = .error k ↔
      (2 ^ 64 ≤ cursor + count ∧ k = .overflow) ∨ (cursor + count < 2 ^ 64 ∧ x = .error k) := by
  unfold checkedSum
  split
  · exact ⟨fun hx => .inl ⟨by omega, (OpResult.error.inj hx).symm⟩,
      fun hx => hx.elim (fun hy => hy.2 ▸ rfl) (fun hy => absurd hy.1 (by omega))⟩
  · exact ⟨fun hx => .inr ⟨by omega, hx⟩, fun hx => hx.elim (fun hy => absurd hy.1 (by omega)) (·.2)⟩

theorem inWindow_eq_refused {r : Refusal} :
    inWindow p w x = .refused r ↔
      (p.memSize.val < w.base + w.len ∧ r = .windowOutsideMem w)
      ∨ (w.base + w.len ≤ p.memSize.val ∧ x = .refused r) := by
  by_cases h : w.base + w.len ≤ p.memSize.val
  · rw [inWindow_of_le h]
    exact ⟨fun hx => .inr ⟨h, hx⟩, fun hx => hx.elim (fun hy => absurd hy.1 (by omega)) (·.2)⟩
  · rw [inWindow_of_lt (by omega)]
    exact ⟨fun hx => .inl ⟨by omega, (OpResult.refused.inj hx).symm⟩,
      fun hx => hx.elim (fun hy => by rw [hy.2]) fun hy => absurd hy.1 h⟩

variable {m : Memory} {addr n : Nat} {f : List Byte → OpResult α}

/-- With the bytes there, the operation goes on with them. -/
theorem withBytes_of_holds {bs : List Byte} (hl : bs.length = n) (h : HoldsBytes m addr bs) :
    withBytes m addr n f = f bs := by
  simp [withBytes, readBytes_eq_ok.2 ⟨hl, h⟩]

/-- A read either goes on with the bytes that are there, or names a byte nothing has written. -/
theorem withBytes_cases (m : Memory) (addr n : Nat) (f : List Byte → OpResult α) :
    (∃ bs, bs.length = n ∧ HoldsBytes m addr bs ∧ withBytes m addr n f = f bs)
    ∨ (∃ a, addr ≤ a ∧ a < addr + n ∧ memRead m a = none ∧ withBytes m addr n f = .refused (.readUnwritten a)) := by
  unfold withBytes
  cases h : readBytes m addr n with
  | ok bs => exact .inl ⟨bs, (readBytes_eq_ok.1 h).1, (readBytes_eq_ok.1 h).2, rfl⟩
  | error a =>
    obtain ⟨h1, h2, h3⟩ := readBytes_eq_error h
    exact .inr ⟨a, h1, h2, h3, rfl⟩

variable {s t : State} {fields : α → Result}

@[simp] theorem respond_done (s : State) (fields : α → Result) (a : α) (m : Memory) :
    respond s fields (.done a m) = .next ((s.setMem m).setResponse (some (.ok (fields a)))) := rfl
@[simp] theorem respond_error (s : State) (fields : α → Result) (k : ErrorKind) :
    respond s fields (.error k) = .next (s.setResponse (some (.error k))) := rfl
@[simp] theorem respond_refused (s : State) (fields : α → Result) (r : Refusal) :
    respond s fields (.refused r) = .refused r := rfl

/-- A delivered response is a result with the operation's effect, or an error with none (60_exceptions R247). -/
theorem respond_eq_next :
    respond s fields x = .next t ↔
      (∃ a m, x = .done a m ∧ t = (s.setMem m).setResponse (some (.ok (fields a))))
      ∨ (∃ k, x = .error k ∧ t = s.setResponse (some (.error k))) := by
  cases x <;> simp [eq_comm]

end

/-- An encoder call ends in a value with its effect, or in an error with none (48_frame_context R195). -/
theorem settleEncoder_eq_next {s t : State} {x : OpResult (CallValue × Encoder)} :
    settleEncoder s x = .next t ↔
      (∃ v e m, x = .done (v, e) m ∧ t = ((s.setMem m).setEncoder (some e)).setCallResult (some (.ok v)))
      ∨ (∃ k, x = .error k ∧ t = s.setCallResult (some (.error k))) := by
  cases x with
  | done r m => obtain ⟨v, e⟩ := r; simp [settleEncoder, eq_comm]
  | error k => simp [settleEncoder, eq_comm]
  | refused r => simp [settleEncoder]

/-- A decoder call ends in a value with its effect, or in an error with none (48_frame_context R195, R202). -/
theorem settleDecoder_eq_next {s t : State} {x : OpResult (CallValue × Decoder)} :
    settleDecoder s x = .next t ↔
      (∃ v d m, x = .done (v, d) m ∧ t = ((s.setMem m).setDecoder (some d)).setCallResult (some (.ok v)))
      ∨ (∃ k, x = .error k ∧ t = s.setCallResult (some (.error k))) := by
  cases x with
  | done r m => obtain ⟨v, d⟩ := r; simp [settleDecoder, eq_comm]
  | error k => simp [settleDecoder, eq_comm]
  | refused r => simp [settleDecoder]

/-- An encoder call has a next state only on an encoder. -/
theorem onEncoder_eq_next {s t : State} {f : Encoder → OpResult (CallValue × Encoder)} :
    onEncoder s f = .next t ↔ ∃ e, s.encoder = some e ∧ settleEncoder s (f e) = .next t := by
  unfold onEncoder
  cases s.encoder <;> simp

/-- A decoder call has a next state only on a decoder. -/
theorem onDecoder_eq_next {s t : State} {f : Decoder → OpResult (CallValue × Decoder)} :
    onDecoder s f = .next t ↔ ∃ d, s.decoder = some d ∧ settleDecoder s (f d) = .next t := by
  unfold onDecoder
  cases s.decoder <;> simp

/-- No sum of the write cursor and a count that fits is beyond `2^ADDR_W - 1` (10_state R23, log 26). -/
theorem writer_sum_representable {p : Parameters} {e : Encoder} (h : EncoderOk p e) (hs : e.state ≠ .created) {n : Nat}
    (hn : n ≤ e.writer.limit - e.writer.cursor) : e.writer.cursor + n < 2 ^ 64 := by
  have hu := h.upper hs
  have hl := h.limit
  have hr := h.representable
  omega

/-- Nor is a sum of the read cursor and a count that fits (10_state R23, log 26). The sums of `header()` are `F` and at
most `L`, so `DecoderOk.representable` bounds them itself. -/
theorem reader_sum_representable {p : Parameters} {d : Decoder} (h : DecoderOk p d) (hs : d.state = .bodyInProgress)
    {n : Nat} (hn : n ≤ d.reader.bodyEnd - d.reader.cursor) : d.reader.cursor + n < 2 ^ 64 := by
  have hu := h.upper hs
  have hf := h.frame (by simp [hs])
  have he := h.bodyEnd hs
  have hb := h.bodyStart hs
  have hr := h.representable
  omega

@[simp] theorem thenDo_next (s : State) (f : State → Host.Outcome State Fault Refusal) :
    thenDo (.next s) f = f s := rfl
@[simp] theorem thenDo_refused (r : Refusal) (f : State → Host.Outcome State Fault Refusal) :
    thenDo (.refused r) f = .refused r := rfl

/-- No other agent's access leaves the state as it is. -/
@[simp] theorem afterAccesses_nil (s : State) : afterAccesses [] s = .next s := rfl

/-- With no input the block is idle (70_reset_and_hazards R270). -/
theorem step_of_no_input {s : State} (h : s.inputs = []) : step s = .next s := by
  simp [step, h]

/-- A step takes the oldest input. -/
theorem step_of_input {s : State} {x : Input} {rest : List Input} (h : s.inputs = x :: rest) :
    step s = runInput x (s.setInputs rest) := by
  simp [step, h]

end Sys2Proof.Machine
end

