-- ==== Sys2Proof/Laws/Codec.lean ====
section
/-! SUPPORT. The small laws of the three units: the CRC register, the bytes of a varint, the bytes of a header
(40_crc32c R91, R92; 41_varint R111; 30_encoding R72). -/

namespace Sys2Proof.Machine

/-- The reflected constant is `rev_32` of the polynomial (40_crc32c R91). -/
theorem polyReflected_eq_reverse : Config.polyReflected = Config.poly.reverse := by decide +kernel

@[simp] theorem crcUpdate_nil (c : BitVec 32) : crcUpdate c [] = c := rfl

theorem crcUpdate_cons (c : BitVec 32) (b : Byte) (bs : List Byte) :
    crcUpdate c (b :: bs) = crcUpdate (crcByte c b) bs := rfl

@[simp] theorem varintBytes_length (v : BitVec 64) : (varintBytes v).length = varintLen v.toNat := by
  simp [varintBytes]

theorem varintBytes_getElem (v : BitVec 64) (k : Nat) (hk : k < (varintBytes v).length) :
    (varintBytes v)[k] = varintByte v (varintLen v.toNat) k := by
  simp [varintBytes]

@[simp] theorem headerBytes_length (h : FrameHeader) : (headerBytes h).length = 14 := by
  simp [headerBytes]

@[simp] theorem fixedBytes_length (v : FixedValue) : (fixedBytes v).length = v.type.width := by
  simp [fixedBytes]

@[simp] theorem bitmapBytes_length (b : Bitmap) : (bitmapBytes b).length = b.width.bytes := by
  simp [bitmapBytes]

/-- A bitmap has at least one byte. -/
theorem bitmapWidth_pos (w : BitmapWidth) : 1 ≤ w.bytes := by
  cases w <;> simp [BitmapWidth.bytes]

/-- What `CRC32C` can do (40_crc32c R90). -/
theorem opCrc32c_eq_done {p : Parameters} {m m' : Memory} {base len : Nat} {c : BitVec 32} :
    opCrc32c p m base len = .done c m' ↔
      base + len ≤ p.memSize.val ∧ m' = m ∧ ∃ bs, bs.length = len ∧ HoldsBytes m base bs ∧ c = crc32c bs := by
  unfold opCrc32c
  rw [inWindow_eq_done]
  refine and_congr_right fun _ => ?_
  constructor
  · intro h
    rcases withBytes_cases m base len (fun bs => OpResult.done (crc32c bs) m) with ⟨bs, hl, hb, he⟩ | ⟨a, -, -, -, he⟩
    · rw [he] at h
      cases h
      exact ⟨rfl, bs, hl, hb, rfl⟩
    · rw [he] at h
      cases h
  · rintro ⟨rfl, bs, hl, hb, rfl⟩
    rw [withBytes_of_holds hl hb]

/-- `CRC32C` has no error (60_exceptions R240). -/
theorem opCrc32c_ne_error {p : Parameters} {m : Memory} {base len : Nat} {k : ErrorKind} :
    opCrc32c p m base len ≠ .error k := by
  unfold opCrc32c
  rw [Ne, inWindow_eq_error]
  rintro ⟨-, h⟩
  rcases withBytes_cases m base len (fun bs => OpResult.done (crc32c bs) m) with ⟨bs, -, -, he⟩ | ⟨a, -, -, -, he⟩ <;>
    · rw [he] at h
      cases h

/-- What `VARINT_ENC` can do (41_varint R110). -/
theorem opVarintEnc_eq_done {p : Parameters} {m m' : Memory} {base cap n : Nat} {v : BitVec 64} :
    opVarintEnc p m base cap v = .done n m' ↔
      base + cap ≤ p.memSize.val ∧ varintLen v.toNat ≤ cap ∧ n = varintLen v.toNat
        ∧ m' = writeBytes m base (varintBytes v) := by
  unfold opVarintEnc
  rw [inWindow_eq_done]
  refine and_congr_right fun _ => ?_
  split
  · simp_all
  · simp_all [eq_comm]

/-- The one error of `VARINT_ENC` (41_varint R112). -/
theorem opVarintEnc_eq_error {p : Parameters} {m : Memory} {base cap : Nat} {v : BitVec 64} {k : ErrorKind} :
    opVarintEnc p m base cap v = .error k ↔
      base + cap ≤ p.memSize.val ∧ cap < varintLen v.toNat ∧ k = .bufferTooSmall := by
  unfold opVarintEnc
  rw [inWindow_eq_error]
  refine and_congr_right fun _ => ?_
  split
  · simp_all [eq_comm]
  · simp_all

/-- The varint loop writes nothing and consumes between one and `i + left` bytes, all available (41_varint R118). -/
theorem varintDecLoop_eq_done {m m' : Memory} {base avail left i n : Nat} {acc v : BitVec 64}
    (h : varintDecLoop m base avail left i acc = .done (v, n) m') :
    m' = m ∧ i < n ∧ n ≤ avail ∧ n ≤ i + left := by
  induction left generalizing i acc with
  | zero => simp only [varintDecLoop] at h; split at h <;> cases h
  | succ left ih =>
    simp only [varintDecLoop] at h
    split at h
    · cases h
    · split at h
      · cases h
      · split at h
        · cases h
        · split at h
          · cases h; exact ⟨rfl, by omega, by omega, by omega⟩
          · have := ih h; exact ⟨this.1, by omega, by omega, by omega⟩

/-- What `VARINT_DEC` leaves when it returns (41_varint R117). -/
theorem opVarintDec_eq_done {p : Parameters} {m m' : Memory} {base avail n : Nat} {v : BitVec 64}
    (h : opVarintDec p m base avail = .done (v, n) m') :
    m' = m ∧ 1 ≤ n ∧ n ≤ avail ∧ n ≤ 10 ∧ base + avail ≤ p.memSize.val := by
  unfold opVarintDec at h
  rw [inWindow_eq_done] at h
  have := varintDecLoop_eq_done h.2
  simp only [Config.maxVarintLen] at this
  exact ⟨this.1, by omega, this.2.2.1, by omega, h.1⟩

/-- What `HDR_SER` can do (42_header R140). -/
theorem opHdrSer_eq_done {p : Parameters} {m m' : Memory} {base cap n : Nat} {h : FrameHeader} :
    opHdrSer p m base cap h = .done n m' ↔
      base + cap ≤ p.memSize.val ∧ 14 ≤ cap ∧ n = 14 ∧ m' = writeBytes m base (headerBytes h) := by
  unfold opHdrSer
  rw [inWindow_eq_done]
  refine and_congr_right fun _ => ?_
  simp only [Config.hdrSize]
  by_cases hc : cap < 14
  · rw [if_pos hc]
    simp
    omega
  · rw [if_neg hc]
    simp [eq_comm]
    omega

/-- What `HDR_DES` leaves when it returns (42_header R146). -/
theorem opHdrDes_eq_done {p : Parameters} {m m' : Memory} {base avail n : Nat} {h : FrameHeader} :
    opHdrDes p m base avail = .done (h, n) m' ↔
      base + avail ≤ p.memSize.val ∧ 14 ≤ avail ∧ n = 14 ∧ m' = m ∧ h.magic = p.magic
        ∧ h.version.toNat ≤ p.maxVersion.toNat ∧ ∃ bs, bs.length = 14 ∧ HoldsBytes m base bs ∧ h = headerOf bs := by
  unfold opHdrDes
  rw [inWindow_eq_done]
  refine and_congr_right fun _ => ?_
  simp only [Config.hdrSize]
  by_cases hc : avail < 14
  · rw [if_pos hc]
    simp
    omega
  · rw [if_neg hc]
    rcases withBytes_cases m base 14 (fun bs => checkHeader p m (headerOf bs)) with ⟨bs, hl, hb, he⟩ | ⟨a, h1, h2, h3, he⟩
    · rw [he]
      have hu : ∀ cs : List Byte, cs.length = 14 → HoldsBytes m base cs → cs = bs := fun cs hcl hcb => by
        refine List.ext_getElem (by omega) fun k hk hk' => ?_
        have := hcb k hk
        rw [hb k hk'] at this
        exact (Option.some.inj this).symm
      unfold checkHeader
      constructor
      · intro h'
        split at h'
        · cases h'
        · next hm =>
          split at h'
          · cases h'
          · next hv =>
            cases h'
            exact ⟨by omega, rfl, rfl, not_not.1 hm, by omega, bs, hl, hb, rfl⟩
      · rintro ⟨-, rfl, rfl, hm, hv, cs, hcl, hcb, rfl⟩
        obtain rfl := hu cs hcl hcb
        rw [if_neg (not_not.2 hm), if_neg (by omega)]
    · rw [he]
      constructor
      · intro h'; cases h'
      · rintro ⟨-, -, -, -, -, bs, hl, hb, -⟩
        have := hb (a - base) (by omega)
        rw [show base + (a - base) = a by omega, h3] at this
        cases this

end Sys2Proof.Machine
end

