-- ==== Sys2Proof/Laws/PerInstr.lean ====
section
/-! SUPPORT. One law for every instruction as syntax: the shape of its record (30_encoding R61, R62). -/

namespace Sys2Proof.Laws.RecordShape

/-- The record of a command begins with its opcode, which is assigned, and is as long as its format. -/
def Statement (i : Instr) : Prop :=
  (encode i).head? = some i.opcode ∧ 1 ≤ i.opcode.toNat ∧ i.opcode.toNat ≤ 5
    ∧ (encode i).length = recordLength i.opcode

theorem crc32c (base len : Addr) : Statement (.crc32c base len) := by
  simp [Statement, encode, encodeOperands, Instr.opcode, recordLength]

theorem varintEnc (base cap : Addr) (value : BitVec 64) : Statement (.varintEnc base cap value) := by
  simp [Statement, encode, encodeOperands, Instr.opcode, recordLength]

theorem varintDec (base avail : Addr) : Statement (.varintDec base avail) := by
  simp [Statement, encode, encodeOperands, Instr.opcode, recordLength]

theorem hdrSer (base cap : Addr) (header : FrameHeader) : Statement (.hdrSer base cap header) := by
  simp [Statement, encode, encodeOperands, Instr.opcode, recordLength]

theorem hdrDes (base avail : Addr) : Statement (.hdrDes base avail) := by
  simp [Statement, encode, encodeOperands, Instr.opcode, recordLength]

end Sys2Proof.Laws.RecordShape
end

