-- ==== Sys2Proof/Tests/Slice0.lean ====
section
/-! SUPPORT. The model's own tests: the well-formedness smoke, the decoding of words written out by hand, the vectors of
95_test_vectors, and a witness for the hypotheses of each statement. -/

namespace Sys2Proof.Tests

open Sys2Proof.Machine

/-- The illustration parameters of 95_test_vectors (`MAGIC = 0x424D`, `MAX_VERSION = 1`) with 64 bytes of `MEM`. -/
def tp : Parameters := ⟨0x424D#16, 1#8, ⟨64, by decide⟩, 20#64⟩

/-- A state whose `MEM` holds `bs` at `base`, with nothing presented. -/
def st (base : Nat) (bs : List Byte) : State :=
  { State.reset with cfg := tp, mem := writeBytes [] base bs }

/-- The same with inputs. -/
def stq (base : Nat) (bs : List Byte) (q : List Input) : State := (st base bs).setInputs q

/-- The next state's response. -/
def rspOf : Host.Outcome State Fault Refusal → Option Response
  | .next t => t.response
  | _ => none

/-- The next state's call outcome. -/
def resOf : Host.Outcome State Fault Refusal → Option CallResult
  | .next t => t.callResult
  | _ => none

/-- `n` bytes of the next state's `MEM` at `base`. -/
def memOf (base n : Nat) : Host.Outcome State Fault Refusal → List (Option Byte)
  | .next t => (List.range n).map fun k => memRead t.mem (base + k)
  | _ => []

/-- The refusal, if any. -/
def refOf : Host.Outcome State Fault Refusal → Option Refusal
  | .refused r => some r
  | _ => none

/-- Bytes that are all there. -/
def there (bs : List Byte) : List (Option Byte) := bs.map some

/-! ## Well-formedness smoke (30_encoding R61): the one check, on each command -/

theorem test_wf_window_at_the_end : Instr.wellFormed tp (.crc32c 60 4) = true := by decide
theorem test_wf_crc32c_outside : Instr.wellFormed tp (.crc32c 60 5) = false := by decide
theorem test_wf_varintEnc_outside : Instr.wellFormed tp (.varintEnc 64 1 0) = false := by decide
theorem test_wf_varintDec_wraps : Instr.wellFormed tp (.varintDec 0xFFFFFFFFFFFFFFFF 1) = false := by decide
theorem test_wf_hdrSer_outside : Instr.wellFormed tp (.hdrSer 51 14 ⟨0, 0, 0, 0, 0, 0⟩) = false := by decide
theorem test_wf_hdrDes_outside : Instr.wellFormed tp (.hdrDes 0 65) = false := by decide

/-! ## Decoding of words written out from 30_encoding R61, R62 -/

theorem test_decode_crc32c :
    decode [0x01, 0x00, 0x10, 0, 0, 0, 0, 0, 0, 40, 0, 0, 0, 0, 0, 0, 0] = .ok (.crc32c 0x1000 40, []) := rfl
theorem test_decode_varintEnc :
    decode [0x02, 0x23, 0x10, 0, 0, 0, 0, 0, 0, 29, 0, 0, 0, 0, 0, 0, 0, 4, 0, 0, 0, 0, 0, 0, 0x80]
      = .ok (.varintEnc 0x1023 29 0x8000000000000004, []) := rfl
theorem test_decode_varintDec :
    decode [0x03, 0x00, 0x40, 0, 0, 0, 0, 0, 0, 9, 0, 0, 0, 0, 0, 0, 0, 0x77] = .ok (.varintDec 0x4000 9, [0x77]) := rfl
theorem test_decode_hdrSer :
    decode [0x04, 0x00, 0x30, 0, 0, 0, 0, 0, 0, 14, 0, 0, 0, 0, 0, 0, 0, 0x4D, 0x42, 1, 0xFE, 0xCD, 0xAB,
        0x04, 0x03, 0x02, 0x01, 0x0D, 0x0C, 0x0B, 0x0A]
      = .ok (.hdrSer 0x3000 14 ⟨0x424D, 1, 0xFE, 0xABCD, 0x01020304, 0x0A0B0C0D⟩, []) := rfl
theorem test_decode_hdrDes :
    decode [0x05, 0x00, 0x20, 0, 0, 0, 0, 0, 0, 44, 0, 0, 0, 0, 0, 0, 0] = .ok (.hdrDes 0x2000 44, []) := rfl
theorem test_decode_zero_unassigned : decode [0x00, 1, 2] = .error (.unassigned 0x00) := rfl
theorem test_decode_six_unassigned : decode [0x06] = .error (.unassigned 0x06) := rfl
theorem test_decode_short : decode (0x02 :: List.replicate 23 0) = .error (.tooShort 0x02) := rfl
theorem test_decode_nothing : decode [] = .error .noOpcode := rfl
theorem test_tableWord_five : decodeTableWord 8 5 = some (.hdrDes 0 0) := rfl
theorem test_tableWord_six : decodeTableWord 8 6 = none := rfl

/-! ## Single steps, expected results from 95_test_vectors -/

theorem test_crc_check_value :
    rspOf (exec (.crc32c 3 9) (st 3 [0x31, 0x32, 0x33, 0x34, 0x35, 0x36, 0x37, 0x38, 0x39]))
      = some (.ok (.crc32c 0xE3069283)) := by decide +kernel
theorem test_crc_empty_window : rspOf (exec (.crc32c 64 0) (st 0 [])) = some (.ok (.crc32c 0)) := by decide
theorem test_varintEnc_300 :
    memOf 0x10 3 (exec (.varintEnc 0x10 16 300) (st 0x10 [0xAA, 0xAA, 0xAA])) = there [0xAC, 0x02, 0xAA] := by decide
theorem test_varintEnc_max_needs_ten :
    rspOf (exec (.varintEnc 0 9 0xFFFFFFFFFFFFFFFF) (st 0 [])) = some (.error .bufferTooSmall)
    ∧ rspOf (exec (.varintEnc 0 10 0xFFFFFFFFFFFFFFFF) (st 0 [])) = some (.ok (.varintEnc 10)) := by decide
theorem test_varintDec_624485 :
    rspOf (exec (.varintDec 20 4) (st 20 [0xE5, 0x8E, 0x26])) = some (.ok (.varintDec 624485 3)) := by decide
theorem test_varintDec_tenth_byte :
    rspOf (exec (.varintDec 0 10) (st 0 (List.replicate 9 0xFF ++ [0x7F]))) = some (.error .overflow)
    ∧ rspOf (exec (.varintDec 0 10) (st 0 (List.replicate 10 0x80))) = some (.error .truncated)
    ∧ rspOf (exec (.varintDec 0 11) (st 0 (List.replicate 10 0x80))) = some (.error .overflow) := by decide
theorem test_hdrSer_reserved_flags :
    memOf 0 15 (exec (.hdrSer 0 64 ⟨0x424D, 0, 0xFE, 0xABCD, 0x01020304, 0x0A0B0C0D⟩) (st 14 [0xAA]))
      = there [0x4D, 0x42, 0x00, 0xFE, 0xCD, 0xAB, 0x04, 0x03, 0x02, 0x01, 0x0D, 0x0C, 0x0B, 0x0A, 0xAA] := by decide
theorem test_hdrDes_reserved_flags :
    rspOf (exec (.hdrDes 0 14)
        (st 0 [0x4D, 0x42, 0x00, 0xFE, 0xCD, 0xAB, 0x04, 0x03, 0x02, 0x01, 0x0D, 0x0C, 0x0B, 0x0A]))
      = some (.ok (.hdrDes ⟨0x424D, 0, 0xFE, 0xABCD, 0x01020304, 0x0A0B0C0D⟩ 14)) := by decide
theorem test_hdrDes_bad_magic_and_version :
    rspOf (exec (.hdrDes 0 14) (st 0 [0x42, 0x4D, 0x02, 0, 1, 0, 1, 0, 0, 0, 0, 0, 0, 0]))
      = some (.error .invalidMagic) := by decide
theorem test_unwritten_byte_refused : refOf (exec (.crc32c 0 2) (st 0 [0x61])) = some (.readUnwritten 1) := by decide
theorem test_fetchWord_runs_first :
    rspOf (step (State.reset.withFetchWord 8 1)) = some (.ok (.crc32c 0))
    ∧ rspOf (step (State.reset.withFetchWord 8 4)) = some (.error .bufferTooSmall) := by decide

/-! ## Host layers, expected results from 95_test_vectors section 5 -/

/-- An encoder in BodyInProgress over `(0, 64)` after `begin` with F1's header, at the write cursor `w`. -/
def enc (ws : WriterState) (w : Nat) : Encoder :=
  { (newEncoder 0 64).begun ⟨0x424D, 1, 0, 1, 12345, 0⟩ 0 with writer := ⟨ws, 14, w, 64⟩ }

/-- The illustration parameters with a `MEM` of `2^64` bytes, the most there can be. -/
def topPar : Parameters := { tp with memSize := ⟨2 ^ 64, by decide⟩ }

/-- A state with such a `MEM`. -/
def topState : State := { State.reset with cfg := topPar }

/-- A decoder over `(0, 44)` that has read F1's header. -/
def dec (ds : DecoderState) (rs : ReaderState) (r : Nat) : Decoder :=
  ⟨ds, 0, 44, ⟨0x424D, 1, 0, 1, 12345, 26⟩, 0, 26, ⟨rs, 14, r, 40⟩⟩

/-- The 40 span bytes of frame F1. -/
def f1span : List Byte :=
  [0x4D, 0x42, 0x01, 0x00, 0x01, 0x00, 0x39, 0x30, 0x00, 0x00, 0x1A, 0x00, 0x00, 0x00,
    0x00, 0xCA, 0x9A, 0x3B, 0x00, 0x00, 0x00, 0x00, 0x80, 0xF0, 0xFA, 0x02, 0x00, 0x00, 0x00, 0x00,
    0x64, 0x00, 0x00, 0x00, 0x01, 0x04, 0x41, 0x41, 0x50, 0x4C]

/-- Frame F1. -/
def f1 : List Byte := f1span ++ [0x85, 0x9D, 0x7B, 0xEE]

/-- A state with an encoder. -/
def ste (e : Encoder) (bs : List Byte) : State := (st 0 bs).setEncoder (some e)

/-- A state with a decoder. -/
def std (d : Decoder) (bs : List Byte) : State := (st 0 bs).setDecoder (some d)

theorem test_finish_f1 :
    memOf 10 34 (runCall .finishCrc32c
      (ste (enc .writingVariable 40) (f1span.take 10 ++ [0, 0, 0, 0] ++ f1span.drop 14))) = there (f1.drop 10) := by
  decide +kernel
theorem test_verify_f1 :
    resOf (runCall .verifyCrc32c (std (dec .headerRead .readingFixed 14) f1)) = some (.ok .unit) := by decide +kernel
theorem test_verify_f1_corrupt :
    resOf (runCall .verifyCrc32c (std (dec .headerRead .readingFixed 14) (f1.set 20 0x01)))
      = some (.error .checksumMismatch) := by decide +kernel
theorem test_header_f1_extension_flag_flipped :
    resOf (runCall .readHeader (std (newDecoder 0 44) (f1.set 3 0x01))) = some (.error .lengthMismatch) := by decide
theorem test_put_i64_negative :
    memOf 14 8 (runCall (.putFixed (.i64 (BitVec.ofInt 64 (-50000000)))) (ste (enc .writingFixed 14) []))
      = there [0x80, 0x0F, 0x05, 0xFD, 0xFF, 0xFF, 0xFF, 0xFF] := by decide
theorem test_i16_min : (fixedOf .i16 [0x00, 0x80]).int = -32768 := by decide
theorem test_varbytes_after_fixed_field :
    resOf (runCall (.putVarbytes (.literal [0x78])) (ste (enc .writingFixed 15) []))
      = some (.error .fieldOrderViolation) := by decide
theorem test_begin_exact_space :
    resOf (runCall (.beginFrame ⟨0, 1, 1, 7, 0xFFFFFFFF, 0⟩ [0xDE, 0xAD, 0xBE]) (ste (newEncoder 0 17) []))
      = some (.error .bufferTooSmall)
    ∧ memOf 10 8 (runCall (.beginFrame ⟨0, 1, 1, 7, 0xFFFFFFFF, 0⟩ [0xDE, 0xAD, 0xBE]) (ste (newEncoder 0 18) []))
      = there [0, 0, 0, 0, 0x03, 0xDE, 0xAD, 0xBE] := by decide
/-- 10_state R23, R184: a buffer whose end is `2^64`, and one that ends a byte lower, in a `MEM` of `2^64` bytes. -/
theorem test_open_end_overflows :
    resOf (runCall (.openEncoder 0xFFFFFFFFFFFFFFF1 15) topState) = some (.error .overflow)
    ∧ resOf (runCall (.openEncoder 0xFFFFFFFFFFFFFFF1 14) topState) = some (.ok .unit)
    ∧ resOf (runCall (.openDecoder 0xFFFFFFFFFFFFFFF2 14) topState) = some (.error .overflow) := by decide
/-- The codes of 60_exceptions R230. -/
theorem test_status_codes :
    (Response.ok (.hdrSer 14)).status = 0 ∧ (Response.error .truncated).status = 2
    ∧ (Response.error .overflow).status = 8 := by decide
theorem test_get_varbytes_view :
    resOf (runCall .getVarbytes (std (dec .bodyInProgress .bitmapRead 35) f1)) = some (.ok (.view ⟨36, 4⟩)) := by decide
theorem test_overlapping_source_refused :
    refOf (runCall (.putVarbytes (.window ⟨15, 4⟩)) (ste (enc .bitmapWritten 14) (List.replicate 30 0)))
      = some .sourceOverlapsDestination := by decide

/-! ## Witnesses: states and operands that meet the hypotheses of the statements, clause by clause -/

theorem witness_StepRunsDecodedCommand :
    decode (encode (.crc32c 0 0)) = .ok (.crc32c 0 0, []) ∧ (stq 0 [] [.command (encode (.crc32c 0 0)) []]).inputs
      = .command (encode (.crc32c 0 0)) [] :: [] ∧ (stq 0 [] [.call .openBody]).inputs = .call .openBody :: []
    ∧ (st 0 []).inputs = [] := ⟨rfl, rfl, rfl, rfl⟩
theorem witness_DecodedBytesAreTheEncoding : ∃ i r, decode (0x05 :: List.replicate 17 0x01) = .ok (i, r) :=
  ⟨_, _, rfl⟩
theorem witness_UnassignedOpcodeRefused :
    refOf (step (stq 0 [] [.command [0x00] []])) = some (.unassignedOpcode 0x00)
    ∧ refOf (step (stq 0 [] [.command [0x06, 1] [.command []]])) = some (.unassignedOpcode 0x06)
    ∧ refOf (step (stq 0 [] [.command [0xFF] []])) = some (.unassignedOpcode 0xFF) := by decide
theorem witness_WindowOutsideMemRefused :
    (st 0 []).cfg.memSize.val < (Instr.varintDec 64 1).window.base + (Instr.varintDec 64 1).window.len := by decide
theorem witness_CrcReturnsChecksumOfWindow :
    (61#64).toNat + (3#64).toNat ≤ (st 61 [1, 2, 3]).cfg.memSize.val
    ∧ HoldsBytes (st 61 [1, 2, 3]).mem 61 [1, 2, 3] := by decide
theorem witness_CrcUpdateChainsAndIsLinear : ([1, 2] : List Byte).length = ([3, 4] : List Byte).length := by decide
theorem witness_CrcDetectsEverySingleBitFlip :
    0 < ([0x61] : List Byte).length ∧ crc32c [0x61] ≠ crc32c ([0x61].set 0 (0x61 ^^^ (1#8 <<< 7))) := by decide
theorem witness_VarintEncWritesShortestForm :
    (54#64).toNat + (10#64).toNat ≤ tp.memSize.val ∧ varintLen (0xFFFFFFFFFFFFFFFF#64).toNat ≤ (10#64).toNat := by
  decide
theorem witness_BufferTooSmallWhenSpaceIsShort :
    (63#64).toNat + (1#64).toNat ≤ tp.memSize.val ∧ (1#64).toNat < varintLen (128#64).toNat
    ∧ (51#64).toNat + (13#64).toNat ≤ tp.memSize.val ∧ (13#64).toNat < 14 := by decide
theorem witness_VarintLengthFollowsTheTable :
    varintLen 0 = 1 ∧ varintLen 127 = 1 ∧ varintLen 128 = 2 ∧ varintLen (2 ^ 63) = 10
    ∧ varintBytes 0 = [0x00#8] ∧ (varintBytes 0x8000000000000000#64)[9]? = some 0x01#8 := by decide
theorem witness_VarintEncodeThenDecode :
    (62#64).toNat + (2#64).toNat ≤ tp.memSize.val ∧ varintLen (300#64).toNat ≤ (2#64).toNat := by decide
theorem witness_VarintDecReturnsValueAndLength :
    IsVarint [0x7F] ∧ IsVarint (List.replicate 9 0x80 ++ [0x01]) ∧ HoldsBytes (st 63 [0x7F]).mem 63 [0x7F] := by
  refine ⟨⟨⟨0x7F, rfl, by decide⟩, by decide, by decide, by decide⟩, ⟨⟨0x01, rfl, by decide⟩, by decide, by decide, ?_⟩,
    by decide⟩
  intro b hb
  simp at hb
  subst hb
  decide
theorem holds_continue_nine : FirstContinue (st 0 (List.replicate 9 0x80 ++ [0x81])).mem 0 10 := by
  intro j hj
  refine ⟨if j = 9 then 0x81 else 0x80, ?_, ?_⟩ <;> interval_cases j <;> decide
theorem witness_VarintDecErrorOrder :
    (10#64).toNat = 10 ∧ 10 < (11#64).toNat ∧ (0#64).toNat = 0
    ∧ FirstContinue (st 0 (List.replicate 9 0x80 ++ [0x81])).mem 0 10
    ∧ memRead (st 0 (List.replicate 9 0x80 ++ [0x81])).mem 9 = some 0x81 ∧ (0x81#8).toNat % 128 ≤ 1
    ∧ memRead (st 0 (List.replicate 9 0x80 ++ [0x02])).mem 9 = some 0x02 ∧ 1 < (0x02#8).toNat % 128 :=
  ⟨by decide, by decide, by decide, holds_continue_nine, by decide, by decide, by decide, by decide⟩
theorem witness_OverflowOnlyFromVarintDec :
    rspOf (exec (.varintDec 0 10) (st 0 (List.replicate 9 0x80 ++ [0x02]))) = some (.error .overflow)
    ∧ rspOf (exec (.varintDec 0 11) (st 0 (List.replicate 9 0x80 ++ [0x81]))) = some (.error .overflow) := by decide
theorem witness_TruncatedWhenTheWindowEnds :
    rspOf (exec (.varintDec 0 0) (st 0 [])) = some (.error .truncated)
    ∧ rspOf (exec (.hdrDes 51 13) (st 0 [])) = some (.error .truncated) := by decide
theorem witness_PaddedVarintsDecodeToTheSameValue :
    HoldsBytes (st 54 ((varintBytes 127).map (· ||| 0x80#8) ++ List.replicate 8 0x80#8 ++ [0x00#8])).mem 54
      ((varintBytes 127).map (· ||| 0x80#8) ++ List.replicate 8 0x80#8 ++ [0x00#8])
    ∧ varintLen (127#64).toNat + 8 + 1 ≤ 10 ∧ (54#64).toNat + (10#64).toNat ≤ tp.memSize.val := by decide
theorem witness_HdrSerWritesTheHeader : (50#64).toNat + (14#64).toNat ≤ tp.memSize.val ∧ 14 ≤ (14#64).toNat := by
  decide
theorem witness_HdrSerTwiceIsHdrSerOnce :
    Memory.wf (st 0 [1]).mem ∧ ∃ t, exec (.hdrSer 0 14 ⟨0, 0, 0, 0, 0, 0⟩) (st 0 [1]) = .next t :=
  ⟨by decide, _, rfl⟩
theorem witness_HdrDesReturnsTheFields :
    HoldsBytes (st 50 [0x4D, 0x42, 1, 0xFF, 1, 0, 0x39, 0x30, 0, 0, 0x1A, 0, 0, 0]).mem 50
      [0x4D, 0x42, 1, 0xFF, 1, 0, 0x39, 0x30, 0, 0, 0x1A, 0, 0, 0]
    ∧ (0x4D#8).toNat + 256 * (0x42#8).toNat = tp.magic.toNat ∧ (1#8).toNat ≤ tp.maxVersion.toNat := by decide
theorem witness_HdrDesErrorPriority :
    (13#64).toNat < 14 ∧ HoldsBytes (st 0 (List.replicate 14 0)).mem 0 (List.replicate 14 0)
    ∧ fromLE ((List.replicate 14 0).take 2) ≠ tp.magic.toNat
    ∧ fromLE (([0x4D, 0x42, 2] ++ List.replicate 11 0).take 2) = tp.magic.toNat
    ∧ (∀ v, (([0x4D, 0x42, 2] ++ List.replicate 11 0 : List Byte))[2]? = some v → tp.maxVersion.toNat < v.toNat) :=
  ⟨by decide, by decide, by decide, by decide, fun v hv => by simp at hv; subst hv; decide⟩
theorem witness_HeaderRoundTrips :
    (⟨0x424D, 1, 0, 0, 0, 0⟩ : FrameHeader).magic = tp.magic ∧ (1#8).toNat ≤ tp.maxVersion.toNat
    ∧ ∃ t, exec (.hdrDes 0 14) (st 0 ([0x4D, 0x42, 1] ++ List.replicate 11 0)) = .next t
      ∧ t.response = some (.ok (.hdrDes ⟨0x424D, 1, 0, 0, 0, 0⟩ 14)) := ⟨by decide, by decide, _, rfl, by decide⟩
theorem witness_OperationsChangeOnlyTheirOutput :
    (∃ t, exec (.crc32c 0 1) (st 0 [1]) = .next t) ∧ (∃ t, exec (.varintEnc 0 1 5) (st 0 []) = .next t)
    ∧ (∃ t, exec (.varintDec 0 1) (st 0 [5]) = .next t)
    ∧ (∃ t, exec (.hdrSer 0 14 ⟨0, 0, 0, 0, 0, 0⟩) (st 0 []) = .next t)
    ∧ (∃ t, exec (.hdrDes 0 0) (st 0 []) = .next t) := ⟨⟨_, rfl⟩, ⟨_, rfl⟩, ⟨_, rfl⟩, ⟨_, rfl⟩, ⟨_, rfl⟩⟩
theorem witness_ErrorsWriteNothing :
    ∃ t, exec (.varintEnc 0 0 0) (st 0 []) = .next t ∧ t.response = some (.error .bufferTooSmall) := ⟨_, rfl, rfl⟩
theorem witness_EachOperationsErrors :
    rspOf (exec (.varintEnc 0 0 0) (st 0 [])) = some (.error .bufferTooSmall)
    ∧ rspOf (exec (.varintDec 0 0) (st 0 [])) = some (.error .truncated)
    ∧ rspOf (exec (.hdrSer 0 13 ⟨0, 0, 0, 0, 0, 0⟩) (st 0 [])) = some (.error .bufferTooSmall)
    ∧ rspOf (exec (.hdrDes 0 14) (st 0 (List.replicate 14 0))) = some (.error .invalidMagic)
    ∧ rspOf (exec (.hdrDes 0 14) (st 0 ([0x4D, 0x42, 2] ++ List.replicate 11 0)))
      = some (.error .unsupportedVersion)
    ∧ resOf (runCall .getVarbytes (std (dec .bodyInProgress .readingVariable 40) f1)) = some (.error .truncated) := by
  decide
theorem witness_EachOperationsResultFields :
    rspOf (exec (.crc32c 0 0) (st 0 [])) = some (.ok (.crc32c 0))
    ∧ rspOf (exec (.varintEnc 0 1 0) (st 0 [])) = some (.ok (.varintEnc 1))
    ∧ rspOf (exec (.varintDec 0 1) (st 0 [0])) = some (.ok (.varintDec 0 1))
    ∧ rspOf (exec (.hdrSer 0 14 ⟨0, 0, 0, 0, 0, 0⟩) (st 0 [])) = some (.ok (.hdrSer 14))
    ∧ rspOf (exec (.hdrDes 0 14) (st 0 ([0x4D, 0x42, 1] ++ List.replicate 11 0)))
      = some (.ok (.hdrDes ⟨0x424D, 1, 0, 0, 0, 0⟩ 14)) := by decide
theorem witness_ReadOfUnwrittenByteRefused :
    (0#64).toNat + (64#64).toNat ≤ tp.memSize.val ∧ memRead (st 0 [1]).mem (0 + 63) = none
    ∧ refOf (exec (.varintDec 0 10) (st 0 (List.replicate 9 0x80))) = some (.readUnwritten 9)
    ∧ memRead (st 0 (List.replicate 13 0)).mem (0 + 13) = none := by decide
theorem witness_ResponseDependsOnlyOnTheWindow :
    AgreeOn (Instr.crc32c 0 1).window (st 0 [1]).mem (st 0 [1, 2]).mem
    ∧ ∃ t, exec (.crc32c 0 1) (st 0 [1]) = .next t := by
  refine ⟨fun a ha => ?_, _, rfl⟩
  obtain rfl : a = 0 := by have := (Window.holds_iff _ a).1 ha; simp [Instr.window] at this; omega
  decide
theorem witness_TouchedWindowRefused :
    refOf (step (stq 0 [1] [.command (encode (.crc32c 0 1)) [.write 0 [2]]]))
      = some (.windowTouched (.write 0 [2]))
    ∧ refOf (step (stq 0 [] [.command (encode (.varintEnc 0 5 300)) [.read ⟨1, 1⟩]]))
      = some (.windowTouched (.read ⟨1, 1⟩))
    ∧ refOf (step (stq 0 [] [.command (encode (.crc32c 0 0)) [.command []]])) = some .secondCommand
    ∧ refOf (step (stq 0 [] [.command (encode (.varintEnc 0 5 300)) [.read ⟨2, 1⟩, .write 5 [1]]])) = none := by decide
theorem witness_WritesElsewhereCommuteWithTheOperation :
    (Instr.crc32c 0 1).window.overlaps ⟨1, 1⟩ = false
    ∧ ∃ t, step (stq 0 [1] [.command (encode (.crc32c 0 1)) [.write 1 [9]]]) = .next t := ⟨by decide, _, rfl⟩
theorem witness_ParametersNeverWritten : ∃ t, step (stq 0 [] [.hostWrite 0 [1]]) = .next t := ⟨_, rfl⟩
theorem encoderOk_enc40 : EncoderOk tp (enc .writingVariable 40) := by
  constructor <;> decide
theorem decoderOk_dec : DecoderOk tp (dec .bodyInProgress .readingFixed 14) := by
  constructor <;> decide
theorem witness_EveryStepKeepsTheInvariant :
    Inv ((ste (enc .writingVariable 40) [1]).setInputs [.call (.putVarbytes (.literal [1]))])
    ∧ Inv (std (dec .bodyInProgress .readingFixed 14) [1])
    ∧ resOf (step ((ste (enc .writingVariable 40) [1]).setInputs [.call (.putVarbytes (.literal [1]))]))
      = some (.ok .unit) := by
  refine ⟨⟨by decide, by decide, fun e he => ?_, fun d hd => by cases hd⟩,
    ⟨by decide, by decide, fun e he => (by cases he), fun d hd => ?_⟩, by decide⟩
  · cases he; exact encoderOk_enc40
  · cases hd; exact decoderOk_dec
theorem witness_ResetTouchesNothing : (stq 0 [1] [.reset]).inputs = .reset :: [] := rfl
theorem witness_CutOperationIsConfined :
    decode (encode (.varintEnc 54 10 300)) = .ok (.varintEnc 54 10 300, [])
    ∧ (Instr.varintEnc 54 10 300).window.base + (Instr.varintEnc 54 10 300).window.len ≤ tp.memSize.val
    ∧ ∃ t, step (stq 54 [] [.cutByReset (encode (.varintEnc 54 10 300))]) = .next t := ⟨rfl, by decide, _, rfl⟩
theorem witness_HostReadsWhatItWrote :
    62 + ([1, 2] : List Byte).length ≤ tp.memSize.val
    ∧ (stq 0 [] [.hostWrite 62 [1, 2], .hostRead 62 2]).inputs
      = .hostWrite 62 [1, 2] :: .hostRead 62 ([1, 2] : List Byte).length :: [] := ⟨by decide, rfl⟩
theorem witness_EncoderStateErrors :
    (enc .writingFixed 14).state ≠ .created ∧ (newEncoder 0 64).state ≠ .bodyInProgress := by decide
theorem witness_WriterOrderFollowsTheTable :
    (enc .bitmapWritten 15).state = .bodyInProgress ∧ (enc .bitmapWritten 15).writer.state ≠ .writingFixed
    ∧ (enc .writingFixed 15).writer.cursor ≠ (enc .writingFixed 15).writer.bodyStart
    ∧ resOf (runCall (.putVarbytes (.literal [])) (ste (enc .writingFixed 14) [])) = some (.ok .unit)
    ∧ resOf (runCall (.putFixed (.u8 1)) (ste (enc .writingFixed 63) [])) = some (.ok .unit)
    ∧ resOf (runCall (.putBitmap (.b64 1)) (ste (enc .writingFixed 57) [])) = some (.error .bufferTooSmall) := by decide
theorem witness_BeginReservesHeaderAndExtension :
    (60#64).toNat + (4#64).toNat ≤ tp.memSize.val ∧ (newEncoder 50 14).state = .created
    ∧ 14 + 0 ≤ (newEncoder 50 14).cap ∧ (newEncoder 0 13).cap < 14 + 0
    ∧ (newEncoder 50 14).base + (newEncoder 50 14).cap ≤ tp.memSize.val
    ∧ (newEncoder 0 15).cap = 14 + (varintLen 0 + 0) ∧ (enc .closed 14).state ≠ .created := by decide
theorem witness_BeginReservesHeaderAndExtension_overflow :
    2 ^ 64 ≤ (0xFFFFFFFFFFFFFFF1#64).toNat + (15#64).toNat
    ∧ (0xFFFFFFFFFFFFFFF1#64).toNat + (15#64).toNat ≤ topPar.memSize.val := by decide
theorem witness_PutFixedAndBitmapWriteAtTheCursor :
    (enc .writingFixed 56).state = .bodyInProgress ∧ (enc .writingFixed 56).writer.state = .writingFixed
    ∧ (FixedValue.i64 0).type.width ≤ (enc .writingFixed 56).writer.limit - (enc .writingFixed 56).writer.cursor
    ∧ (enc .writingFixed 57).writer.limit - (enc .writingFixed 57).writer.cursor < (FixedValue.i64 0).type.width
    ∧ (Bitmap.b8 0).width.bytes ≤ (enc .writingFixed 63).writer.limit - (enc .writingFixed 63).writer.cursor
    ∧ (enc .writingFixed 64).writer.limit - (enc .writingFixed 64).writer.cursor < (Bitmap.b8 0).width.bytes := by decide
theorem witness_PutVarbytesWritesLengthAndBytes :
    tp.maxVarbytesLen.toNat < (VarSource.window ⟨0, 21⟩).length
    ∧ (VarSource.literal [1, 2]).length ≤ tp.maxVarbytesLen.toNat
    ∧ (enc .bitmapWritten 62).writer.limit - (enc .bitmapWritten 62).writer.cursor < varintLen 2 + 2
    ∧ varintLen 2 + 2 ≤ (enc .bitmapWritten 61).writer.limit - (enc .bitmapWritten 61).writer.cursor
    ∧ (enc .bitmapWritten 61).writer.limit ≤ tp.memSize.val
    ∧ SourceGives tp (st 59 [1, 2]).mem ⟨61, varintLen 2 + 2⟩ [1, 2] (.literal [1, 2])
    ∧ (⟨61, varintLen 2 + 2⟩ : Window).overlaps ⟨60, 2⟩ = true ∧ 60 + 2 ≤ tp.memSize.val
    ∧ SourceGives tp (st 59 [1, 2]).mem ⟨61, varintLen 2 + 2⟩ [1, 2] (.window ⟨59, 2⟩) := by
  refine ⟨by decide, by decide, by decide, by decide, by decide, rfl, by decide, by decide, ?_⟩
  exact ⟨by decide, by decide, by decide, by decide⟩
theorem witness_FinishBackPatchesThenSums :
    EncoderOk tp (enc .writingVariable 40) ∧ EncoderOk tp (enc .writingVariable 61)
    ∧ (enc .writingVariable 40).state = .bodyInProgress
    ∧ f1span.length = (enc .writingVariable 40).writer.cursor - (enc .writingVariable 40).base
    ∧ HoldsBytes (st 0 f1span).mem 0 f1span
    ∧ (enc .writingVariable 61).writer.limit - (enc .writingVariable 61).writer.cursor < 4 :=
  ⟨encoderOk_enc40, (by constructor <;> decide), by decide, by decide, by decide, by decide⟩
theorem witness_FinishOverflow :
    ∃ (p : Parameters) (e : Encoder), EncoderOk p e ∧ e.state = .bodyInProgress
      ∧ 2 ^ 32 - 1 < e.writer.cursor - e.writer.bodyStart :=
  ⟨⟨0, 0, ⟨2 ^ 33, by decide⟩, 0⟩,
    ⟨.bodyInProgress, 0, 2 ^ 33, ⟨0, 0, 0, 0, 0, 0⟩, 0, ⟨.writingVariable, 14, 14 + 2 ^ 32, 2 ^ 33⟩⟩, by constructor <;> decide, by decide, by decide⟩
theorem witness_FailedHostCallsChangeNothing :
    ∃ t, runCall .openBody (std (newDecoder 0 0) []) = .next t ∧ t.callResult = some (.error .invalidState) :=
  ⟨_, rfl, rfl⟩
theorem witness_HeaderCallLocatesTheFrame :
    (newDecoder 0 44).state = .created ∧ HoldsBytes (st 0 f1).mem 0 (f1.take 14)
    ∧ (headerOf (f1.take 14)).magic = tp.magic ∧ (headerOf (f1.take 14)).flags.getLsbD 0 = false
    ∧ 14 + (headerOf (f1.take 14)).bodyLen.toNat + 4 = 44
    ∧ resOf (runCall .readHeader (std (newDecoder 0 43) f1)) = some (.error .lengthMismatch)
    ∧ resOf (runCall .readHeader (std (newDecoder 0 13) f1)) = some (.error .truncated)
    ∧ resOf (runCall .readHeader (std (newDecoder 0 14) (f1.set 3 1))) = some (.error .truncated)
    ∧ resOf (runCall .readHeader (std (newDecoder 0 19) ((f1.set 3 1).set 10 0)))
      = some (.ok (.header ⟨0x424D, 1, 1, 1, 12345, 0⟩ (some ⟨15, 0⟩))) := by decide
theorem witness_VerifyComparesChecksumAndTrailer :
    (dec .headerRead .readingFixed 14).state = .headerRead ∧ HoldsBytes (st 0 f1).mem 0 f1span
    ∧ HoldsBytes (st 0 f1).mem 40 [0x85, 0x9D, 0x7B, 0xEE]
    ∧ leBytes 4 (crc32c f1span).toNat = [0x85, 0x9D, 0x7B, 0xEE] := by decide +kernel
theorem witness_DecoderStateErrors :
    (newDecoder 0 0).state ≠ .headerRead ∧ (newDecoder 0 0).state ≠ .checksumVerified
    ∧ (dec .checksumVerified .readingFixed 14).state ≠ .created := by decide
theorem witness_BodyOnlyAfterVerification :
    resOf (step ((std (dec .headerRead .readingFixed 14) f1).setInputs [.call .verifyCrc32c])) = some (.ok .unit)
    ∧ resOf (step ((std (dec .checksumVerified .readingFixed 14) f1).setInputs [.call .openBody]))
      = some (.ok .unit) := by decide +kernel
theorem witness_ReaderOrderMirrorsTheWriter :
    (dec .bodyInProgress .bitmapRead 35).reader.state ≠ .readingFixed
    ∧ (dec .bodyInProgress .readingFixed 15).reader.cursor ≠ (dec .bodyInProgress .readingFixed 15).reader.bodyStart
    ∧ resOf (runCall (.getFixed .u64) (std (dec .bodyInProgress .readingFixed 14) f1))
      = some (.ok (.fixed (.u64 1000000000)))
    ∧ resOf (runCall .skipVarbytes (std (dec .bodyInProgress .bitmapRead 35) f1)) = some (.ok .unit) := by
  decide
theorem witness_ReaderReadsFixedFieldsAndBitmap :
    (dec .bodyInProgress .readingFixed 36).reader.bodyEnd - (dec .bodyInProgress .readingFixed 36).reader.cursor
      = FixedType.u32.width
    ∧ HoldsBytes (st 0 f1).mem 36 [0x41, 0x41, 0x50, 0x4C]
    ∧ (dec .bodyInProgress .readingFixed 40).reader.bodyEnd - (dec .bodyInProgress .readingFixed 40).reader.cursor
      < BitmapWidth.w8.bytes := by decide
theorem witness_VarbytesAreReturnedAsViews :
    IsVarint [0x04] ∧ HoldsBytes (st 0 f1).mem 35 [0x04] ∧ varintNumber [0x04] = 4
    ∧ resOf (runCall .getVarbytes (std (dec .bodyInProgress .bitmapRead 35) (f1.set 35 0x05)))
      = some (.error .truncated) :=
  ⟨⟨⟨0x04, rfl, by decide⟩, by decide, by decide, by decide⟩, by decide, by decide, by decide⟩
/-- The clauses on a failing length varint: cut by the body's end, too long, and no byte left (R205). -/
theorem witness_VarbytesAreReturnedAsViews_errors :
    opVarintDec tp (st 0 (f1.take 35 ++ List.replicate 5 0x80)).mem 35 (40 - 35) = .error .truncated
    ∧ opVarintDec tp (st 14 (List.replicate 11 0x80)).mem 14 (40 - 14) = .error .overflow
    ∧ resOf (runCall .getVarbytes (std (dec .bodyInProgress .readingFixed 14)
        (f1.take 14 ++ List.replicate 11 0x80))) = some (.error .overflow)
    ∧ (dec .bodyInProgress .readingVariable 40).reader.cursor = (dec .bodyInProgress .readingVariable 40).reader.bodyEnd
    ∧ resOf (runCall .skipVarbytes (std (dec .bodyInProgress .readingVariable 40) f1))
      = some (.error .truncated) := by decide
theorem witness_TruncatedFramesAreRejected :
    HoldsBytes (st 0 f1).mem 0 (f1.take 14) ∧ (newDecoder 0 14).len < 14 + (headerOf (f1.take 14)).bodyLen.toNat + 4
    ∧ resOf (runCall .readHeader (std (newDecoder 0 14) f1)) = some (.error .lengthMismatch)
    ∧ resOf (runCall .readHeader (std (newDecoder 0 15) ((f1.set 3 1).set 14 0x80)))
      = some (.error .truncated) := by decide
theorem witness_FinishedFramesDecode :
    headerOf (f1span.take 14) = { (enc .writingVariable 40).header with bodyLen := 26 }
    ∧ headerOf ((f1span.take 10 ++ [0, 0, 0, 0] ++ f1span.drop 14).take 14) = (enc .writingVariable 40).header
    ∧ (enc .writingVariable 40).header.version.toNat ≤ tp.maxVersion.toNat
    ∧ (enc .writingVariable 40).header.flags.getLsbD 0 = false ∧ 40 + 4 - 0 < 2 ^ 64 := by decide

end Sys2Proof.Tests
end

section
/-! SUPPORT. What one operation, one input and one host call can do to the state, each said once, and the proofs of the
statements about the state (10_state). -/

namespace Sys2Proof.Machine

/-! ### Commands: `exec` of each unfolds to the response to one operation -/

section
variable {α : Type} {s t : State} {fields : α → Result} {x : OpResult α}

/-- A response touches nothing but `MEM` and itself (10_state R20). -/
theorem onlyBlock_of_respond (h : respond s fields x = .next t) : OnlyBlock s t := by
  rcases respond_eq_next.1 h with ⟨a, m, -, rfl⟩ | ⟨k, -, rfl⟩
  · exact ⟨rfl, rfl, rfl, rfl, rfl, rfl⟩
  · exact ⟨rfl, rfl, rfl, rfl, rfl, rfl⟩

/-- `MEM` after a response is the result's, or after an error what it was (60_exceptions R247). -/
theorem mem_of_respond (h : respond s fields x = .next t) :
    (∃ a, x = .done a t.mem) ∨ (∃ k, x = .error k ∧ t.mem = s.mem) := by
  rcases respond_eq_next.1 h with ⟨a, m, hx, rfl⟩ | ⟨k, hx, rfl⟩
  · exact .inl ⟨a, hx⟩
  · exact .inr ⟨k, hx, rfl⟩

/-- A response to an operation that leaves `MEM` alone leaves it alone. -/
theorem mem_eq_of_respond (h : respond s fields x = .next t) (hx : ∀ a m, x = .done a m → m = s.mem) :
    t.mem = s.mem := by
  rcases mem_of_respond h with ⟨a, ha⟩ | ⟨k, -, hm⟩
  · exact hx a _ ha
  · exact hm

/-- An answered operation has its window inside `MEM` (20_memory R49). -/
theorem inside_of_respond {p : Parameters} {w : Window} (h : respond s fields (inWindow p w x) = .next t) :
    w.base + w.len ≤ p.memSize.val := by
  by_contra hw
  rw [inWindow_of_lt (by omega)] at h
  cases h

end

/-- The one error of `HDR_SER` (42_header R141). -/
theorem opHdrSer_eq_error {p : Parameters} {m : Memory} {base cap : Nat} {h : FrameHeader} {k : ErrorKind} :
    opHdrSer p m base cap h = .error k ↔ base + cap ≤ p.memSize.val ∧ cap < 14 ∧ k = .bufferTooSmall := by
  unfold opHdrSer
  rw [inWindow_eq_error]
  refine and_congr_right fun _ => ?_
  split
  · simp_all [eq_comm]
  · simp_all

/-- `HDR_DES` writes nothing (42_header R146). -/
theorem opHdrDes_mem {p : Parameters} {m m' : Memory} {base avail : Nat} {r : FrameHeader × Nat}
    (h : opHdrDes p m base avail = .done r m') : m' = m := by
  obtain ⟨-, -, -, hm, -⟩ := opHdrDes_eq_done.1 h
  exact hm

/-- `CRC32C` writes nothing (40_crc32c R90). -/
theorem opCrc32c_mem {p : Parameters} {m m' : Memory} {base len : Nat} {c : BitVec 32}
    (h : opCrc32c p m base len = .done c m') : m' = m := by
  obtain ⟨-, hm, -⟩ := opCrc32c_eq_done.1 h
  exact hm

section
variable {i : Instr} {s t : State}

/-- An operation touches nothing but `MEM` and the response (10_state R20). -/
theorem exec_onlyBlock (h : exec i s = .next t) : OnlyBlock s t := by
  cases i <;> exact onlyBlock_of_respond h

/-- An answered command has its window inside `MEM` (20_memory R49). -/
theorem exec_window_inside (h : exec i s = .next t) : i.window.base + i.window.len ≤ s.cfg.memSize.val := by
  cases i <;> exact inside_of_respond h

/-- An operation writes as many bytes as its output range has, at its base, and nothing else of `MEM` (20_memory
R46). -/
theorem exec_mem (h : exec i s = .next t) :
    ∃ bs, bs.length = (outputRange i).len ∧ t.mem = writeBytes s.mem (outputRange i).base bs := by
  cases i with
  | crc32c base len => exact ⟨[], rfl, mem_eq_of_respond h fun _ _ hx => opCrc32c_mem hx⟩
  | varintEnc base cap value =>
    simp only [outputRange]
    rcases mem_of_respond h with ⟨a, hx⟩ | ⟨k, hx, hm⟩
    · obtain ⟨-, hc, -, hm⟩ := opVarintEnc_eq_done.1 hx
      exact ⟨varintBytes value, by simp [Nat.not_lt.2 hc], hm⟩
    · obtain ⟨-, hc, -⟩ := opVarintEnc_eq_error.1 hx
      exact ⟨[], by simp [hc], hm⟩
  | varintDec base avail => exact ⟨[], rfl, mem_eq_of_respond h fun _ _ hx => (opVarintDec_eq_done hx).1⟩
  | hdrSer base cap header =>
    simp only [outputRange]
    rcases mem_of_respond h with ⟨a, hx⟩ | ⟨k, hx, hm⟩
    · obtain ⟨-, hc, -, hm⟩ := opHdrSer_eq_done.1 hx
      exact ⟨headerBytes header, by simp [Nat.not_lt.2 hc], hm⟩
    · obtain ⟨-, hc, -⟩ := opHdrSer_eq_error.1 hx
      exact ⟨[], by simp [hc], hm⟩
  | hdrDes base avail => exact ⟨[], rfl, mem_eq_of_respond h fun _ _ hx => opHdrDes_mem hx⟩

/-- The output range of a command lies at the front of its window (20_memory R46). -/
theorem outputRange_within_window (i : Instr) :
    (outputRange i).base = i.window.base ∧ (outputRange i).len ≤ i.window.len := by
  cases i with
  | varintEnc base cap value => refine ⟨rfl, ?_⟩; simp only [outputRange, Instr.window]; split <;> omega
  | hdrSer base cap header => refine ⟨rfl, ?_⟩; simp only [outputRange, Instr.window]; split <;> omega
  | crc32c | varintDec | hdrDes => exact ⟨rfl, Nat.zero_le _⟩

end

/-- A write of at most `n` bytes leaves everything outside the window of `n` bytes as it was. -/
theorem sameOutside_writeBytes_of_le (m : Memory) (addr : Nat) {bs : List Byte} {n : Nat} (h : bs.length ≤ n) :
    SameOutside ⟨addr, n⟩ m (writeBytes m addr bs) := by
  intro a ha
  rw [Window.holds_eq_false] at ha
  exact memRead_writeBytes_outside m addr bs (by simp only at ha; omega)

/-- Settles O29: the output range bounds the bytes written, and a reading operation has an empty one. -/
theorem operationsChangeOnlyTheirOutput : Obligations.OperationsChangeOnlyTheirOutput := by
  unfold Obligations.OperationsChangeOnlyTheirOutput
  intro i s t h
  refine ⟨exec_onlyBlock h, ?_⟩
  obtain ⟨bs, hl, hm⟩ := exec_mem h
  cases i with
  | crc32c | varintDec | hdrDes =>
    obtain rfl := List.length_eq_zero_iff.1 hl
    exact hm
  | varintEnc base cap value =>
    refine hm ▸ sameOutside_writeBytes_of_le _ _ ?_
    simp only [outputRange] at hl
    split at hl <;> omega
  | hdrSer base cap header =>
    refine hm ▸ sameOutside_writeBytes_of_le _ _ ?_
    simp only [outputRange, Config.hdrSize] at hl
    split at hl <;> omega

/-! ### Two memories that agree on a window -/

/-- Two outcomes of an operation that cannot be told apart through its window: the same result with memories that agree
there, the same error, or the same refusal. -/
inductive SameResult {α : Type} (w : Window) : OpResult α → OpResult α → Prop where
  | done (a : α) {m m' : Memory} (h : AgreeOn w m m') : SameResult w (.done a m) (.done a m')
  | error (k : ErrorKind) : SameResult w (.error k) (.error k)
  | refused (r : Refusal) : SameResult w (.refused r) (.refused r)

/-- The same write leaves a byte that read the same before reading the same. -/
theorem memRead_writeBytes_congr {m m' : Memory} {a : Nat} (h : memRead m' a = memRead m a) (addr : Nat)
    (bs : List Byte) : memRead (writeBytes m' addr bs) a = memRead (writeBytes m addr bs) a := by
  induction bs generalizing m m' addr with
  | nil => exact h
  | cons b bs ih =>
    refine ih ?_ (addr + 1)
    by_cases ha : a = addr
    · subst ha
      rw [memRead_memWrite_self, memRead_memWrite_self]
    · rw [memRead_memWrite_ne _ _ ha, memRead_memWrite_ne _ _ ha, h]

section
variable {α : Type} {p : Parameters} {w : Window} {m m' : Memory}

theorem AgreeOn.writeBytes_congr (h : AgreeOn w m m') (addr : Nat) (bs : List Byte) :
    AgreeOn w (writeBytes m addr bs) (writeBytes m' addr bs) := fun a ha =>
  memRead_writeBytes_congr (h a ha) addr bs

theorem SameResult.inWindow {v : Window} {x x' : OpResult α} (h : SameResult w x x') :
    SameResult w (inWindow p v x) (inWindow p v x') := by
  by_cases hv : v.base + v.len ≤ p.memSize.val
  · rwa [inWindow_of_le hv, inWindow_of_le hv]
  · rw [inWindow_of_lt (by omega), inWindow_of_lt (by omega)]
    exact .refused _

/-- A read at the front of the window gives the same bytes, or misses the same byte. -/
theorem SameResult.withBytes {base len n : Nat} {f f' : List Byte → OpResult α} (h : AgreeOn ⟨base, len⟩ m m')
    (hn : n ≤ len) (hf : ∀ bs, SameResult ⟨base, len⟩ (f bs) (f' bs)) :
    SameResult ⟨base, len⟩ (withBytes m base n f) (withBytes m' base n f') := by
  have hr : readBytes m' base n = readBytes m base n :=
    readBytes_congr fun a h1 h2 => h a ((Window.holds_iff _ _).2 ⟨h1, Nat.lt_of_lt_of_le h2 (by simp only; omega)⟩)
  unfold Machine.withBytes
  rw [hr]
  cases readBytes m base n with
  | ok bs => exact hf bs
  | error a => exact .refused _

/-- The loop of `VARINT_DEC` reads no byte outside `(base, avail)` (41_varint R118). -/
theorem varintDecLoop_same {base avail : Nat} (h : AgreeOn ⟨base, avail⟩ m m') (left i : Nat) (acc : BitVec 64) :
    SameResult ⟨base, avail⟩ (varintDecLoop m base avail left i acc) (varintDecLoop m' base avail left i acc) := by
  induction left generalizing i acc with
  | zero =>
    simp only [varintDecLoop]
    split <;> exact .error _
  | succ left ih =>
    simp only [varintDecLoop]
    split
    · exact .error _
    · next hi =>
      rw [h (base + i) ((Window.holds_iff _ _).2 ⟨by simp, by simp only; omega⟩)]
      cases memRead m (base + i) with
      | none => exact .refused _
      | some b =>
        dsimp only
        split
        · exact .error _
        · split
          · exact .done _ h
          · exact ih _ _

/-- The checks of `HDR_DES` do not look at `MEM`. -/
theorem checkHeader_same (h : AgreeOn w m m') (hdr : FrameHeader) :
    SameResult w (checkHeader p m hdr) (checkHeader p m' hdr) := by
  unfold checkHeader
  split
  · exact .error _
  · split
    · exact .error _
    · exact .done _ h

theorem opCrc32c_same {base len : Nat} (h : AgreeOn ⟨base, len⟩ m m') :
    SameResult ⟨base, len⟩ (opCrc32c p m base len) (opCrc32c p m' base len) :=
  .inWindow (.withBytes h le_rfl fun _ => .done _ h)

theorem opVarintEnc_same (h : AgreeOn w m m') (base cap : Nat) (value : BitVec 64) :
    SameResult w (opVarintEnc p m base cap value) (opVarintEnc p m' base cap value) := by
  refine .inWindow ?_
  split
  · exact .error _
  · exact .done _ (h.writeBytes_congr _ _)

theorem opVarintDec_same {base avail : Nat} (h : AgreeOn ⟨base, avail⟩ m m') :
    SameResult ⟨base, avail⟩ (opVarintDec p m base avail) (opVarintDec p m' base avail) :=
  .inWindow (varintDecLoop_same h _ _ _)

theorem opHdrSer_same (h : AgreeOn w m m') (base cap : Nat) (hdr : FrameHeader) :
    SameResult w (opHdrSer p m base cap hdr) (opHdrSer p m' base cap hdr) := by
  refine .inWindow ?_
  split
  · exact .error _
  · exact .done _ (h.writeBytes_congr _ _)

theorem opHdrDes_same {base avail : Nat} (h : AgreeOn ⟨base, avail⟩ m m') :
    SameResult ⟨base, avail⟩ (opHdrDes p m base avail) (opHdrDes p m' base avail) := by
  refine .inWindow ?_
  split
  · exact .error _
  · next hl => exact .withBytes h (Nat.not_lt.1 hl) fun _ => checkHeader_same h _

/-- Results that cannot be told apart are answered alike. -/
theorem SameResult.respond {x x' : OpResult α} {fields : α → Result} {s s' t : State}
    (hx : SameResult w x x') (hs : AgreeOn w s.mem s'.mem) (ht : respond s fields x = .next t) :
    ∃ t', respond s' fields x' = .next t' ∧ t'.response = t.response ∧ AgreeOn w t.mem t'.mem := by
  cases hx with
  | done a h => cases ht; exact ⟨_, rfl, rfl, h⟩
  | error k => cases ht; exact ⟨_, rfl, rfl, hs⟩
  | refused r => cases ht

end

/-- Settles O35: on memories that agree on the window each operation has the same result. -/
theorem responseDependsOnlyOnTheWindow : Obligations.ResponseDependsOnlyOnTheWindow := by
  unfold Obligations.ResponseDependsOnlyOnTheWindow
  intro i s s' t hc ha h
  obtain ⟨cfg, mem, inputs, response, encoder, decoder, callResult, freeCount⟩ := s'
  obtain rfl : cfg = s.cfg := hc
  cases i with
  | crc32c base len => exact (opCrc32c_same ha).respond ha h
  | varintEnc base cap value => exact (opVarintEnc_same ha _ _ _).respond ha h
  | varintDec base avail => exact (opVarintDec_same ha).respond ha h
  | hdrSer base cap header => exact (opHdrSer_same ha _ _ _).respond ha h
  | hdrDes base avail => exact (opHdrDes_same ha).respond ha h

/-! ### One input -/

/-- A record that decodes to a command with nothing left over is that command (log 1). -/
theorem parseCommand_of_decode {record : List Byte} {i : Instr} (h : decode record = .ok (i, [])) :
    parseCommand record = .ok i := by
  simp [parseCommand, h]

/-- With no access by others an outcome stands as it is. -/
@[simp] theorem thenDo_afterAccesses_nil (x : Host.Outcome State Fault Refusal) : thenDo x (afterAccesses []) = x := by
  cases x <;> rfl

/-- A command with no access by others is the execution of the instruction it decodes to. -/
theorem runCommand_alone {record : List Byte} {i : Instr} (h : decode record = .ok (i, [])) (s : State) :
    runCommand record [] s = exec i s := by
  simp [runCommand, parseCommand_of_decode h]

/-- A command is answered only by its execution and the accesses of the others after it. -/
theorem runCommand_eq_next {record : List Byte} {during : List HostAccess} {s t : State}
    (h : runCommand record during s = .next t) :
    ∃ i u m, parseCommand record = .ok i ∧ exec i s = .next u ∧ otherAccesses u.cfg u.mem during = .ok m
      ∧ t = u.setMem m := by
  unfold runCommand at h
  split at h
  · cases h
  · next i hi =>
    split at h
    · cases h
    · cases he : exec i s with
      | next u =>
        rw [he, thenDo_next] at h
        unfold afterAccesses at h
        split at h
        · next m hm => cases h; exact ⟨i, u, m, hi, he, hm, rfl⟩
        · cases h
      | fault r => cases r
      | refused r => rw [he] at h; cases h

/-- What a command cut short by a reset leaves (70_reset_and_hazards R272). -/
theorem runCut_eq_next {record : List Byte} {s t : State} (h : runCut record s = .next t) :
    ∃ i, parseCommand record = .ok i ∧ i.window.base + i.window.len ≤ s.cfg.memSize.val
      ∧ t = ((s.setMem (writeBytes s.mem (outputRange i).base
          (freeBytes s.freeCount (outputRange i).len))).setResponse none).setFreeCount
          (s.freeCount + (outputRange i).len) := by
  unfold runCut at h
  split at h
  · cases h
  · next i hi =>
    split at h
    · next hw => cases h; exact ⟨i, hi, (windowInside_iff _ _).1 hw, rfl⟩
    · cases h

@[simp] theorem freeBytes_length (k n : Nat) : (freeBytes k n).length = n := by
  simp [freeBytes]

/-- A host read leaves the bytes read as the last outcome and nothing else (20_memory R44). -/
theorem runHostRead_eq_next {base n : Nat} {s t : State} (h : runHostRead base n s = .next t) :
    ∃ bs, t = s.setCallResult (some (.ok (.bytes bs))) := by
  unfold runHostRead at h
  split at h
  · split at h
    · next bs _ => cases h; exact ⟨bs, rfl⟩
    · cases h
  · cases h

/-- A host write lies inside `MEM` and changes its bytes only (20_memory R45, R49). -/
theorem runHostWrite_eq_next {base : Nat} {bytes : List Byte} {s t : State} (h : runHostWrite base bytes s = .next t) :
    base + bytes.length ≤ s.cfg.memSize.val ∧ t = s.setMem (writeBytes s.mem base bytes) := by
  unfold runHostWrite at h
  split at h
  · next hw => cases h; exact ⟨(windowInside_iff _ _).1 hw, rfl⟩
  · cases h

/-- Settles O1: a step is what its oldest input asks for. -/
theorem stepRunsDecodedCommand : Obligations.StepRunsDecodedCommand := by
  unfold Obligations.StepRunsDecodedCommand
  refine ⟨fun s record i rest hi hd => ?_, fun s c rest hi => ?_, fun s hi => step_of_no_input hi⟩
  · rw [step_of_input hi]
    exact runCommand_alone hd _
  · rw [step_of_input hi]
    rfl

/-- Settles O41: `runReset` gives back the state it is given. -/
theorem resetTouchesNothing : Obligations.ResetTouchesNothing := by
  unfold Obligations.ResetTouchesNothing
  intro s rest hi
  rw [step_of_input hi]
  rfl

/-! ### The parameters -/

theorem settleEncoder_cfg {s t : State} {x : OpResult (CallValue × Encoder)} (h : settleEncoder s x = .next t) :
    t.cfg = s.cfg := by
  rcases settleEncoder_eq_next.1 h with ⟨v, e, m, -, rfl⟩ | ⟨k, -, rfl⟩
  · rfl
  · rfl

theorem settleDecoder_cfg {s t : State} {x : OpResult (CallValue × Decoder)} (h : settleDecoder s x = .next t) :
    t.cfg = s.cfg := by
  rcases settleDecoder_eq_next.1 h with ⟨v, d, m, -, rfl⟩ | ⟨k, -, rfl⟩
  · rfl
  · rfl

/-- A host call settles an encoder's or a decoder's outcome (48_frame_context R170). -/
theorem runCall_settles {c : HostCall} {s t : State} (h : runCall c s = .next t) :
    (∃ x, settleEncoder s x = .next t) ∨ (∃ x, settleDecoder s x = .next t) := by
  cases c with
  | openEncoder => exact .inl ⟨_, h⟩
  | openDecoder => exact .inr ⟨_, h⟩
  | beginFrame | putFixed | putBitmap | putVarbytes | finishCrc32c =>
    obtain ⟨e, -, hx⟩ := onEncoder_eq_next.1 h
    exact .inl ⟨_, hx⟩
  | readHeader | verifyCrc32c | openBody | getFixed | getBitmap | getVarbytes | skipVarbytes =>
    obtain ⟨d, -, hx⟩ := onDecoder_eq_next.1 h
    exact .inr ⟨_, hx⟩

theorem runCall_cfg {c : HostCall} {s t : State} (h : runCall c s = .next t) : t.cfg = s.cfg := by
  rcases runCall_settles h with ⟨x, hx⟩ | ⟨x, hx⟩
  · exact settleEncoder_cfg hx
  · exact settleDecoder_cfg hx

theorem runInput_cfg {x : Input} {s t : State} (h : runInput x s = .next t) : t.cfg = s.cfg := by
  cases x with
  | command record during =>
    obtain ⟨i, u, m, -, he, -, rfl⟩ := runCommand_eq_next h
    exact (exec_onlyBlock he).cfg
  | cutByReset record =>
    obtain ⟨i, -, -, rfl⟩ := runCut_eq_next h
    rfl
  | reset => cases h; rfl
  | hostRead base n =>
    obtain ⟨bs, rfl⟩ := runHostRead_eq_next h
    rfl
  | hostWrite base bytes =>
    obtain ⟨-, rfl⟩ := runHostWrite_eq_next h
    rfl
  | call c => exact runCall_cfg h

/-- Settles O38: no input writes a parameter. -/
theorem parametersNeverWritten : Obligations.ParametersNeverWritten := by
  unfold Obligations.ParametersNeverWritten
  intro s t h
  cases hi : s.inputs with
  | nil => rw [step_of_no_input hi] at h; cases h; rfl
  | cons x rest => rw [step_of_input hi] at h; exact (runInput_cfg h).trans (s.setInputs_cfg rest)

end Sys2Proof.Machine
end

section
/-! SUPPORT. What each host call leaves when it returns a value (48_frame_context), and the proof that every step keeps
the invariant (10_state R27, R31). -/

namespace Sys2Proof.Machine

/-! ### When an outcome is a result -/

section
variable {α : Type} {a : α} {m m' : Memory}

/-- A check that ends in an error is passed by a result. -/
theorem ite_error_eq_done {c : Prop} [Decidable c] {k : ErrorKind} {x : OpResult α} :
    (if c then OpResult.error k else x) = .done a m ↔ ¬ c ∧ x = .done a m := by
  split <;> simp_all

/-- A result that needs the bytes of a window comes of bytes that are there. -/
theorem withBytes_eq_done {addr n : Nat} {f : List Byte → OpResult α} :
    withBytes m addr n f = .done a m' ↔ ∃ bs, bs.length = n ∧ HoldsBytes m addr bs ∧ f bs = .done a m' := by
  constructor
  · intro h
    rcases withBytes_cases m addr n f with ⟨bs, hl, hb, he⟩ | ⟨x, -, -, -, he⟩
    · exact ⟨bs, hl, hb, he ▸ h⟩
    · rw [he] at h
      cases h
  · rintro ⟨bs, hl, hb, hf⟩
    rw [withBytes_of_holds hl hb, hf]

/-- A result that needs the bytes of a source comes of bytes the source gives (48_frame_context R187, 93 U17). -/
theorem withSource_eq_done {p : Parameters} {dest : Window} {f : List Byte → OpResult α} {src : VarSource}
    (h : withSource p m dest f src = .done a m') : ∃ bs, SourceGives p m dest bs src ∧ f bs = .done a m' := by
  cases src with
  | literal lit => exact ⟨lit, rfl, h⟩
  | window w =>
    obtain ⟨hw, h⟩ := inWindow_eq_done.1 h
    split at h
    · cases h
    · next ho =>
      obtain ⟨bs, hl, hb, hf⟩ := withBytes_eq_done.1 h
      exact ⟨bs, ⟨hl.symm, hw, by simpa using ho, hb⟩, hf⟩

theorem SourceGives.length {p : Parameters} {dest : Window} {bs : List Byte} {src : VarSource}
    (h : SourceGives p m dest bs src) : src.length = bs.length := by
  cases src with
  | literal lit => exact congrArg List.length h
  | window w => exact h.1

end

/-! ### The ordering tables -/

section
variable {ws ws' : WriterState} {rs rs' : ReaderState} {untouched : Bool}

theorem writerAfterFixed_eq_some : writerAfterFixed ws = some ws' ↔ ws = .writingFixed ∧ ws' = .writingFixed := by
  cases ws <;> simp [writerAfterFixed, eq_comm]

theorem writerAfterBitmap_eq_some : writerAfterBitmap ws = some ws' ↔ ws = .writingFixed ∧ ws' = .bitmapWritten := by
  cases ws <;> simp [writerAfterBitmap, eq_comm]

/-- Variable fields leave the writer in WritingVariable (48_frame_context R182). -/
theorem writerAfterVarbytes_eq (h : writerAfterVarbytes untouched ws = some ws') : ws' = .writingVariable := by
  cases ws with
  | writingFixed => simp only [writerAfterVarbytes] at h; split at h <;> cases h; rfl
  | bitmapWritten | writingVariable => cases h; rfl
  | closed => cases h

/-- No reader call leaves the reader Closed (48_frame_context R203). -/
theorem readerAfterFixed_ne_closed (h : readerAfterFixed rs = some rs') : rs' ≠ .closed := by
  cases rs <;> cases h
  decide

theorem readerAfterBitmap_ne_closed (h : readerAfterBitmap rs = some rs') : rs' ≠ .closed := by
  cases rs <;> cases h
  decide

theorem readerAfterVarbytes_ne_closed (h : readerAfterVarbytes untouched rs = some rs') : rs' ≠ .closed := by
  cases rs with
  | readingFixed => simp only [readerAfterVarbytes] at h; split at h <;> cases h; decide
  | bitmapRead | readingVariable => cases h; decide
  | closed => cases h

end

/-! ### What each encoder call leaves -/

section
variable {p : Parameters} {m m' : Memory} {e e' : Encoder} {v : CallValue}

theorem openEncoder_eq_done {base cap : Nat} :
    openEncoder p m base cap = .done (v, e') m' ↔
      base + cap ≤ p.memSize.val ∧ base + cap < 2 ^ 64 ∧ v = .unit ∧ e' = newEncoder base cap ∧ m' = m := by
  unfold openEncoder
  rw [inWindow_eq_done, checkedSum_eq_done]
  simp [eq_comm, and_assoc]

/-- The bytes `begin` writes from `F` on: the header and, if flagged, the extension region (48_frame_context R185). -/
def beginBytes (p : Parameters) (h : FrameHeader) (ext : List Byte) : List Byte :=
  headerBytes (placeholderHeader p h) ++
    if extFlag h then varintBytes (BitVec.ofNat 64 ext.length) ++ ext else []

/-- A length below `2^64` is the length its 64-bit varint says. -/
theorem varintBytes_ofNat_length {n : Nat} (hn : n < 2 ^ 64) :
    (varintBytes (BitVec.ofNat 64 n)).length = varintLen n := by
  rw [varintBytes_length, BitVec.toNat_ofNat, Nat.mod_eq_of_lt hn]

theorem beginBytes_length {h : FrameHeader} {ext : List Byte} (hn : ext.length < 2 ^ 64) :
    (beginBytes p h ext).length = beginNeed h ext := by
  unfold beginBytes beginNeed
  split
  · simp only [List.length_append, headerBytes_length, varintBytes_ofNat_length hn, Config.hdrSize, Nat.add_assoc]
  · simp [Config.hdrSize]

theorem hdrSize_le_beginNeed (h : FrameHeader) (ext : List Byte) : 14 ≤ beginNeed h ext := by
  unfold beginNeed
  split <;> simp only [Config.hdrSize] <;> omega

/-- `begin` writes the header and the extension region at `F` and reserves them (48_frame_context R185). -/
theorem beginFrame_eq_done {h : FrameHeader} {ext : List Byte} (hc : e.cap < 2 ^ 64)
    (hd : beginFrame p m e h ext = .done (v, e') m') :
    e.state = .created ∧ beginNeed h ext ≤ e.cap ∧ v = .unit
      ∧ e' = e.begun (placeholderHeader p h) (beginNeed h ext - 14)
      ∧ (beginBytes p h ext).length = beginNeed h ext ∧ m' = writeBytes m e.base (beginBytes p h ext) := by
  unfold beginFrame at hd
  simp only [ite_error_eq_done, andThen_eq_done, opHdrSer_eq_done, not_not] at hd
  obtain ⟨hs, -, hneed, n, m1, ⟨-, -, rfl, rfl⟩, hd⟩ := hd
  by_cases hf : extFlag h = true
  · rw [if_pos hf] at hd
    simp only [andThen_eq_done, opVarintEnc_eq_done] at hd
    obtain ⟨n, m2, ⟨-, -, rfl, rfl⟩, hd⟩ := hd
    cases hd
    have hl : ext.length < 2 ^ 64 := by
      simp only [beginNeed, hf, if_true] at hneed
      omega
    have hvl := varintBytes_ofNat_length hl
    refine ⟨hs, by omega, rfl, ?_, beginBytes_length hl, ?_⟩
    · simp only [beginNeed, hf, if_true, Config.hdrSize, ← varintBytes_length, hvl]
      congr 1
      omega
    · simp [beginBytes, hf, writeBytes_append, Config.hdrSize, Nat.add_assoc]
  · rw [if_neg hf] at hd
    cases hd
    refine ⟨hs, by omega, rfl, by simp [beginNeed, hf, Config.hdrSize], ?_, by simp [beginBytes, hf]⟩
    simp [beginBytes, beginNeed, hf, Config.hdrSize]

theorem putBytes_eq_done {ws : WriterState} {bs : List Byte} :
    putBytes m e ws bs = .done (v, e') m' ↔
      bs.length ≤ e.writer.limit - e.writer.cursor ∧ v = .unit ∧ e' = e.advance ws bs.length
        ∧ m' = writeBytes m e.writer.cursor bs := by
  unfold putBytes
  rw [ite_error_eq_done]
  simp [eq_comm, and_assoc]

/-- `put_<fixed-type>` writes the field at the write cursor (48_frame_context R186). -/
theorem putFixed_eq_done {x : FixedValue} (hd : putFixed m e x = .done (v, e') m') :
    e.state = .bodyInProgress ∧ e.writer.state = .writingFixed
      ∧ x.type.width ≤ e.writer.limit - e.writer.cursor ∧ v = .unit
      ∧ e' = e.advance .writingFixed x.type.width ∧ m' = writeBytes m e.writer.cursor (fixedBytes x) := by
  unfold putFixed at hd
  rw [ite_error_eq_done, not_not] at hd
  obtain ⟨hs, hd⟩ := hd
  split at hd
  · cases hd
  · next ws hws =>
    obtain ⟨hw, rfl⟩ := writerAfterFixed_eq_some.1 hws
    rw [putBytes_eq_done, fixedBytes_length] at hd
    exact ⟨hs, hw, hd⟩

/-- `put_bitmap` writes the bitmap at the write cursor (48_frame_context R188). -/
theorem putBitmap_eq_done {x : Bitmap} (hd : putBitmap m e x = .done (v, e') m') :
    e.state = .bodyInProgress ∧ e.writer.state = .writingFixed
      ∧ x.width.bytes ≤ e.writer.limit - e.writer.cursor ∧ v = .unit
      ∧ e' = e.advance .bitmapWritten x.width.bytes ∧ m' = writeBytes m e.writer.cursor (bitmapBytes x) := by
  unfold putBitmap at hd
  rw [ite_error_eq_done, not_not] at hd
  obtain ⟨hs, hd⟩ := hd
  split at hd
  · cases hd
  · next ws hws =>
    obtain ⟨hw, rfl⟩ := writerAfterBitmap_eq_some.1 hws
    rw [putBytes_eq_done, bitmapBytes_length] at hd
    exact ⟨hs, hw, hd⟩

/-- `put_varbytes` writes the length as a varint and then the source's bytes at the write cursor (48_frame_context
R187). -/
theorem putVarbytes_eq_done {src : VarSource} (hd : putVarbytes p m e src = .done (v, e') m') :
    e.state = .bodyInProgress ∧ ∃ bs : List Byte,
      SourceGives p m ⟨e.writer.cursor, varintLen bs.length + bs.length⟩ bs src
      ∧ bs.length ≤ p.maxVarbytesLen.toNat ∧ varintLen bs.length + bs.length ≤ e.writer.limit - e.writer.cursor
      ∧ v = .unit ∧ e' = e.advance .writingVariable (varintLen bs.length + bs.length)
      ∧ m' = writeBytes m e.writer.cursor (varintBytes (BitVec.ofNat 64 bs.length) ++ bs) := by
  unfold putVarbytes at hd
  rw [ite_error_eq_done, not_not] at hd
  obtain ⟨hs, hd⟩ := hd
  split at hd
  · cases hd
  · next ws hws =>
    obtain rfl := writerAfterVarbytes_eq hws
    simp only [ite_error_eq_done] at hd
    obtain ⟨hmax, -, hroom, hd⟩ := hd
    obtain ⟨bs, hsrc, hd⟩ := withSource_eq_done hd
    have hl := hsrc.length
    simp only [andThen_eq_done, opVarintEnc_eq_done] at hd
    obtain ⟨n, m1, ⟨-, -, hn, rfl⟩, hd⟩ := hd
    rw [hl] at hmax hroom hsrc
    have hvl := varintBytes_ofNat_length (n := bs.length) (by have := p.maxVarbytesLen.isLt; omega)
    rw [← varintBytes_length, hvl] at hn
    subst hn
    cases hd
    exact ⟨hs, bs, hsrc, by omega, by omega, rfl, rfl, by rw [writeBytes_append, hvl]⟩

/-- `finish_crc32c` writes the body length into the header and a checksum of four bytes at the write cursor
(48_frame_context R189). -/
theorem finishFrame_eq_done (hd : finishFrame p m e = .done (v, e') m') :
    e.state = .bodyInProgress ∧ e.writer.cursor - e.writer.bodyStart < 2 ^ 32
      ∧ 4 ≤ e.writer.limit - e.writer.cursor
      ∧ v = .frameLength (e.writer.cursor + 4 - e.base) ∧ e' = e.finished (e.writer.cursor - e.writer.bodyStart)
      ∧ ∃ crc, m' = writeBytes
          (writeBytes m (e.base + 10) (leBytes 4 (e.writer.cursor - e.writer.bodyStart)))
          e.writer.cursor (leBytes 4 crc) := by
  unfold finishFrame at hd
  simp only [ite_error_eq_done, andThen_eq_done, not_not, Config.trailerSize] at hd
  obtain ⟨hs, hb, ht, crc, m1, hcrc, hd⟩ := hd
  obtain rfl := opCrc32c_mem hcrc
  cases hd
  exact ⟨hs, by omega, by omega, rfl, rfl, _, rfl⟩

end

/-! ### What each decoder call leaves -/

section
variable {p : Parameters} {m m' : Memory} {d d' : Decoder} {v : CallValue}

theorem openDecoder_eq_done {base len : Nat} :
    openDecoder p m base len = .done (v, d') m' ↔
      base + len ≤ p.memSize.val ∧ base + len < 2 ^ 64 ∧ v = .unit ∧ d' = newDecoder base len ∧ m' = m := by
  unfold openDecoder
  rw [inWindow_eq_done, checkedSum_eq_done]
  simp [eq_comm, and_assoc]

theorem checkLength_eq_done {h : FrameHeader} {ext rem : Nat} {view : Option Window} :
    checkLength m d h ext rem view = .done (v, d') m' ↔
      h.bodyLen.toNat + 4 ≤ rem ∧ v = .header h view ∧ d' = d.withHeader h ext ∧ m' = m := by
  unfold checkLength
  rw [ite_error_eq_done]
  simp only [Config.trailerSize, OpResult.done.injEq, Prod.mk.injEq, and_assoc, eq_comm]
  refine and_congr_left fun _ => ?_
  omega

/-- `header()` accepts only a header that meets the parameters and whose frame the buffer holds (48_frame_context
R197). -/
theorem readHeader_eq_done (hd : readHeader p m d = .done (v, d') m') :
    d.state = .created ∧ m' = m ∧ ∃ h ext view, v = .header h view ∧ d' = d.withHeader h ext
      ∧ h.magic = p.magic ∧ h.version.toNat ≤ p.maxVersion.toNat
      ∧ 14 + ext + h.bodyLen.toNat + 4 ≤ d.len ∧ (extFlag h = false → ext = 0) := by
  unfold readHeader at hd
  simp only [ite_error_eq_done, andThen_eq_done, not_not, Config.hdrSize] at hd
  obtain ⟨hs, ⟨h, n⟩, m1, hdes, hd⟩ := hd
  obtain ⟨-, hlen, -, -, hmag, hver, -⟩ := opHdrDes_eq_done.1 hdes
  by_cases hf : extFlag h = true
  · simp only [hf, if_true, andThen_eq_done, ite_error_eq_done, checkLength_eq_done] at hd
    obtain ⟨⟨xl, k⟩, m2, hdec, hfit, hbody, rfl, rfl, rfl⟩ := hd
    obtain ⟨-, -, hk, -⟩ := opVarintDec_eq_done hdec
    dsimp only at hfit hbody
    exact ⟨hs, rfl, h, k + xl.toNat, _, rfl, rfl, hmag, hver, by omega, fun h0 => absurd hf (by simp [h0])⟩
  · dsimp only at hd
    rw [if_neg hf, checkLength_eq_done] at hd
    obtain ⟨hbody, rfl, rfl, rfl⟩ := hd
    exact ⟨hs, rfl, h, _, _, rfl, rfl, hmag, hver, by omega, fun _ => rfl⟩

theorem verifyFrame_eq_done (hd : verifyFrame p m d = .done (v, d') m') :
    d.state = .headerRead ∧ m' = m ∧ v = .unit ∧ d' = { d with state := .checksumVerified } := by
  unfold verifyFrame at hd
  simp only [ite_error_eq_done, andThen_eq_done, withBytes_eq_done, not_not] at hd
  obtain ⟨hs, crc, m1, -, stored, -, -, -, hd⟩ := hd
  cases hd
  exact ⟨hs, rfl, rfl, rfl⟩

theorem openBody_eq_done :
    openBody m d = .done (v, d') m' ↔ d.state = .checksumVerified ∧ v = .unit ∧ d' = d.withBody ∧ m' = m := by
  unfold openBody
  rw [ite_error_eq_done, not_not]
  simp [eq_comm, and_assoc]

theorem withReader_eq_done {x : OpResult (CallValue × Decoder)} :
    withReader d x = .done (v, d') m' ↔ d.state = .bodyInProgress ∧ x = .done (v, d') m' := by
  unfold withReader
  split <;> simp_all

/-- A reader call that returns a value has moved the read cursor within the body, has not closed the reader and has
written nothing (48_frame_context R191 to R194, R203). -/
structure ReaderMoved (m : Memory) (d d' : Decoder) (m' : Memory) : Prop where
  inBody : d.state = .bodyInProgress
  mem : m' = m
  moved : ∃ rs n, rs ≠ .closed ∧ n ≤ d.reader.bodyEnd - d.reader.cursor ∧ d' = d.advance rs n

theorem getBytes_eq_done {rs : ReaderState} {n : Nat} {value : List Byte → CallValue}
    (hd : getBytes m d rs n value = .done (v, d') m') :
    n ≤ d.reader.bodyEnd - d.reader.cursor ∧ d' = d.advance rs n ∧ m' = m := by
  unfold getBytes at hd
  simp only [ite_error_eq_done, withBytes_eq_done] at hd
  obtain ⟨hn, bs, -, -, hd⟩ := hd
  cases hd
  exact ⟨by omega, rfl, rfl⟩

theorem getFixed_moves {t : FixedType} (hd : getFixed m d t = .done (v, d') m') : ReaderMoved m d d' m' := by
  obtain ⟨hs, hd⟩ := withReader_eq_done.1 hd
  split at hd
  · cases hd
  · next rs hrs =>
    obtain ⟨hn, hd', hm⟩ := getBytes_eq_done hd
    exact ⟨hs, hm, rs, _, readerAfterFixed_ne_closed hrs, hn, hd'⟩

theorem getBitmap_moves {w : BitmapWidth} (hd : getBitmap m d w = .done (v, d') m') : ReaderMoved m d d' m' := by
  obtain ⟨hs, hd⟩ := withReader_eq_done.1 hd
  split at hd
  · cases hd
  · next rs hrs =>
    obtain ⟨hn, hd', hm⟩ := getBytes_eq_done hd
    exact ⟨hs, hm, rs, _, readerAfterBitmap_ne_closed hrs, hn, hd'⟩

theorem takeVarbytes_moves {value : Window → CallValue} (hd : takeVarbytes p m d value = .done (v, d') m') :
    ReaderMoved m d d' m' := by
  obtain ⟨hs, hd⟩ := withReader_eq_done.1 hd
  split at hd
  · cases hd
  · next rs hrs =>
    simp only [andThen_eq_done, ite_error_eq_done] at hd
    obtain ⟨⟨l, n⟩, m1, hdec, hl, hd⟩ := hd
    obtain ⟨-, -, hn, -⟩ := opVarintDec_eq_done hdec
    cases hd
    exact ⟨hs, rfl, rs, _, readerAfterVarbytes_ne_closed hrs, by dsimp only at hl ⊢; omega, rfl⟩

end

/-! ### The encoder's invariant -/

section
variable {p : Parameters} {e : Encoder}

theorem encoderOk_newEncoder {base cap : Nat} (hm : base + cap ≤ p.memSize.val) (hr : base + cap < 2 ^ 64) :
    EncoderOk p (newEncoder base cap) := by
  constructor
  case representable => exact hr
  all_goals simp [newEncoder, hm]

/-- `begin` reserves at least the header, inside the buffer (48_frame_context R185). -/
theorem encoderOk_begun (he : EncoderOk p e) {h : FrameHeader} {ext : List Byte} (hn : beginNeed h ext ≤ e.cap) :
    EncoderOk p (e.begun (placeholderHeader p h) (beginNeed h ext - 14)) where
  buffer := he.buffer
  representable := he.representable
  limit := rfl
  notHeaderBegun := by simp [Encoder.begun]
  closed := by simp [Encoder.begun]
  created := by simp [Encoder.begun]
  bodyStart _ := rfl
  lower _ := le_rfl
  upper _ := by
    have := hdrSize_le_beginNeed h ext
    simp only [Encoder.begun, Config.hdrSize]
    omega
  magic _ := rfl
  ext _ hf := by
    have hf' : extFlag h = false := hf
    simp [Encoder.begun, beginNeed, hf', Config.hdrSize]
  moved := by simp [Encoder.begun]
  trailer := by simp [Encoder.begun]
  bodyLen := by simp [Encoder.begun]

/-- A field that fits moves the write cursor inside the buffer; a bitmap or a variable field has at least one byte
(48_frame_context R186 to R188). -/
theorem encoderOk_advance (he : EncoderOk p e) (hs : e.state = .bodyInProgress) {ws : WriterState} {n : Nat}
    (hn : n ≤ e.writer.limit - e.writer.cursor) (hc : ws ≠ .closed) (hw : ws = .writingFixed ∨ 1 ≤ n) :
    EncoderOk p (e.advance ws n) where
  buffer := he.buffer
  representable := he.representable
  limit := he.limit
  notHeaderBegun := he.notHeaderBegun
  closed := by simp [Encoder.advance, hs, hc]
  created := by simp [Encoder.advance, hs]
  bodyStart := he.bodyStart
  lower h := (he.lower h).trans (Nat.le_add_right _ _)
  upper h := by
    have := he.upper h
    simp only [Encoder.advance]
    omega
  magic := he.magic
  ext := he.ext
  moved h := by
    have hl := he.lower (by simp [hs])
    rcases hw with rfl | hw
    · simp [Encoder.advance] at h
    · simp only [Encoder.advance]
      omega
  trailer := by simp [Encoder.advance, hs]
  bodyLen := by simp [Encoder.advance, hs]

/-- The finished header counts the body written (48_frame_context R172, R189; log 25). -/
theorem encoderOk_finished (he : EncoderOk p e) (hs : e.state = .bodyInProgress)
    (hb : e.writer.cursor - e.writer.bodyStart < 2 ^ 32) (ht : 4 ≤ e.writer.limit - e.writer.cursor) :
    EncoderOk p (e.finished (e.writer.cursor - e.writer.bodyStart)) := by
  have hnc : e.state ≠ .created := by simp [hs]
  exact {
    buffer := he.buffer
    representable := he.representable
    limit := he.limit
    notHeaderBegun := by simp [Encoder.finished]
    closed := by simp [Encoder.finished]
    created := by simp [Encoder.finished]
    bodyStart := fun _ => he.bodyStart hnc
    lower := fun _ => he.lower hnc
    upper := fun _ => he.upper hnc
    magic := fun _ => he.magic hnc
    ext := fun _ => he.ext hnc
    moved := by simp [Encoder.finished]
    trailer := fun _ => by simp only [Encoder.finished]; omega
    bodyLen := fun _ => by simp only [Encoder.finished, BitVec.toNat_ofNat]; omega }

end

/-! ### The decoder's invariant -/

section
variable {p : Parameters} {d : Decoder}

theorem decoderOk_newDecoder {base len : Nat} (hm : base + len ≤ p.memSize.val) (hr : base + len < 2 ^ 64) :
    DecoderOk p (newDecoder base len) := by
  constructor
  case representable => exact hr
  all_goals simp [newDecoder, hm]

theorem decoderOk_withHeader (hd : DecoderOk p d) {h : FrameHeader} {ext : Nat} (hmag : h.magic = p.magic)
    (hver : h.version.toNat ≤ p.maxVersion.toNat) (hlen : 14 + ext + h.bodyLen.toNat + 4 ≤ d.len)
    (hext : extFlag h = false → ext = 0) : DecoderOk p (d.withHeader h ext) where
  buffer := hd.buffer
  representable := hd.representable
  notDone := by simp [Decoder.withHeader]
  notClosed := hd.notClosed
  frame _ := hlen
  bodyLen _ := rfl
  magic _ := hmag
  version _ := hver
  ext _ := hext
  bodyStart := by simp [Decoder.withHeader]
  bodyEnd := by simp [Decoder.withHeader]
  lower := by simp [Decoder.withHeader]
  upper := by simp [Decoder.withHeader]

theorem decoderOk_verified (hd : DecoderOk p d) (hs : d.state = .headerRead) :
    DecoderOk p { d with state := .checksumVerified } := by
  have hnc : d.state ≠ .created := by simp [hs]
  exact {
    buffer := hd.buffer
    representable := hd.representable
    notDone := by simp
    notClosed := hd.notClosed
    frame := fun _ => hd.frame hnc
    bodyLen := fun _ => hd.bodyLen hnc
    magic := fun _ => hd.magic hnc
    version := fun _ => hd.version hnc
    ext := fun _ => hd.ext hnc
    bodyStart := by simp
    bodyEnd := by simp
    lower := by simp
    upper := by simp }

theorem decoderOk_withBody (hd : DecoderOk p d) (hs : d.state = .checksumVerified) : DecoderOk p d.withBody := by
  have hnc : d.state ≠ .created := by simp [hs]
  exact {
    buffer := hd.buffer
    representable := hd.representable
    notDone := by simp [Decoder.withBody]
    notClosed := by simp [Decoder.withBody]
    frame := fun _ => hd.frame hnc
    bodyLen := fun _ => hd.bodyLen hnc
    magic := fun _ => hd.magic hnc
    version := fun _ => hd.version hnc
    ext := fun _ => hd.ext hnc
    bodyStart := fun _ => rfl
    bodyEnd := fun _ => rfl
    lower := fun _ => le_rfl
    upper := fun _ => Nat.le_add_right _ _ }

/-- A field that remains moves the read cursor inside the body (48_frame_context R191 to R194). -/
theorem decoderOk_advance (hd : DecoderOk p d) {rs : ReaderState} {n : Nat} (hrs : rs ≠ .closed)
    (hn : n ≤ d.reader.bodyEnd - d.reader.cursor) : DecoderOk p (d.advance rs n) where
  buffer := hd.buffer
  representable := hd.representable
  notDone := hd.notDone
  notClosed := hrs
  frame := hd.frame
  bodyLen := hd.bodyLen
  magic := hd.magic
  version := hd.version
  ext := hd.ext
  bodyStart := hd.bodyStart
  bodyEnd := hd.bodyEnd
  lower h := (hd.lower h).trans (Nat.le_add_right _ _)
  upper h := by
    have := hd.upper h
    simp only [Decoder.advance]
    omega

end

/-! ### The invariant of `MEM` -/

/-- What the invariant asks of `MEM`: canonical form, and every written byte inside it (10_state R27). -/
structure MemOk (p : Parameters) (m : Memory) : Prop where
  wf : Memory.wf m
  inside : Memory.inside p m

section
variable {p : Parameters} {m : Memory}

theorem memOk_writeBytes (h : MemOk p m) {addr : Nat} {bs : List Byte} (hb : addr + bs.length ≤ p.memSize.val) :
    MemOk p (writeBytes m addr bs) :=
  ⟨writeBytes_wf h.wf addr bs, writeBytes_inside h.inside hb⟩

/-- Bytes that fit behind the write cursor lie in `MEM`. -/
theorem memOk_writeBytes_cursor (h : MemOk p m) {e : Encoder} (he : EncoderOk p e) (hs : e.state = .bodyInProgress)
    {bs : List Byte} (hb : bs.length ≤ e.writer.limit - e.writer.cursor) :
    MemOk p (writeBytes m e.writer.cursor bs) := by
  have hu := he.upper (by simp [hs])
  have hl := he.limit
  have hf := he.buffer
  exact memOk_writeBytes h (by omega)

/-- The accesses of other agents keep `MEM` in order: each lies inside it (20_memory R49). -/
theorem memOk_otherAccesses (h : MemOk p m) {during : List HostAccess} {m' : Memory}
    (ho : otherAccesses p m during = .ok m') : MemOk p m' := by
  induction during generalizing m with
  | nil => cases ho; exact h
  | cons a rest ih =>
    cases a with
    | read w =>
      simp only [otherAccesses] at ho
      split at ho
      · exact ih h ho
      · cases ho
    | write base bytes =>
      simp only [otherAccesses] at ho
      split at ho
      · next hw => exact ih (memOk_writeBytes h ((windowInside_iff _ _).1 hw)) ho
      · cases ho
    | command record => cases ho

end

/-- The output range of a command whose window lies in `MEM` lies there too (20_memory R46). -/
theorem outputRange_inside {p : Parameters} {i : Instr} (h : i.window.base + i.window.len ≤ p.memSize.val) :
    (outputRange i).base + (outputRange i).len ≤ p.memSize.val := by
  obtain ⟨hb, hl⟩ := outputRange_within_window i
  omega

/-- An operation keeps `MEM` in order. -/
theorem memOk_exec {i : Instr} {s t : State} (h : MemOk s.cfg s.mem) (he : exec i s = .next t) :
    MemOk s.cfg t.mem := by
  obtain ⟨bs, hl, hm⟩ := exec_mem he
  rw [hm]
  exact memOk_writeBytes h (hl ▸ outputRange_inside (exec_window_inside he))

/-! ### Each call keeps the invariant -/

/-- An outcome of an encoder call that leaves `MEM` and the encoder in order. -/
def KeepsEncoder (p : Parameters) (x : OpResult (CallValue × Encoder)) : Prop :=
  ∀ v e m, x = .done (v, e) m → MemOk p m ∧ EncoderOk p e

/-- An outcome of a decoder call that leaves `MEM` as it was and the decoder in order. -/
def KeepsDecoder (p : Parameters) (m : Memory) (x : OpResult (CallValue × Decoder)) : Prop :=
  ∀ v d m', x = .done (v, d) m' → m' = m ∧ DecoderOk p d

section
variable {p : Parameters} {m : Memory} {e : Encoder}

theorem openEncoder_keeps (hm : MemOk p m) (base cap : Nat) : KeepsEncoder p (openEncoder p m base cap) := by
  intro v e m' hd
  obtain ⟨hb, hr, -, rfl, rfl⟩ := openEncoder_eq_done.1 hd
  exact ⟨hm, encoderOk_newEncoder hb hr⟩

theorem beginFrame_keeps (hm : MemOk p m) (he : EncoderOk p e) (h : FrameHeader) (ext : List Byte) :
    KeepsEncoder p (beginFrame p m e h ext) := by
  intro v e' m' hd
  have hbuf := he.buffer
  have hrep := he.representable
  obtain ⟨-, hn, -, rfl, hl, rfl⟩ := beginFrame_eq_done (by omega) hd
  exact ⟨memOk_writeBytes hm (by omega), encoderOk_begun he hn⟩

theorem putFixed_keeps (hm : MemOk p m) (he : EncoderOk p e) (x : FixedValue) : KeepsEncoder p (putFixed m e x) := by
  intro v e' m' hd
  obtain ⟨hs, -, hn, -, rfl, rfl⟩ := putFixed_eq_done hd
  exact ⟨memOk_writeBytes_cursor hm he hs (by simpa using hn), encoderOk_advance he hs hn (by decide) (.inl rfl)⟩

theorem putBitmap_keeps (hm : MemOk p m) (he : EncoderOk p e) (x : Bitmap) : KeepsEncoder p (putBitmap m e x) := by
  intro v e' m' hd
  obtain ⟨hs, -, hn, -, rfl, rfl⟩ := putBitmap_eq_done hd
  exact ⟨memOk_writeBytes_cursor hm he hs (by simpa using hn),
    encoderOk_advance he hs hn (by decide) (.inr (bitmapWidth_pos _))⟩

theorem putVarbytes_keeps (hm : MemOk p m) (he : EncoderOk p e) (src : VarSource) :
    KeepsEncoder p (putVarbytes p m e src) := by
  intro v e' m' hd
  obtain ⟨hs, bs, -, hmax, hn, -, rfl, rfl⟩ := putVarbytes_eq_done hd
  have hlt : bs.length < 2 ^ 64 := lt_of_le_of_lt hmax p.maxVarbytesLen.isLt
  have hpos := varintLen_pos bs.length
  refine ⟨memOk_writeBytes_cursor hm he hs ?_, encoderOk_advance he hs hn (by decide) (.inr (by omega))⟩
  rwa [List.length_append, varintBytes_ofNat_length hlt]

theorem finishFrame_keeps (hm : MemOk p m) (he : EncoderOk p e) : KeepsEncoder p (finishFrame p m e) := by
  intro v e' m' hd
  obtain ⟨hs, hb, ht, -, rfl, crc, rfl⟩ := finishFrame_eq_done hd
  have hnc : e.state ≠ .created := by simp [hs]
  have hstart := he.bodyStart hnc
  have hlow := he.lower hnc
  have hlim := he.limit
  have hbuf := he.buffer
  refine ⟨memOk_writeBytes_cursor (memOk_writeBytes hm ?_) he hs (by simpa using ht), encoderOk_finished he hs hb ht⟩
  rw [leBytes_length]
  omega

end

section
variable {p : Parameters} {m : Memory} {d : Decoder}

theorem openDecoder_keeps (base len : Nat) : KeepsDecoder p m (openDecoder p m base len) := by
  intro v d m' h
  obtain ⟨hb, hr, -, rfl, hm⟩ := openDecoder_eq_done.1 h
  exact ⟨hm, decoderOk_newDecoder hb hr⟩

theorem readHeader_keeps (hd : DecoderOk p d) : KeepsDecoder p m (readHeader p m d) := by
  intro v d' m' h
  obtain ⟨-, hm, hdr, ext, view, -, rfl, hmag, hver, hlen, hext⟩ := readHeader_eq_done h
  exact ⟨hm, decoderOk_withHeader hd hmag hver hlen hext⟩

theorem verifyFrame_keeps (hd : DecoderOk p d) : KeepsDecoder p m (verifyFrame p m d) := by
  intro v d' m' h
  obtain ⟨hs, hm, -, rfl⟩ := verifyFrame_eq_done h
  exact ⟨hm, decoderOk_verified hd hs⟩

theorem openBody_keeps (hd : DecoderOk p d) : KeepsDecoder p m (openBody m d) := by
  intro v d' m' h
  obtain ⟨hs, -, rfl, hm⟩ := openBody_eq_done.1 h
  exact ⟨hm, decoderOk_withBody hd hs⟩

/-- A moved reader keeps the decoder in order. -/
theorem ReaderMoved.keeps (hd : DecoderOk p d) {d' : Decoder} {m' : Memory} (h : ReaderMoved m d d' m') :
    m' = m ∧ DecoderOk p d' := by
  obtain ⟨rs, n, hrs, hn, rfl⟩ := h.moved
  exact ⟨h.mem, decoderOk_advance hd hrs hn⟩

end

/-! ### The machine's invariant -/

section
variable {s t : State}

theorem Inv.memOk (h : Inv s) : MemOk s.cfg s.mem := ⟨h.wf, h.inside⟩

/-- A step that touches neither the parameters nor the host's objects keeps the invariant if it keeps `MEM` in
order. -/
theorem Inv.of_memOk (h : Inv s) (hc : t.cfg = s.cfg) (he : t.encoder = s.encoder) (hd : t.decoder = s.decoder)
    (hm : MemOk s.cfg t.mem) : Inv t where
  wf := hm.wf
  inside := hc ▸ hm.inside
  encoder e h' := hc ▸ h.encoder e (he ▸ h')
  decoder d h' := hc ▸ h.decoder d (hd ▸ h')

/-- An encoder call keeps the invariant if its outcome leaves `MEM` and the encoder in order. -/
theorem inv_settleEncoder (h : Inv s) {x : OpResult (CallValue × Encoder)} (hx : KeepsEncoder s.cfg x)
    (ht : settleEncoder s x = .next t) : Inv t := by
  rcases settleEncoder_eq_next.1 ht with ⟨v, e, m, hd, rfl⟩ | ⟨k, -, rfl⟩
  · obtain ⟨hm, he⟩ := hx v e m hd
    exact ⟨hm.wf, hm.inside, fun e' he' => Option.some.inj he' ▸ he, h.decoder⟩
  · exact h.of_memOk rfl rfl rfl h.memOk

/-- A decoder call keeps the invariant if its outcome leaves `MEM` alone and the decoder in order. -/
theorem inv_settleDecoder (h : Inv s) {x : OpResult (CallValue × Decoder)} (hx : KeepsDecoder s.cfg s.mem x)
    (ht : settleDecoder s x = .next t) : Inv t := by
  rcases settleDecoder_eq_next.1 ht with ⟨v, d, m, hd, rfl⟩ | ⟨k, -, rfl⟩
  · obtain ⟨rfl, hd'⟩ := hx v d m hd
    exact ⟨h.wf, h.inside, h.encoder, fun d' hd'' => Option.some.inj hd'' ▸ hd'⟩
  · exact h.of_memOk rfl rfl rfl h.memOk

theorem inv_onEncoder (h : Inv s) {f : Encoder → OpResult (CallValue × Encoder)}
    (hf : ∀ e, EncoderOk s.cfg e → KeepsEncoder s.cfg (f e)) (ht : onEncoder s f = .next t) : Inv t := by
  obtain ⟨e, he, ht⟩ := onEncoder_eq_next.1 ht
  exact inv_settleEncoder h (hf e (h.encoder e he)) ht

theorem inv_onDecoder (h : Inv s) {f : Decoder → OpResult (CallValue × Decoder)}
    (hf : ∀ d, DecoderOk s.cfg d → KeepsDecoder s.cfg s.mem (f d)) (ht : onDecoder s f = .next t) : Inv t := by
  obtain ⟨d, hd, ht⟩ := onDecoder_eq_next.1 ht
  exact inv_settleDecoder h (hf d (h.decoder d hd)) ht

/-- Every host call keeps the invariant (48_frame_context R203). -/
theorem inv_runCall (h : Inv s) {c : HostCall} (ht : runCall c s = .next t) : Inv t := by
  cases c with
  | openEncoder base cap => exact inv_settleEncoder h (openEncoder_keeps h.memOk _ _) ht
  | beginFrame hdr ext => exact inv_onEncoder h (fun e he => beginFrame_keeps h.memOk he hdr ext) ht
  | putFixed x => exact inv_onEncoder h (fun e he => putFixed_keeps h.memOk he x) ht
  | putBitmap x => exact inv_onEncoder h (fun e he => putBitmap_keeps h.memOk he x) ht
  | putVarbytes src => exact inv_onEncoder h (fun e he => putVarbytes_keeps h.memOk he src) ht
  | finishCrc32c => exact inv_onEncoder h (fun e he => finishFrame_keeps h.memOk he) ht
  | openDecoder base len => exact inv_settleDecoder h (openDecoder_keeps _ _) ht
  | readHeader => exact inv_onDecoder h (fun d hd => readHeader_keeps hd) ht
  | verifyCrc32c => exact inv_onDecoder h (fun d hd => verifyFrame_keeps hd) ht
  | openBody => exact inv_onDecoder h (fun d hd => openBody_keeps hd) ht
  | getFixed t => exact inv_onDecoder h (fun d hd _ _ _ hx => (getFixed_moves hx).keeps hd) ht
  | getBitmap w => exact inv_onDecoder h (fun d hd _ _ _ hx => (getBitmap_moves hx).keeps hd) ht
  | getVarbytes => exact inv_onDecoder h (fun d hd _ _ _ hx => (takeVarbytes_moves hx).keeps hd) ht
  | skipVarbytes => exact inv_onDecoder h (fun d hd _ _ _ hx => (takeVarbytes_moves hx).keeps hd) ht

/-- Every input keeps the invariant. -/
theorem inv_runInput (h : Inv s) {x : Input} (ht : runInput x s = .next t) : Inv t := by
  cases x with
  | command record during =>
    obtain ⟨i, u, m, -, he, ho, rfl⟩ := runCommand_eq_next ht
    have hu := exec_onlyBlock he
    rw [hu.cfg] at ho
    exact h.of_memOk hu.cfg hu.encoder hu.decoder (memOk_otherAccesses (memOk_exec h.memOk he) ho)
  | cutByReset record =>
    obtain ⟨i, -, hw, rfl⟩ := runCut_eq_next ht
    refine h.of_memOk rfl rfl rfl (memOk_writeBytes h.memOk ?_)
    rw [freeBytes_length]
    exact outputRange_inside hw
  | reset => cases ht; exact h
  | hostRead base n =>
    obtain ⟨bs, rfl⟩ := runHostRead_eq_next ht
    exact h.of_memOk rfl rfl rfl h.memOk
  | hostWrite base bytes =>
    obtain ⟨hb, rfl⟩ := runHostWrite_eq_next ht
    exact h.of_memOk rfl rfl rfl (memOk_writeBytes h.memOk hb)
  | call c => exact inv_runCall h ht

end

/-- Settles O39: taking an input from the list keeps the invariant, and so does acting on it. -/
theorem everyStepKeepsTheInvariant : Obligations.EveryStepKeepsTheInvariant := by
  unfold Obligations.EveryStepKeepsTheInvariant
  intro s t h ht
  cases hi : s.inputs with
  | nil => rw [step_of_no_input hi] at ht; cases ht; exact h
  | cons x rest =>
    rw [step_of_input hi] at ht
    have hs : Inv (s.setInputs rest) := h.of_memOk rfl rfl rfl h.memOk
    exact inv_runInput hs ht

end Sys2Proof.Machine
end

section
/-! SUPPORT. Host accesses that take a next step, operations and writes that share no byte, and the proofs of the
statements about `MEM` (20_memory). -/

namespace Sys2Proof.Machine

/-! ### Host accesses inside `MEM` -/

section
variable {s : State} {rest : List Input}

/-- A host write inside `MEM` is taken and changes its bytes (20_memory R45). -/
theorem step_of_hostWrite {base : Nat} {bytes : List Byte} (hi : s.inputs = .hostWrite base bytes :: rest)
    (h : base + bytes.length ≤ s.cfg.memSize.val) :
    step s = .next ((s.setInputs rest).setMem (writeBytes s.mem base bytes)) := by
  rw [step_of_input hi]
  exact if_pos ((windowInside_iff _ _).2 h)

/-- A host read inside `MEM` is taken and returns the bytes that are there (20_memory R44). -/
theorem step_of_hostRead {base : Nat} {bytes : List Byte} (hi : s.inputs = .hostRead base bytes.length :: rest)
    (h : base + bytes.length ≤ s.cfg.memSize.val) (hb : HoldsBytes s.mem base bytes) :
    step s = .next ((s.setInputs rest).setCallResult (some (.ok (.bytes bytes)))) := by
  have hw : windowInside s.cfg ⟨base, bytes.length⟩ = true := (windowInside_iff _ _).2 h
  have hr : readBytes s.mem base bytes.length = .ok bytes := readBytes_eq_ok.2 ⟨rfl, hb⟩
  rw [step_of_input hi]
  simp [runInput, runHostRead, hw, hr]

end

/-- Settles O43: a write of bytes leaves them where the read looks for them, and the read changes only the last
outcome. -/
theorem hostReadsWhatItWrote : Obligations.HostReadsWhatItWrote := by
  unfold Obligations.HostReadsWhatItWrote
  intro s b bs rest hb hi
  exact ⟨_, _, step_of_hostWrite hi hb, step_of_hostRead rfl hb (holdsBytes_writeBytes s.mem b bs), rfl, rfl,
    sameOutside_writeBytes s.mem b bs, rfl, rfl, rfl⟩

/-! ### An operation and a write that share no byte -/

/-- One write by another agent takes place exactly inside `MEM` (20_memory R49). -/
theorem otherAccesses_write_eq_ok {p : Parameters} {m m' : Memory} {base : Nat} {bytes : List Byte} :
    otherAccesses p m [.write base bytes] = .ok m'
      ↔ base + bytes.length ≤ p.memSize.val ∧ m' = writeBytes m base bytes := by
  rw [← windowInside_iff p ⟨base, bytes.length⟩]
  cases hw : windowInside p ⟨base, bytes.length⟩ with
  | true => simp [otherAccesses, hw, eq_comm]
  | false => simp [otherAccesses, hw]

/-- A write does not reach a window it does not overlap. -/
theorem agreeOn_writeBytes_of_disjoint {w : Window} {base : Nat} {bytes : List Byte}
    (h : w.overlaps ⟨base, bytes.length⟩ = false) (m : Memory) : AgreeOn w m (writeBytes m base bytes) := fun a ha =>
  sameOutside_writeBytes m base bytes a (Window.not_holds_of_overlaps_eq_false h ha)

section
variable {i : Instr} {s t : State}

/-- An operation leaves every byte outside its window as it was (20_memory R46). -/
theorem exec_sameOutside_window (h : exec i s = .next t) : SameOutside i.window s.mem t.mem := by
  obtain ⟨bs, hl, hm⟩ := exec_mem h
  obtain ⟨hb, hle⟩ := outputRange_within_window i
  rw [hm, hb]
  exact sameOutside_writeBytes_of_le _ _ (hl.trans_le hle)

/-- An operation that ran runs on a `MEM` written elsewhere too, with the same response, and leaves every byte as if the
write had come after it (20_memory R51). Inside the window neither order shows the write; outside it neither shows the
operation. -/
theorem exec_setMem_writeBytes_of_disjoint {base : Nat} {bytes : List Byte} (h : exec i s = .next t)
    (hd : i.window.overlaps ⟨base, bytes.length⟩ = false) :
    ∃ v, exec i (s.setMem (writeBytes s.mem base bytes)) = .next v ∧ v.response = t.response
      ∧ ∀ a, memRead v.mem a = memRead (writeBytes t.mem base bytes) a := by
  obtain ⟨v, hv, hr, hag⟩ := responseDependsOnlyOnTheWindow i s (s.setMem (writeBytes s.mem base bytes)) t rfl
    (agreeOn_writeBytes_of_disjoint hd s.mem) h
  refine ⟨v, hv, hr, fun a => ?_⟩
  cases ha : i.window.holds a with
  | true =>
    calc memRead v.mem a = memRead t.mem a := hag a ha
      _ = memRead (writeBytes t.mem base bytes) a := (agreeOn_writeBytes_of_disjoint hd t.mem a ha).symm
  | false =>
    calc memRead v.mem a = memRead (writeBytes s.mem base bytes) a := exec_sameOutside_window hv a ha
      _ = memRead (writeBytes t.mem base bytes) a :=
        memRead_writeBytes_congr (exec_sameOutside_window h a ha).symm base bytes

end

/-- Settles O37: the write before the operation leaves the bytes of its window alone, so the operation answers as
before, and neither changes a byte of the other. -/
theorem writesElsewhereCommuteWithTheOperation : Obligations.WritesElsewhereCommuteWithTheOperation := by
  unfold Obligations.WritesElsewhereCommuteWithTheOperation
  intro s t record i b bs rest hdec hdisj hi h
  rw [step_of_input hi] at h
  obtain ⟨j, u, m, hj, he, hm, rfl⟩ := runCommand_eq_next h
  obtain rfl : i = j := by rw [parseCommand_of_decode hdec] at hj; exact Except.ok.inj hj
  obtain ⟨hin, rfl⟩ := otherAccesses_write_eq_ok.1 hm
  have hu := exec_onlyBlock he
  rw [hu.cfg] at hin
  obtain ⟨v, hv, hr, hmem⟩ := exec_setMem_writeBytes_of_disjoint he hdisj
  have hv' := runCommand_alone hdec ((s.setInputs rest).setMem (writeBytes s.mem b bs))
  exact ⟨_, v, step_of_hostWrite rfl hin, hv'.trans hv, hr, (exec_onlyBlock hv).inputs.trans hu.inputs.symm, hmem⟩

end Sys2Proof.Machine
end

section
/-! SUPPORT. Records and their bytes: what decoding and encoding make of each other, and the proofs of the statements
about records (30_encoding R61, R62, R78; the byte form is the model's own, log 1). -/

namespace Sys2Proof

/-! ### One field of a record -/

/-- A field of `n` bytes holds as many values as `n` bytes do. -/
theorem two_pow_eq_of_bytes {w n : Nat} (hw : w = 8 * n) : 2 ^ w = 256 ^ n := by
  rw [hw, Nat.pow_mul]

/-- A field written at the front is read back. -/
theorem ofNat_fieldAt_zero {w n : Nat} (hw : w = 8 * n) (x : BitVec w) (rest : List Byte) :
    BitVec.ofNat w (fieldAt 0 n (leBytes n x.toNat ++ rest)) = x := by
  have hlt : x.toNat < 256 ^ n := two_pow_eq_of_bytes hw ▸ x.isLt
  rw [fieldAt, List.drop_zero, List.take_left' (leBytes_length _ _), fromLE_leBytes, Nat.mod_eq_of_lt hlt,
    BitVec.ofNat_toNat, BitVec.setWidth_eq]

/-- A field further on does not see the bytes of the fields before it. -/
theorem fieldAt_append {bs : List Byte} {off : Nat} (h : bs.length ≤ off) (n : Nat) (rest : List Byte) :
    fieldAt off n (bs ++ rest) = fieldAt (off - bs.length) n rest := by
  rw [fieldAt, List.drop_append, List.drop_eq_nil_of_le h, List.nil_append, fieldAt]

/-- The field at an offset, written again, with what follows it is what stands there. -/
theorem leBytes_fieldAt_append_drop {w n off k : Nat} (hw : w = 8 * n) (hk : k = off + n) {bs : List Byte}
    (h : k ≤ bs.length) :
    leBytes n (BitVec.ofNat w (fieldAt off n bs)).toNat ++ bs.drop k = bs.drop off := by
  have hl : ((bs.drop off).take n).length = n := by
    rw [List.length_take, List.length_drop]
    omega
  have hlt : fieldAt off n bs < 2 ^ w := by
    have := fromLE_lt ((bs.drop off).take n)
    rwa [hl, ← two_pow_eq_of_bytes hw] at this
  have hbytes : leBytes n (fieldAt off n bs) = (bs.drop off).take n := by
    have := leBytes_fromLE ((bs.drop off).take n)
    rwa [hl] at this
  rw [BitVec.toNat_ofNat, Nat.mod_eq_of_lt hlt, hbytes, hk, ← List.drop_drop, List.take_append_drop]

/-! ### The three formats -/

section
variable {op : Byte} {bs rest : List Byte} {i : Instr}

/-- Format `W` reads exactly the two fields written in their order (30_encoding R61). -/
theorem decodeW_eq_ok {mk : Addr → Addr → Instr} :
    decodeW mk op bs = .ok (i, rest) ↔
      ∃ base len, i = mk base len ∧ bs = leBytes 8 base.toNat ++ leBytes 8 len.toNat ++ rest := by
  constructor
  · intro h
    unfold decodeW at h
    split at h
    · cases h
    · next hl =>
      cases h
      refine ⟨_, _, rfl, ?_⟩
      simp (disch := omega) only [List.append_assoc, leBytes_fieldAt_append_drop, List.drop_zero]
  · rintro ⟨base, len, rfl, rfl⟩
    rw [decodeW, if_neg (by simp only [List.length_append, leBytes_length]; omega)]
    simp [fieldAt_append, ofNat_fieldAt_zero, List.drop_append, List.drop_eq_nil_of_le]

/-- Format `V` reads exactly the three fields written in their order (30_encoding R61). -/
theorem decodeV_eq_ok :
    decodeV op bs = .ok (i, rest) ↔
      ∃ base cap value, i = .varintEnc base cap value ∧ bs = encodeOperands (.varintEnc base cap value) ++ rest := by
  constructor
  · intro h
    unfold decodeV at h
    split at h
    · cases h
    · next hl =>
      cases h
      refine ⟨_, _, _, rfl, ?_⟩
      simp (disch := omega) only [encodeOperands, List.append_assoc, leBytes_fieldAt_append_drop, List.drop_zero]
  · rintro ⟨base, cap, value, rfl, rfl⟩
    rw [decodeV, if_neg (by simp only [encodeOperands, List.length_append, leBytes_length]; omega)]
    simp [encodeOperands, fieldAt_append, ofNat_fieldAt_zero, List.drop_append, List.drop_eq_nil_of_le]

/-- Format `H` reads exactly the eight fields written in their order (30_encoding R61). -/
theorem decodeH_eq_ok :
    decodeH op bs = .ok (i, rest) ↔
      ∃ base cap h, i = .hdrSer base cap h ∧ bs = encodeOperands (.hdrSer base cap h) ++ rest := by
  constructor
  · intro h
    unfold decodeH at h
    split at h
    · cases h
    · next hl =>
      cases h
      refine ⟨_, _, _, rfl, ?_⟩
      simp (disch := omega) only [encodeOperands, List.append_assoc, leBytes_fieldAt_append_drop, List.drop_zero]
  · rintro ⟨base, cap, h, rfl, rfl⟩
    rw [decodeH, if_neg (by simp only [encodeOperands, List.length_append, leBytes_length]; omega)]
    simp [encodeOperands, fieldAt_append, ofNat_fieldAt_zero, List.drop_append, List.drop_eq_nil_of_le]

/-! ### Records -/

/-- Decoding and encoding are inverse to each other: a byte string decodes to a command and a rest exactly when it is
the command's record and the rest (30_encoding R61, R62). -/
theorem decode_eq_ok_iff : decode bs = .ok (i, rest) ↔ bs = encode i ++ rest := by
  constructor
  · intro h
    cases bs with
    | nil => cases h
    | cons op operands =>
      rw [decode] at h
      split at h
      · next hop =>
        obtain ⟨base, len, rfl, rfl⟩ := decodeW_eq_ok.1 h
        rw [hop]
        rfl
      split at h
      · next hop =>
        obtain ⟨base, cap, value, rfl, rfl⟩ := decodeV_eq_ok.1 h
        rw [hop]
        rfl
      split at h
      · next hop =>
        obtain ⟨base, avail, rfl, rfl⟩ := decodeW_eq_ok.1 h
        rw [hop]
        rfl
      split at h
      · next hop =>
        obtain ⟨base, cap, hdr, rfl, rfl⟩ := decodeH_eq_ok.1 h
        rw [hop]
        rfl
      split at h
      · next hop =>
        obtain ⟨base, avail, rfl, rfl⟩ := decodeW_eq_ok.1 h
        rw [hop]
        rfl
      · cases h
  · rintro rfl
    cases i with
    | crc32c base len => exact (decodeW_eq_ok (op := 0x01#8)).2 ⟨base, len, rfl, rfl⟩
    | varintEnc base cap value => exact (decodeV_eq_ok (op := 0x02#8)).2 ⟨base, cap, value, rfl, rfl⟩
    | varintDec base avail => exact (decodeW_eq_ok (op := 0x03#8)).2 ⟨base, avail, rfl, rfl⟩
    | hdrSer base cap header => exact (decodeH_eq_ok (op := 0x04#8)).2 ⟨base, cap, header, rfl, rfl⟩
    | hdrDes base avail => exact (decodeW_eq_ok (op := 0x05#8)).2 ⟨base, avail, rfl, rfl⟩

/-- An opcode that selects no operation is rejected by name, whatever follows it (30_encoding R78). -/
theorem decode_of_unassigned (h : op.toNat = 0 ∨ 6 ≤ op.toNat) (operands : List Byte) :
    decode (op :: operands) = .error (.unassigned op) := by
  have hne : ∀ a : Byte, 1 ≤ a.toNat → a.toNat ≤ 5 → op ≠ a := by
    rintro a h1 h5 rfl
    omega
  rw [decode, if_neg (hne _ (by decide) (by decide)), if_neg (hne _ (by decide) (by decide)),
    if_neg (hne _ (by decide) (by decide)), if_neg (hne _ (by decide) (by decide)),
    if_neg (hne _ (by decide) (by decide))]

end

end Sys2Proof

namespace Sys2Proof.Machine

/-- Settles O3: the record of a command with a rest is a byte string that decodes to the two. -/
theorem decodeOfEncodeIsIdentity : Obligations.DecodeOfEncodeIsIdentity := by
  unfold Obligations.DecodeOfEncodeIsIdentity
  exact fun i rest => decode_eq_ok_iff.2 rfl

/-- Settles O4: each format's fields, read and written again, are the bytes read. -/
theorem decodedBytesAreTheEncoding : Obligations.DecodedBytesAreTheEncoding := by
  unfold Obligations.DecodedBytesAreTheEncoding
  exact fun bs i rest h => decode_eq_ok_iff.1 h

/-- Settles O2: each record is the one the encoder gives for the command. -/
theorem recordsOfTheFiveOpcodesDecode : Obligations.RecordsOfTheFiveOpcodesDecode := by
  unfold Obligations.RecordsOfTheFiveOpcodesDecode
  refine ⟨?_, ?_, ?_, ?_, ?_⟩ <;> · rw [decode_eq_ok_iff]; decide

/-- A byte string that says no command is refused whatever others do meanwhile (60_exceptions R241). -/
theorem runCommand_of_error {record : List Byte} {r : Refusal} (h : parseCommand record = .error r)
    (during : List HostAccess) (s : State) : runCommand record during s = .refused r := by
  simp [runCommand, h]

/-- Settles O5: the record is refused before the accesses of others are looked at. -/
theorem unassignedOpcodeRefused : Obligations.UnassignedOpcodeRefused := by
  unfold Obligations.UnassignedOpcodeRefused
  intro s op operands during rest hop hi
  have hp : parseCommand (op :: operands) = .error (.unassignedOpcode op) := by
    simp [parseCommand, decode_of_unassigned hop operands]
  rw [step_of_input hi]
  exact runCommand_of_error hp _ _

end Sys2Proof.Machine
end

section
/-! SUPPORT. The length of a varint's shortest form, the errors each operation and host call can end in and the result
fields of each operation, with the proofs of the statements about them (30_encoding R63 to R65, R69). -/

namespace Sys2Proof.Machine

/-! ### The shortest varint -/

/-- A varint has `n` bytes exactly when the value fits in `n` groups of 7 bits and not in one fewer (30_encoding
R69). -/
theorem varintLen_eq_iff {v n : Nat} (hn : 1 ≤ n) :
    varintLen v = n ↔ (n = 1 ∨ 2 ^ (7 * (n - 1)) ≤ v) ∧ v < 2 ^ (7 * n) := by
  have hpos := varintLen_pos v
  rw [← varintLen_le_iff v n hn]
  by_cases h1 : n = 1
  · omega
  · have hlow := varintLen_le_iff v (n - 1) (by omega)
    omega

/-- A 64-bit value has one bit left for its tenth group (30_encoding R69). -/
theorem varintByte_tenth {v : BitVec 64} (h : 2 ^ 63 ≤ v.toNat) : varintByte v 10 9 = 0x01#8 := by
  have hs : v >>> 63 = 1#64 := by
    have := v.isLt
    apply BitVec.eq_of_toNat_eq
    rw [BitVec.toNat_ushiftRight, Nat.shiftRight_eq_div_pow]
    simp only [BitVec.toNat_ofNat]
    omega
  rw [varintByte, show Config.varintGroup * 9 = 63 from rfl, hs]
  rfl

/-- The tenth byte of a varint, if it has one, is `01` (30_encoding R69). -/
theorem varintBytes_tenth {v : BitVec 64} {b : Byte} (hb : (varintBytes v)[9]? = some b) : b = 0x01#8 := by
  obtain ⟨hlt, rfl⟩ := List.getElem?_eq_some_iff.1 hb
  have hten : varintLen v.toNat = 10 := by
    have := varintLen_le_ten v
    rw [varintBytes_length] at hlt
    omega
  obtain ⟨hlow, -⟩ := (varintLen_eq_iff (by omega)).1 hten
  rw [varintBytes_getElem, hten]
  exact varintByte_tenth (by omega)

/-- Settles O16: the length is the least number of 7-bit groups that hold the value. -/
theorem varintLengthFollowsTheTable : Obligations.VarintLengthFollowsTheTable := by
  unfold Obligations.VarintLengthFollowsTheTable
  refine fun v => ⟨varintBytes_length v, varintLen_pos _, varintLen_le_ten v, fun n hn _ => varintLen_eq_iff hn, ?_,
    fun b => varintBytes_tenth⟩
  rintro rfl
  rfl

/-! ### The errors of an outcome -/

/-- An outcome whose error, if it is one, is among the kinds listed. -/
structure OnlyErrors {α : Type} (ks : List ErrorKind) (x : OpResult α) : Prop where
  mem : ∀ k, x = .error k → k ∈ ks

section
variable {α β : Type} {ks : List ErrorKind} {x : OpResult α} {p : Parameters} {m : Memory}

theorem OnlyErrors.done (a : α) : OnlyErrors ks (.done a m) :=
  ⟨fun _ h => nomatch h⟩

theorem OnlyErrors.error {k : ErrorKind} (hk : k ∈ ks) : OnlyErrors ks (.error k : OpResult α) :=
  ⟨fun _ h => OpResult.error.inj h ▸ hk⟩

theorem OnlyErrors.refused (r : Refusal) : OnlyErrors ks (.refused r : OpResult α) :=
  ⟨fun _ h => nomatch h⟩

/-- A check adds the kind it raises. -/
theorem OnlyErrors.check {c : Prop} [Decidable c] {k : ErrorKind} (hk : k ∈ ks) (hx : OnlyErrors ks x) :
    OnlyErrors ks (if c then .error k else x) := by
  split
  · exact .error hk
  · exact hx

theorem OnlyErrors.mono {js : List ErrorKind} (hx : OnlyErrors js x) (h : js ⊆ ks) : OnlyErrors ks x :=
  ⟨fun k hk => h (hx.mem k hk)⟩

theorem OnlyErrors.andThen {f : α → Memory → OpResult β} (hx : OnlyErrors ks x) (hf : ∀ a m, OnlyErrors ks (f a m)) :
    OnlyErrors ks (x.andThen f) := by
  refine ⟨fun k h => ?_⟩
  rcases andThen_eq_error.1 h with hk | ⟨a, m, -, hk⟩
  · exact hx.mem k hk
  · exact (hf a m).mem k hk

/-- A window outside `MEM` is a refusal and no error (60_exceptions R241). -/
theorem OnlyErrors.inWindow {w : Window} (hx : OnlyErrors ks x) : OnlyErrors ks (inWindow p w x) :=
  ⟨fun k h => hx.mem k (inWindow_eq_error.1 h).2⟩

/-- A byte nothing has written is a refusal and no error (70_reset_and_hazards R275). -/
theorem OnlyErrors.withBytes {addr n : Nat} {f : List Byte → OpResult α} (hf : ∀ bs, OnlyErrors ks (f bs)) :
    OnlyErrors ks (withBytes m addr n f) := by
  rcases withBytes_cases m addr n f with ⟨bs, -, -, he⟩ | ⟨a, -, -, -, he⟩
  · exact he ▸ hf bs
  · exact he ▸ .refused _

/-- An overlapping source is a refusal and no error (93 U17). -/
theorem OnlyErrors.withSource {dest : Window} {f : List Byte → OpResult α} (hf : ∀ bs, OnlyErrors ks (f bs))
    (src : VarSource) : OnlyErrors ks (withSource p m dest f src) := by
  cases src with
  | literal bs => exact hf bs
  | window w =>
    refine .inWindow ?_
    split
    · exact .refused _
    · exact .withBytes hf

/-- A reader call without a reader is a refusal and no error (48_frame_context R200; log 14). -/
theorem OnlyErrors.withReader {d : Decoder} {x : OpResult (CallValue × Decoder)} (hx : OnlyErrors ks x) :
    OnlyErrors ks (withReader d x) := by
  unfold Machine.withReader
  split
  · exact .refused _
  · exact hx

end

/-! ### The errors of each operation -/

section
variable (p : Parameters) (m : Memory)

theorem opCrc32c_onlyErrors (base len : Nat) : OnlyErrors [] (opCrc32c p m base len) :=
  ⟨fun _ h => absurd h opCrc32c_ne_error⟩

theorem opVarintEnc_onlyErrors (base cap : Nat) (v : BitVec 64) :
    OnlyErrors [.bufferTooSmall] (opVarintEnc p m base cap v) :=
  .inWindow (.check (by simp) (.done _))

/-- The tests (T), (O1) and (O2) of the loop are its only errors (41_varint R118). -/
theorem varintDecLoop_onlyErrors (base avail left i : Nat) (acc : BitVec 64) :
    OnlyErrors [.truncated, .overflow] (varintDecLoop m base avail left i acc) := by
  induction left generalizing i acc with
  | zero => exact .check (by simp) (.error (by simp))
  | succ left ih =>
    refine .check (by simp) ?_
    split
    · exact .refused _
    · refine .check (by simp) ?_
      dsimp only
      split
      · exact .done _
      · exact ih _ _

theorem opVarintDec_onlyErrors (base avail : Nat) :
    OnlyErrors [.truncated, .overflow] (opVarintDec p m base avail) :=
  .inWindow (varintDecLoop_onlyErrors m base avail _ _ _)

theorem opHdrSer_onlyErrors (base cap : Nat) (h : FrameHeader) :
    OnlyErrors [.bufferTooSmall] (opHdrSer p m base cap h) :=
  .inWindow (.check (by simp) (.done _))

theorem opHdrDes_onlyErrors (base avail : Nat) :
    OnlyErrors [.truncated, .invalidMagic, .unsupportedVersion] (opHdrDes p m base avail) :=
  .inWindow (.check (by simp) (.withBytes fun _ => .check (by simp) (.check (by simp) (.done _))))

end

section
variable {α : Type} {s t : State} {ks : List ErrorKind} {fields : α → Result} {x : OpResult α}

/-- An error response is the error of its operation (60_exceptions R246). -/
theorem OnlyErrors.respond (hx : OnlyErrors ks x) (h : respond s fields x = .next t) {k : ErrorKind}
    (hk : t.response = some (.error k)) : k ∈ ks := by
  rcases respond_eq_next.1 h with ⟨a, m, -, rfl⟩ | ⟨k', hx', rfl⟩
  · cases hk
  · cases hk
    exact hx.mem k hx'

/-- A success response has the fields of its operation's result (30_encoding R64). -/
theorem result_of_respond (h : respond s fields x = .next t) {r : Result} (hr : t.response = some (.ok r)) :
    ∃ a m, x = .done a m ∧ r = fields a := by
  rcases respond_eq_next.1 h with ⟨a, m, hx, rfl⟩ | ⟨k, -, rfl⟩
  · cases hr
    exact ⟨a, m, hx, rfl⟩
  · cases hr

end

/-- An operation answers only the errors the table of 30_encoding R65 lists for it. -/
theorem error_mem_errorsOf {i : Instr} {s t : State} {k : ErrorKind} (h : exec i s = .next t)
    (hk : t.response = some (.error k)) : k ∈ errorsOf i := by
  cases i with
  | crc32c base len => exact (opCrc32c_onlyErrors ..).respond h hk
  | varintEnc base cap value => exact (opVarintEnc_onlyErrors ..).respond h hk
  | varintDec base avail => exact (opVarintDec_onlyErrors ..).respond h hk
  | hdrSer base cap header => exact (opHdrSer_onlyErrors ..).respond h hk
  | hdrDes base avail => exact (opHdrDes_onlyErrors ..).respond h hk

/-! ### The errors of each host call -/

section
variable (p : Parameters) (m : Memory) (e : Encoder) (d : Decoder)

theorem beginFrame_onlyErrors (h : FrameHeader) (ext : List Byte) :
    OnlyErrors [.invalidState, .bufferTooSmall] (beginFrame p m e h ext) := by
  refine .check (by simp) (.check (by simp) (.check (by simp) ?_))
  refine .andThen ((opHdrSer_onlyErrors ..).mono (by simp)) fun _ m1 => ?_
  split
  · exact .andThen ((opVarintEnc_onlyErrors ..).mono (by simp)) fun _ _ => .done _
  · exact .done _

theorem putBytes_onlyErrors (ws : WriterState) (bs : List Byte) :
    OnlyErrors [.bufferTooSmall] (putBytes m e ws bs) :=
  .check (by simp) (.done _)

theorem putFixed_onlyErrors (v : FixedValue) :
    OnlyErrors [.invalidState, .fieldOrderViolation, .bufferTooSmall] (putFixed m e v) := by
  refine .check (by simp) ?_
  split
  · exact .error (by simp)
  · exact (putBytes_onlyErrors ..).mono (by simp)

theorem putBitmap_onlyErrors (b : Bitmap) :
    OnlyErrors [.invalidState, .fieldOrderViolation, .bufferTooSmall] (putBitmap m e b) := by
  refine .check (by simp) ?_
  split
  · exact .error (by simp)
  · exact (putBytes_onlyErrors ..).mono (by simp)

theorem putVarbytes_onlyErrors (src : VarSource) :
    OnlyErrors [.invalidState, .fieldOrderViolation, .overflow, .bufferTooSmall] (putVarbytes p m e src) := by
  refine .check (by simp) ?_
  split
  · exact .error (by simp)
  · refine .check (by simp) (.check (by simp) (.check (by simp) (.withSource (fun bs => ?_) src)))
    exact .andThen ((opVarintEnc_onlyErrors ..).mono (by simp)) fun _ _ => .done _

theorem finishFrame_onlyErrors :
    OnlyErrors [.invalidState, .overflow, .bufferTooSmall] (finishFrame p m e) := by
  refine .check (by simp) (.check (by simp) (.check (by simp) ?_))
  exact .andThen ((opCrc32c_onlyErrors ..).mono (by simp)) fun _ _ => .done _

theorem readHeader_onlyErrors :
    OnlyErrors [.invalidState, .truncated, .invalidMagic, .unsupportedVersion, .overflow, .lengthMismatch]
      (readHeader p m d) := by
  refine .check (by simp) (.andThen ((opHdrDes_onlyErrors ..).mono (by simp)) fun r _ => ?_)
  dsimp only
  split
  · refine .andThen ((opVarintDec_onlyErrors ..).mono (by simp)) fun x _ => ?_
    exact .check (by simp) (.check (by simp) (.done _))
  · exact .check (by simp) (.done _)

theorem verifyFrame_onlyErrors : OnlyErrors [.invalidState, .checksumMismatch] (verifyFrame p m d) := by
  refine .check (by simp) (.andThen ((opCrc32c_onlyErrors ..).mono (by simp)) fun crc _ => ?_)
  exact .withBytes fun stored => .check (by simp) (.done _)

theorem openBody_onlyErrors : OnlyErrors [.invalidState] (openBody m d) :=
  .check (by simp) (.done _)

theorem getBytes_onlyErrors (rs : ReaderState) (n : Nat) (value : List Byte → CallValue) :
    OnlyErrors [.truncated] (getBytes m d rs n value) :=
  .check (by simp) (.withBytes fun _ => .done _)

theorem getFixed_onlyErrors (t : FixedType) : OnlyErrors [.fieldOrderViolation, .truncated] (getFixed m d t) := by
  refine .withReader ?_
  split
  · exact .error (by simp)
  · exact (getBytes_onlyErrors ..).mono (by simp)

theorem getBitmap_onlyErrors (w : BitmapWidth) :
    OnlyErrors [.fieldOrderViolation, .truncated] (getBitmap m d w) := by
  refine .withReader ?_
  split
  · exact .error (by simp)
  · exact (getBytes_onlyErrors ..).mono (by simp)

theorem takeVarbytes_onlyErrors (value : Window → CallValue) :
    OnlyErrors [.fieldOrderViolation, .truncated, .overflow] (takeVarbytes p m d value) := by
  refine .withReader ?_
  split
  · exact .error (by simp)
  · refine .andThen ((opVarintDec_onlyErrors ..).mono (by simp)) fun x _ => ?_
    exact .check (by simp) (.done _)

end

section
variable {s t : State} {ks : List ErrorKind} {k : ErrorKind}

/-- The error of an encoder call is the error of its outcome (48_frame_context R195). -/
theorem error_mem_of_onEncoder {f : Encoder → OpResult (CallValue × Encoder)} (hf : ∀ e, OnlyErrors ks (f e))
    (h : onEncoder s f = .next t) (hk : t.callResult = some (.error k)) : k ∈ ks := by
  obtain ⟨e, -, he⟩ := onEncoder_eq_next.1 h
  rcases settleEncoder_eq_next.1 he with ⟨v, e', m, -, rfl⟩ | ⟨k', hx, rfl⟩
  · cases hk
  · cases hk
    exact (hf e).mem k hx

/-- The error of a decoder call is the error of its outcome (48_frame_context R195, R202). -/
theorem error_mem_of_onDecoder {f : Decoder → OpResult (CallValue × Decoder)} (hf : ∀ d, OnlyErrors ks (f d))
    (h : onDecoder s f = .next t) (hk : t.callResult = some (.error k)) : k ∈ ks := by
  obtain ⟨d, -, hd⟩ := onDecoder_eq_next.1 h
  rcases settleDecoder_eq_next.1 hd with ⟨v, d', m, -, rfl⟩ | ⟨k', hx, rfl⟩
  · cases hk
  · cases hk
    exact (hf d).mem k hx

end

/-- The status is 0 exactly for success (30_encoding R63). -/
theorem status_eq_zero_iff (r : Response) : r.status = 0x00#8 ↔ ∃ x, r = .ok x := by
  cases r with
  | ok x => exact ⟨fun _ => ⟨x, rfl⟩, fun _ => rfl⟩
  | error k => cases k <;> simp [Response.status, ErrorKind.code]

/-- Settles O31: the errors of each operation and of each call are those of its checks and of the operations it
issues. -/
theorem eachOperationsErrors : Obligations.EachOperationsErrors := by
  unfold Obligations.EachOperationsErrors
  refine ⟨fun i s t k h hk => ?_, status_eq_zero_iff, rfl, rfl, rfl, rfl, rfl, rfl, rfl, rfl, rfl,
    fun c s t k h hk => ?_⟩
  · have hmem := error_mem_errorsOf h hk
    cases i with
    | crc32c => exact absurd hmem List.not_mem_nil
    | varintEnc | varintDec | hdrSer | hdrDes => simpa [errorsOf] using hmem
  · cases c with
    | openEncoder | openDecoder => trivial
    | beginFrame hdr ext => simpa using error_mem_of_onEncoder (fun _ => beginFrame_onlyErrors ..) h hk
    | putFixed v => simpa using error_mem_of_onEncoder (fun _ => putFixed_onlyErrors ..) h hk
    | putBitmap b => simpa using error_mem_of_onEncoder (fun _ => putBitmap_onlyErrors ..) h hk
    | putVarbytes src => simpa using error_mem_of_onEncoder (fun _ => putVarbytes_onlyErrors ..) h hk
    | finishCrc32c => simpa using error_mem_of_onEncoder (fun _ => finishFrame_onlyErrors ..) h hk
    | readHeader => simpa using error_mem_of_onDecoder (fun _ => readHeader_onlyErrors ..) h hk
    | verifyCrc32c => simpa using error_mem_of_onDecoder (fun _ => verifyFrame_onlyErrors ..) h hk
    | openBody => simpa using error_mem_of_onDecoder (fun _ => openBody_onlyErrors ..) h hk
    | getFixed type => simpa using error_mem_of_onDecoder (fun _ => getFixed_onlyErrors ..) h hk
    | getBitmap width => simpa using error_mem_of_onDecoder (fun _ => getBitmap_onlyErrors ..) h hk
    | getVarbytes | skipVarbytes => simpa using error_mem_of_onDecoder (fun _ => takeVarbytes_onlyErrors ..) h hk

/-! ### The result fields -/

/-- Settles O32: the fields are those of the operation's result, and a length up to ten is a number of 64 bits. -/
theorem eachOperationsResultFields : Obligations.EachOperationsResultFields := by
  unfold Obligations.EachOperationsResultFields
  intro i s t r h hr
  cases i with
  | crc32c base len =>
    obtain ⟨crc, m, -, rfl⟩ := result_of_respond h hr
    exact ⟨crc, rfl⟩
  | varintEnc base cap value =>
    obtain ⟨n, m, hx, rfl⟩ := result_of_respond h hr
    obtain ⟨-, -, rfl, -⟩ := opVarintEnc_eq_done.1 hx
    have hpos := varintLen_pos value.toNat
    have hten := varintLen_le_ten value
    exact ⟨_, rfl, by rw [BitVec.toNat_ofNat]; omega, by rw [BitVec.toNat_ofNat]; omega⟩
  | varintDec base avail =>
    obtain ⟨⟨v, n⟩, m, hx, rfl⟩ := result_of_respond h hr
    obtain ⟨-, hpos, -, hten, -⟩ := opVarintDec_eq_done hx
    exact ⟨v, _, rfl, by rw [BitVec.toNat_ofNat]; omega, by rw [BitVec.toNat_ofNat]; omega⟩
  | hdrSer base cap header =>
    obtain ⟨n, m, hx, rfl⟩ := result_of_respond h hr
    obtain ⟨-, -, rfl, -⟩ := opHdrSer_eq_done.1 hx
    rfl
  | hdrDes base avail =>
    obtain ⟨⟨hdr, n⟩, m, hx, rfl⟩ := result_of_respond h hr
    obtain ⟨-, -, rfl, -⟩ := opHdrDes_eq_done.1 hx
    exact ⟨hdr, rfl⟩

end Sys2Proof.Machine
end

section
/-! SUPPORT. The algebra of the CRC register: each step, bit by bit; steps, bytes and sequences are linear and lose
nothing; and the proofs of the statements about `CRC32C` (40_crc32c). -/

namespace Sys2Proof.Machine

/-! ### One step of the register -/

/-- A step, bit by bit: bit `i` is bit `i + 1` of before, flipped where the polynomial has a term and bit 0 was set
(40_crc32c R92). -/
theorem getLsbD_crcShift (c : BitVec 32) (i : Nat) :
    (crcShift c).getLsbD i = (c.getLsbD (i + 1) ^^ (c.getLsbD 0 && Config.polyReflected.getLsbD i)) := by
  unfold crcShift
  cases h : c.getLsbD 0 <;> simp [Nat.add_comm]

theorem crcShift_xor (c d : BitVec 32) : crcShift (c ^^^ d) = crcShift c ^^^ crcShift d := by
  refine BitVec.eq_of_getLsbD_eq fun i _ => ?_
  simp only [getLsbD_crcShift, BitVec.getLsbD_xor, Bool.and_xor_distrib_right, Bool.xor_assoc, Bool.xor_left_comm]

/-- A step loses nothing: the polynomial has its term at bit 31, where the shift brings a zero, so bit 31 tells bit 0
of before, and with it every other bit tells its neighbour (40_crc32c R95 (d)). -/
theorem crcShift_injective : Function.Injective crcShift := by
  intro c d h
  have hbit (i : Nat) := congrArg (BitVec.getLsbD · i) h
  simp only [getLsbD_crcShift] at hbit
  have h0 : c.getLsbD 0 = d.getLsbD 0 := by simpa [Config.polyReflected] using hbit 31
  refine BitVec.eq_of_getLsbD_eq fun i _ => ?_
  cases i with
  | zero => exact h0
  | succ i =>
    have hi := hbit i
    rwa [h0, Bool.xor_left_inj] at hi

/-- With bit 0 clear a step only shifts. -/
theorem crcShift_of_even {c : BitVec 32} (h : c.getLsbD 0 = false) : crcShift c = c >>> 1 := by
  rw [crcShift, h, if_neg Bool.false_ne_true]

/-! ### Eight steps -/

theorem crcShifts_xor (k : Nat) (c d : BitVec 32) : crcShifts k (c ^^^ d) = crcShifts k c ^^^ crcShifts k d := by
  induction k generalizing c d with
  | zero => rfl
  | succ k ih => simp only [crcShifts, crcShift_xor, ih]

theorem crcShifts_injective (k : Nat) : Function.Injective (crcShifts k) := by
  induction k with
  | zero => exact Function.injective_id
  | succ k ih => exact ih.comp crcShift_injective

/-- With the lowest `k` bits clear, `k` steps only shift. -/
theorem crcShifts_of_low_bits_clear {k : Nat} {c : BitVec 32} (h : ∀ i < k, c.getLsbD i = false) :
    crcShifts k c = c >>> k := by
  induction k generalizing c with
  | zero => simp [crcShifts]
  | succ k ih =>
    have hlow : ∀ i < k, (c >>> 1).getLsbD i = false := fun i hi => by
      rw [BitVec.getLsbD_ushiftRight]
      exact h _ (by omega)
    rw [crcShifts, crcShift_of_even (h 0 (by omega)), ih hlow, ← BitVec.shiftRight_add, Nat.add_comm]

/-- The register's own low byte, XORed into it, leaves it with its low eight bits clear. -/
theorem getLsbD_xor_low_byte (c : BitVec 32) (i : Nat) (hi : i < 8) :
    (c ^^^ (c.setWidth 8).setWidth 32).getLsbD i = false := by
  simp [hi, show i < 32 by omega]

/-- So eight steps from there only move the rest of the register down. -/
theorem crcShifts_eight_xor_low_byte (c : BitVec 32) : crcShifts 8 (c ^^^ (c.setWidth 8).setWidth 32) = c >>> 8 := by
  rw [crcShifts_of_low_bits_clear (getLsbD_xor_low_byte c)]
  exact BitVec.eq_of_getLsbD_eq fun i _ => by simp

/-- Eight steps are a shift by eight and the table's entry for the low byte (40_crc32c R92): linearity splits the
register into the part above the low byte, which only shifts, and the low byte. -/
theorem crcShifts_eight_eq_table (c : BitVec 32) : crcShifts 8 c = (c >>> 8) ^^^ crcTable (c.setWidth 8) := by
  calc crcShifts 8 c = crcShifts 8 ((c ^^^ (c.setWidth 8).setWidth 32) ^^^ (c.setWidth 8).setWidth 32) := by
        rw [BitVec.xor_assoc, BitVec.xor_self, BitVec.xor_zero]
    _ = crcShifts 8 (c ^^^ (c.setWidth 8).setWidth 32) ^^^ crcTable (c.setWidth 8) := crcShifts_xor ..
    _ = (c >>> 8) ^^^ crcTable (c.setWidth 8) := by rw [crcShifts_eight_xor_low_byte]

/-! ### One byte -/

theorem crcByte_xor (c d : BitVec 32) (a b : Byte) : crcByte (c ^^^ d) (a ^^^ b) = crcByte c a ^^^ crcByte d b := by
  rw [crcByte, crcByte, crcByte, ← crcShifts_xor, BitVec.setWidth_xor]
  ac_rfl

/-- The register after a byte tells the register before it. -/
theorem crcByte_register_injective (b : Byte) : Function.Injective (crcByte · b) := fun _ _ h =>
  (BitVec.xor_left_inj _).1 (crcShifts_injective 8 h)

theorem setWidth_byte_injective : Function.Injective fun b : Byte => b.setWidth 32 :=
  Function.LeftInverse.injective (g := BitVec.setWidth 8) fun b => by simp

/-- The register after a byte tells the byte. -/
theorem crcByte_byte_injective (c : BitVec 32) : Function.Injective (crcByte c) := fun _ _ h =>
  setWidth_byte_injective ((BitVec.xor_right_inj _).1 (crcShifts_injective 8 h))

/-- The register's own low byte drops out, and the rest moves down. -/
theorem crcByte_own_low_byte (c : BitVec 32) : crcByte c (c.setWidth 8) = c >>> 8 :=
  crcShifts_eight_xor_low_byte c

/-! ### A byte sequence -/

theorem crcUpdate_append (c : BitVec 32) (s t : List Byte) :
    crcUpdate c (s ++ t) = crcUpdate (crcUpdate c s) t := by
  induction s generalizing c with
  | nil => rfl
  | cons b s ih => exact ih (crcByte c b)

theorem crcUpdate_xor {s t : List Byte} (h : s.length = t.length) (c d : BitVec 32) :
    crcUpdate (c ^^^ d) (List.zipWith (· ^^^ ·) s t) = crcUpdate c s ^^^ crcUpdate d t := by
  induction s generalizing c d t with
  | nil => simp [List.length_eq_zero_iff.1 h.symm]
  | cons a s ih =>
    cases t with
    | nil => cases h
    | cons b t =>
      rw [List.zipWith_cons_cons, crcUpdate_cons, crcUpdate_cons, crcUpdate_cons, crcByte_xor]
      exact ih (by simpa using h) _ _

/-- The register after a sequence tells the register before it. -/
theorem crcUpdate_injective (s : List Byte) : Function.Injective (crcUpdate · s) := by
  induction s with
  | nil => exact Function.injective_id
  | cons b s ih => exact ih.comp (crcByte_register_injective b)

/-- The register after a sequence with one byte replaced tells that byte. -/
theorem crcUpdate_set_injective (c : BitVec 32) {s : List Byte} {k : Nat} (hk : k < s.length) :
    Function.Injective fun b => crcUpdate c (s.set k b) := by
  intro a b h
  simp only [List.set_eq_take_append_cons_drop, if_pos hk, crcUpdate_append, crcUpdate_cons] at h
  exact crcByte_byte_injective _ (crcUpdate_injective _ h)

/-- A sequence with a byte changed has another CRC-32C (40_crc32c R95 (d)). -/
theorem crc32c_set_ne {s : List Byte} {k : Nat} (hk : k < s.length) {b : Byte} (hb : b ≠ s[k]) :
    crc32c (s.set k b) ≠ crc32c s := by
  intro h
  have hu : crcUpdate Config.crcInit (s.set k b) = crcUpdate Config.crcInit (s.set k s[k]) := by
    rw [List.set_getElem_self]
    exact (BitVec.xor_left_inj _).1 h
  exact hb (crcUpdate_set_injective _ hk hu)

/-! ### The residue -/

/-- A register fed its own bytes, lowest first, ends at zero: each byte drops out and the rest moves down. -/
theorem crcUpdate_own_bytes (n : Nat) (c : BitVec 32) (h : c.toNat < 256 ^ n) :
    crcUpdate c (leBytes n c.toNat) = 0#32 := by
  induction n generalizing c with
  | zero => exact BitVec.eq_of_toNat_eq (Nat.lt_one_iff.1 h)
  | succ n ih =>
    have hlow : BitVec.ofNat 8 (c.toNat % 256) = c.setWidth 8 := BitVec.eq_of_toNat_eq (by simp)
    have hrest : c.toNat / 256 = (c >>> 8).toNat := by simp [Nat.shiftRight_eq_div_pow]
    rw [leBytes, crcUpdate_cons, hlow, crcByte_own_low_byte, hrest]
    refine ih _ ?_
    rw [← hrest]
    omega

/-- Four bytes change the register as four zero bytes change the register XORed with them: by linearity the two
differ by a register fed its own bytes. -/
theorem crcUpdate_four_bytes (c v : BitVec 32) :
    crcUpdate c (leBytes 4 v.toNat) = crcUpdate (c ^^^ v) (List.replicate 4 0#8) := by
  have hzero : List.zipWith (· ^^^ ·) (List.replicate 4 0#8) (leBytes 4 v.toNat) = leBytes 4 v.toNat := by
    simp [leBytes, List.replicate]
  calc crcUpdate c (leBytes 4 v.toNat)
      = crcUpdate ((c ^^^ v) ^^^ v) (List.zipWith (· ^^^ ·) (List.replicate 4 0#8) (leBytes 4 v.toNat)) := by
        rw [hzero, BitVec.xor_assoc, BitVec.xor_self, BitVec.xor_zero]
    _ = crcUpdate (c ^^^ v) (List.replicate 4 0#8) ^^^ crcUpdate v (leBytes 4 v.toNat) :=
        crcUpdate_xor (by simp) _ _
    _ = crcUpdate (c ^^^ v) (List.replicate 4 0#8) := by
        rw [crcUpdate_own_bytes 4 v v.isLt, BitVec.xor_zero]

/-! ### The normal form -/

/-- A step of the normal form, bit by bit from the top (40_crc32c R93). -/
theorem getMsbD_crcNormalShift (r : BitVec 32) (i : Nat) :
    (crcNormalShift r).getMsbD i = (r.getMsbD (i + 1) ^^ (r.getMsbD 0 && Config.poly.getMsbD i)) := by
  have htop : r.getLsbD 31 = r.getMsbD 0 := by simp [BitVec.getMsbD_eq_getLsbD]
  unfold crcNormalShift
  rw [htop]
  cases h : r.getMsbD 0 <;> simp

theorem reverse_crcNormalShift (r : BitVec 32) : (crcNormalShift r).reverse = crcShift r.reverse := by
  refine BitVec.eq_of_getLsbD_eq fun i _ => ?_
  rw [getLsbD_crcShift, polyReflected_eq_reverse]
  simp only [BitVec.getLsbD_reverse, getMsbD_crcNormalShift]

theorem reverse_crcNormalShifts (k : Nat) (r : BitVec 32) :
    (crcNormalShifts k r).reverse = crcShifts k r.reverse := by
  induction k generalizing r with
  | zero => rfl
  | succ k ih => rw [crcNormalShifts, crcShifts, ih, reverse_crcNormalShift]

/-- A byte reversed into the top byte of the register is, seen from the other end, the byte in the low one. -/
theorem reverse_xor_top_byte (r : BitVec 32) (b : Byte) :
    (r ^^^ (b.reverse.setWidth 32 <<< 24)).reverse = r.reverse ^^^ b.setWidth 32 := by
  refine BitVec.eq_of_getLsbD_eq fun i hi => ?_
  simp only [BitVec.getLsbD_reverse, BitVec.getLsbD_xor, BitVec.getMsbD_xor, BitVec.getMsbD_shiftLeft,
    BitVec.getMsbD_setWidth, BitVec.getMsbD_reverse, BitVec.getLsbD_setWidth]
  simp [hi]

/-- The normal-form register is the reflected one seen from the other end (40_crc32c R93). -/
theorem reverse_crcNormalUpdate (r : BitVec 32) (s : List Byte) :
    (crcNormalUpdate r s).reverse = crcUpdate r.reverse s := by
  induction s generalizing r with
  | nil => rfl
  | cons b s ih => rw [crcNormalUpdate, crcUpdate, ih, reverse_crcNormalShifts, reverse_xor_top_byte, crcByte]

/-! ### The statements -/

theorem exec_crc32c (base len : Addr) (s : State) :
    exec (.crc32c base len) s = respond s .crc32c (opCrc32c s.cfg s.mem base.toNat len.toNat) := rfl

/-- Settles O7: the window is inside `MEM` and holds the bytes, and the operation leaves `MEM` as it is. -/
theorem crcReturnsChecksumOfWindow : Obligations.CrcReturnsChecksumOfWindow := by
  unfold Obligations.CrcReturnsChecksumOfWindow
  intro s base len bs hin hlen hbytes
  have hop : opCrc32c s.cfg s.mem base.toNat len.toNat = .done (crc32c bs) s.mem :=
    opCrc32c_eq_done.2 ⟨hin, rfl, bs, hlen, hbytes, rfl⟩
  rw [exec_crc32c, hop, respond_done, State.setMem_self]

/-- Settles O8: bit reversal carries each register of the normal form to the reflected one's. -/
theorem crcNormalFormComputesTheSame : Obligations.CrcNormalFormComputesTheSame := by
  unfold Obligations.CrcNormalFormComputesTheSame
  intro s
  have hinit : Config.crcInit.reverse = Config.crcInit := by decide +kernel
  rw [crc32cNormal, reverse_crcNormalUpdate, hinit, crc32c]

/-- Settles O9: the table form holds of every register, so of the one with the byte in it. -/
theorem crcByteTableFormAgrees : Obligations.CrcByteTableFormAgrees := by
  unfold Obligations.CrcByteTableFormAgrees
  refine ⟨fun c b => crcShifts_eight_eq_table _, ?_, ?_, ?_, ?_⟩ <;> decide +kernel

/-- Settles O10, by induction on the sequences; each byte's update is linear. -/
theorem crcUpdateChainsAndIsLinear : Obligations.CrcUpdateChainsAndIsLinear := by
  unfold Obligations.CrcUpdateChainsAndIsLinear
  exact ⟨crcUpdate_append, fun _ _ h => crcUpdate_xor h⟩

/-- Settles O11: whatever the register is, it XORed with the CRC it gives is the final inversion's constant, so the
four bytes act as four zero bytes on that constant. -/
theorem crcResidueIsConstant : Obligations.CrcResidueIsConstant := by
  unfold Obligations.CrcResidueIsConstant
  intro s
  have hreg : crcUpdate Config.crcInit s ^^^ crc32c s = Config.crcXorOut := by
    rw [crc32c, ← BitVec.xor_assoc, BitVec.xor_self, BitVec.zero_xor]
  rw [crc32c, crcUpdate_append, crcUpdate_four_bytes, hreg]
  decide +kernel

/-- Settles O12: a flipped bit makes another byte. -/
theorem crcDetectsEverySingleBitFlip : Obligations.CrcDetectsEverySingleBitFlip := by
  unfold Obligations.CrcDetectsEverySingleBitFlip
  intro s k hk j hj
  refine crc32c_set_ne hk fun h => ?_
  have hbit := congrArg (BitVec.getLsbD · j) h
  simp [hj] at hbit

/-- Settles O13: the register is run over each sequence. -/
theorem crcKnownValues : Obligations.CrcKnownValues := by
  unfold Obligations.CrcKnownValues
  refine ⟨?_, ?_, ?_, ?_, ?_⟩ <;> decide +kernel

end Sys2Proof.Machine
end

section
/-! SUPPORT. Varints as numbers: the bytes of the shortest form, the loop of `VARINT_DEC` byte by byte, and the proofs of
the statements about `VARINT_ENC` and `VARINT_DEC` (41_varint). -/

namespace Sys2Proof.Machine

/-! ### A byte's payload and its continuation bit -/

/-- The payload as `VARINT_DEC` masks it out (30_encoding R68). -/
theorem toNat_payload (b : Byte) : (b &&& 0x7F#8).toNat = b.toNat % 128 :=
  (BitVec.toNat_and ..).trans (Nat.and_two_pow_sub_one_eq_mod b.toNat 7)

/-- Bit 7 is clear in a terminating byte (00_scope R15). -/
theorem getLsbD_seven_eq_false (b : Byte) : b.getLsbD 7 = false ↔ b.toNat < 128 := by
  rw [← b.msb_eq_getLsbD_last, BitVec.msb_eq_false_iff_two_mul_lt]
  omega

/-- Setting the continuation bit keeps the payload: a fact about each of the 256 bytes. -/
theorem toNat_or_continuation : ∀ b : Byte, (b ||| 0x80#8).toNat = b.toNat % 128 + 128 := by
  decide +kernel

/-! ### The number of a varint -/

theorem varintNumber_append (bs cs : List Byte) :
    varintNumber (bs ++ cs) = varintNumber bs + 128 ^ bs.length * varintNumber cs := by
  induction bs with
  | nil => simp [varintNumber]
  | cons b bs ih =>
    simp only [List.cons_append, varintNumber, ih, List.length_cons, Nat.pow_succ]
    ring

theorem varintNumber_concat (bs : List Byte) (b : Byte) :
    varintNumber (bs ++ [b]) = varintNumber bs + 128 ^ bs.length * (b.toNat % 128) :=
  varintNumber_append bs [b]

theorem varintNumber_lt (bs : List Byte) : varintNumber bs < 128 ^ bs.length := by
  induction bs with
  | nil => simp [varintNumber]
  | cons b bs ih =>
    simp only [varintNumber, List.length_cons, Nat.pow_succ]
    omega

/-- Ten groups fit in 64 bits if the tenth holds one bit (41_varint R118, test (O2)). -/
theorem varintNumber_concat_lt {cs : List Byte} {b : Byte} (hlen : cs.length ≤ 9)
    (hten : cs.length = 9 → b.toNat % 128 ≤ 1) : varintNumber (cs ++ [b]) < 2 ^ 64 := by
  rcases Nat.lt_or_eq_of_le hlen with h8 | h9
  · calc varintNumber (cs ++ [b]) < 128 ^ (cs ++ [b]).length := varintNumber_lt _
      _ ≤ 128 ^ 9 := Nat.pow_le_pow_right (by decide) (by simpa using h8)
      _ < 2 ^ 64 := by decide
  · have hlt := varintNumber_lt cs
    have h1 := hten h9
    rw [varintNumber_concat]
    rw [h9] at hlt ⊢
    omega

/-- Only the payloads count. -/
theorem varintNumber_map_or_continuation (bs : List Byte) :
    varintNumber (bs.map (· ||| 0x80#8)) = varintNumber bs := by
  induction bs with
  | nil => rfl
  | cons b bs ih =>
    simp only [List.map_cons, varintNumber, ih, toNat_or_continuation]
    omega

/-- Padding bytes add nothing (41_varint R121). -/
theorem varintNumber_padding (pad : Nat) : varintNumber (List.replicate pad 0x80#8 ++ [0x00#8]) = 0 := by
  induction pad with
  | zero => rfl
  | succ pad ih => simp [List.replicate_succ, varintNumber, ih]

/-- A string of the form of `IsVarint`, split at its terminating byte (30_encoding R70). -/
theorem isVarint_concat_iff {cs : List Byte} {l : Byte} :
    IsVarint (cs ++ [l]) ↔
      (∀ b ∈ cs, 128 ≤ b.toNat) ∧ l.toNat < 128 ∧ cs.length ≤ 9 ∧ (cs.length = 9 → l.toNat % 128 ≤ 1) := by
  have htenth : (∀ b, (cs ++ [l])[9]? = some b → b.toNat % 128 ≤ 1) ∧ cs.length ≤ 9 ↔
      cs.length ≤ 9 ∧ (cs.length = 9 → l.toNat % 128 ≤ 1) := by
    rw [and_comm]
    refine and_congr_right fun hlen => ⟨fun h h9 => h l (h9 ▸ List.getElem?_concat_length), fun h b hb => ?_⟩
    have h9 : cs.length = 9 := by
      have := (List.getElem?_eq_some_iff.1 hb).1
      simp only [List.length_append, List.length_singleton] at this
      omega
    rw [← h9, List.getElem?_concat_length, Option.some.injEq] at hb
    exact hb ▸ h h9
  simp only [IsVarint, List.getLast?_concat, List.dropLast_concat, List.length_append, List.length_singleton,
    Option.some.injEq, exists_eq_left', Nat.add_le_add_iff_right (n := 1) (k := 9), ← htenth]
  tauto

/-- A varint has a terminating byte (30_encoding R70). -/
theorem IsVarint.exists_concat {bs : List Byte} (h : IsVarint bs) :
    ∃ cs l, bs = cs ++ [l] ∧ (∀ b ∈ cs, 128 ≤ b.toNat) ∧ l.toNat < 128 ∧ cs.length ≤ 9
      ∧ (cs.length = 9 → l.toNat % 128 ≤ 1) := by
  obtain ⟨l, hl, -⟩ := h.1
  obtain ⟨cs, rfl⟩ := List.getLast?_eq_some_iff.1 hl
  exact ⟨cs, l, rfl, isVarint_concat_iff.1 h⟩

/-- The number of a varint is a number of 64 bits (41_varint R118). -/
theorem IsVarint.number_lt {bs : List Byte} (h : IsVarint bs) : varintNumber bs < 2 ^ 64 := by
  obtain ⟨cs, l, rfl, -, -, hlen, hten⟩ := h.exists_concat
  exact varintNumber_concat_lt hlen hten

/-! ### The bytes of the shortest form -/

/-- Byte `i` in arithmetic: seven bits of the value, and 128 unless it is the last (41_varint R111). -/
theorem toNat_varintByte (v : BitVec 64) (n i : Nat) :
    (varintByte v n i).toNat = v.toNat / 2 ^ (7 * i) % 128 + if i + 1 < n then 128 else 0 := by
  have hp : (((v >>> (7 * i)) &&& 0x7F#64).setWidth 8).toNat = v.toNat / 2 ^ (7 * i) % 128 := by
    rw [BitVec.toNat_setWidth, BitVec.toNat_and, BitVec.toNat_ushiftRight, Nat.shiftRight_eq_div_pow,
      show (0x7F#64).toNat = 2 ^ 7 - 1 from rfl, Nat.and_two_pow_sub_one_eq_mod]
    omega
  rw [varintByte, Config.varintGroup]
  by_cases hi : i + 1 < n
  · rw [if_pos hi, if_pos (by omega), toNat_or_continuation, hp, Nat.mod_mod]
  · rw [if_neg hi, if_neg (by omega), BitVec.or_zero, hp, Nat.add_zero]

/-- The payloads of the first `n` bytes say the value modulo `128^n`. -/
theorem varintNumber_map_varintByte (v : BitVec 64) (k n : Nat) :
    varintNumber ((List.range n).map (varintByte v k)) = v.toNat % 128 ^ n := by
  induction n with
  | zero => simp [varintNumber, Nat.mod_one]
  | succ n ih =>
    have hb : (varintByte v k n).toNat % 128 = v.toNat / 128 ^ n % 128 := by
      rw [toNat_varintByte, show (128 : Nat) = 2 ^ 7 from rfl, Nat.pow_mul]
      split <;> omega
    rw [List.range_succ, List.map_append, List.map_singleton, varintNumber_concat, ih, hb, List.length_map,
      List.length_range, Nat.pow_succ, Nat.mod_mul]

/-- The shortest form says the value (41_varint R116). -/
theorem varintNumber_varintBytes (v : BitVec 64) : varintNumber (varintBytes v) = v.toNat := by
  rw [varintBytes, varintNumber_map_varintByte]
  have hlt := (varintLen_le_iff v.toNat _ (varintLen_pos _)).1 le_rfl
  rw [Nat.pow_mul] at hlt
  exact Nat.mod_eq_of_lt hlt

/-- The shortest form is a varint (30_encoding R69, R70). -/
theorem isVarint_varintBytes (v : BitVec 64) : IsVarint (varintBytes v) := by
  obtain ⟨k, hk⟩ := Nat.exists_eq_add_of_le' (varintLen_pos v.toNat)
  have hten := varintLen_le_ten v
  have hv := v.isLt
  rw [varintBytes, hk, List.range_succ, List.map_append, List.map_singleton, isVarint_concat_iff, List.length_map,
    List.length_range]
  refine ⟨fun b hb => ?_, ?_, by omega, ?_⟩
  · obtain ⟨i, hi, rfl⟩ := List.mem_map.1 hb
    rw [toNat_varintByte, if_pos (by simpa using hi)]
    omega
  · rw [toNat_varintByte, if_neg (lt_irrefl _)]
    omega
  · rintro rfl
    rw [toNat_varintByte, if_neg (lt_irrefl _)]
    omega

/-- A padded form is a varint while it has at most ten bytes (41_varint R121). -/
theorem isVarint_padded {bs : List Byte} {pad : Nat} (h : bs.length + pad + 1 ≤ 10) :
    IsVarint (bs.map (· ||| 0x80#8) ++ List.replicate pad 0x80#8 ++ [0x00#8]) := by
  refine isVarint_concat_iff.2 ⟨fun b hb => ?_, by decide, ?_, fun _ => by decide⟩
  · rcases List.mem_append.1 hb with hm | hr
    · obtain ⟨c, -, rfl⟩ := List.mem_map.1 hm
      rw [toNat_or_continuation]
      omega
    · rw [List.eq_of_mem_replicate hr]
      decide
  · simp only [List.length_append, List.length_map, List.length_replicate]
    omega

/-! ### The usual loop -/

theorem varintLen_eq_one {v : Nat} (h : v < 128) : varintLen v = 1 :=
  (varintLen_eq_iff le_rfl).2 ⟨.inl rfl, h⟩

/-- One group less, one byte less. -/
theorem varintLen_of_le {v : Nat} (h : 128 ≤ v) : varintLen v = varintLen (v / 128) + 1 := by
  have hpos := varintLen_pos (v / 128)
  obtain ⟨hlow, hlt⟩ := (varintLen_eq_iff hpos).1 rfl
  rw [varintLen_eq_iff (by omega)]
  obtain ⟨k, hk⟩ := Nat.exists_eq_add_of_le' hpos
  rw [hk] at hlow hlt ⊢
  simp only [Nat.add_sub_cancel, Nat.mul_add, Nat.pow_add] at hlow hlt ⊢
  refine ⟨.inr ?_, by omega⟩
  rcases hlow with h1 | h2
  · obtain rfl : k = 0 := by omega
    exact h
  · omega

theorem varintBytes_of_lt {v : BitVec 64} (h : v.toNat < 128) : varintBytes v = [(v &&& 0x7F#64).setWidth 8] := by
  rw [varintBytes, varintLen_eq_one h]
  simp [varintByte, List.range_succ]

theorem toNat_ushiftRight_seven (v : BitVec 64) : (v >>> 7).toNat = v.toNat / 128 := by
  rw [BitVec.toNat_ushiftRight, Nat.shiftRight_eq_div_pow]

theorem ushiftRight_seven_eq_zero (v : BitVec 64) : v >>> 7 = 0#64 ↔ v.toNat < 128 := by
  rw [← BitVec.toNat_inj, toNat_ushiftRight_seven]
  exact Nat.div_eq_zero_iff_lt (by decide)

/-- The bytes after the first are those of the value without its lowest group. -/
theorem varintByte_succ (v : BitVec 64) (n i : Nat) : varintByte v (n + 1) (i + 1) = varintByte (v >>> 7) n i := by
  have hlast : i + 1 < n + 1 - 1 ↔ i < n - 1 := by omega
  rw [varintByte, varintByte, ← BitVec.shiftRight_add, Config.varintGroup, Nat.mul_succ, Nat.add_comm (7 * i)]
  simp only [hlast]

/-- The bytes of a longer form: the lowest group with its continuation bit, then the bytes of the rest. -/
theorem varintBytes_of_le {v : BitVec 64} (h : 128 ≤ v.toNat) :
    varintBytes v = ((v &&& 0x7F#64).setWidth 8 ||| 0x80#8) :: varintBytes (v >>> 7) := by
  have hpos : 0 < varintLen (v.toNat / 128) + 1 - 1 := varintLen_pos _
  rw [varintBytes, varintBytes, toNat_ushiftRight_seven, varintLen_of_le h, List.range_succ_eq_map, List.map_cons,
    List.map_map, varintByte, if_pos hpos, Nat.mul_zero, BitVec.ushiftRight_zero]
  exact congrArg _ (List.map_congr_left fun i _ => varintByte_succ v _ i)

/-- The usual loop has the fuel for a value of `fuel + 1` groups (41_varint R111). -/
theorem varintLoop_eq_varintBytes (fuel : Nat) (v : BitVec 64) (h : v.toNat < 128 ^ (fuel + 1)) :
    varintLoop fuel v = varintBytes v := by
  induction fuel generalizing v with
  | zero => rw [varintBytes_of_lt h, varintLoop]
  | succ fuel ih =>
    rw [varintLoop]
    by_cases hv : v.toNat < 128
    · rw [if_pos ((ushiftRight_seven_eq_zero v).2 hv), varintBytes_of_lt hv]
    · have hrest : (v >>> 7).toNat < 128 ^ (fuel + 1) := by
        rw [toNat_ushiftRight_seven]
        omega
      rw [if_neg (mt (ushiftRight_seven_eq_zero v).1 hv), varintBytes_of_le (Nat.not_lt.1 hv), ih _ hrest]

/-! ### The loop of `VARINT_DEC` -/

/-- A byte string with a last byte is there when the string is and the byte follows it. -/
theorem holdsBytes_concat_iff {m : Memory} {base : Nat} {cs : List Byte} {b : Byte} :
    HoldsBytes m base (cs ++ [b]) ↔ HoldsBytes m base cs ∧ memRead m (base + cs.length) = some b := by
  constructor
  · intro h
    refine ⟨fun k hk => ?_, by simpa using h cs.length (by simp)⟩
    rw [h k (by rw [List.length_append]; omega), List.getElem_append_left hk]
  · rintro ⟨hcs, hb⟩ k hk
    rcases Nat.lt_or_ge k cs.length with hlt | hge
    · rw [hcs k hlt, List.getElem_append_left hlt]
    · rw [List.length_append, List.length_singleton] at hk
      obtain rfl : k = cs.length := by omega
      simpa using hb

/-- Continuation bytes, as a byte string. -/
theorem firstContinue_iff {m : Memory} {base k : Nat} :
    FirstContinue m base k ↔ ∃ cs : List Byte, cs.length = k ∧ HoldsBytes m base cs ∧ ∀ b ∈ cs, 128 ≤ b.toNat := by
  constructor
  · intro h
    choose f hf hc using h
    refine ⟨List.ofFn fun j : Fin k => f j j.isLt, by simp, fun j hj => ?_, fun b hb => ?_⟩
    · rw [List.getElem_ofFn]
      exact hf j _
    · obtain ⟨j, rfl⟩ := List.mem_ofFn.1 hb
      exact hc j _
  · rintro ⟨cs, rfl, hb, hc⟩ j hj
    exact ⟨cs[j], hb j hj, hc _ (List.getElem_mem hj)⟩

section
variable {m : Memory} {base avail left i : Nat} {acc : BitVec 64} {b : Byte}

/-- Test (T) (41_varint R118). -/
theorem varintDecLoop_at_end (h : avail ≤ i) : varintDecLoop m base avail left i acc = .error .truncated := by
  cases left <;> rw [varintDecLoop, if_pos h]

/-- Test (O1) (41_varint R118). -/
theorem varintDecLoop_eleventh (h : i < avail) : varintDecLoop m base avail 0 i acc = .error .overflow := by
  rw [varintDecLoop, if_neg (by omega)]

/-- Test (O2) (41_varint R118). -/
theorem varintDecLoop_tenth_payload (h : 9 < avail) (hb : memRead m (base + 9) = some b) (hp : 1 < b.toNat % 128) :
    varintDecLoop m base avail (left + 1) 9 acc = .error .overflow := by
  rw [varintDecLoop, if_neg (by omega), hb]
  exact if_pos ⟨rfl, (toNat_payload b).symm ▸ hp⟩

/-- The bytes read so far are `cs`; the next byte adds its payload to the number they say (41_varint R118: "no bit is
lost"). -/
theorem varintNumber_or_payload {cs : List Byte} (hlen : cs.length ≤ 9) (hten : cs.length = 9 → b.toNat % 128 ≤ 1) :
    BitVec.ofNat 64 (varintNumber cs) ||| ((b &&& 0x7F#8).setWidth 64 <<< (Config.varintGroup * cs.length))
      = BitVec.ofNat 64 (varintNumber (cs ++ [b])) := by
  have hlt := varintNumber_concat_lt hlen hten
  have hcs := varintNumber_lt cs
  have hp : b.toNat % 128 % 2 ^ 64 = b.toNat % 128 := by omega
  rw [varintNumber_concat, show 128 ^ cs.length = 2 ^ (7 * cs.length) from (Nat.pow_mul 2 7 _).symm] at *
  have hread := (Nat.le_add_right _ _).trans_lt hlt
  have hadded := (Nat.le_add_left _ _).trans_lt hlt
  apply BitVec.eq_of_toNat_eq
  rw [BitVec.toNat_or, BitVec.toNat_shiftLeft, BitVec.toNat_setWidth, toNat_payload, BitVec.toNat_ofNat,
    BitVec.toNat_ofNat, Nat.mod_eq_of_lt hlt, Nat.mod_eq_of_lt hread, hp, Nat.shiftLeft_eq, Nat.mul_comm,
    Nat.mod_eq_of_lt hadded, Nat.or_comm, ← Nat.two_pow_add_eq_or_of_lt hcs, Nat.add_comm]

/-- One byte that passes the tests: the loop returns or goes on with the number of the bytes read (41_varint R118). -/
theorem varintDecLoop_step {cs : List Byte} (ha : cs.length < avail) (hb : memRead m (base + cs.length) = some b)
    (hlen : cs.length ≤ 9) (hten : cs.length = 9 → b.toNat % 128 ≤ 1) :
    varintDecLoop m base avail (left + 1) cs.length (BitVec.ofNat 64 (varintNumber cs)) =
      if b.toNat < 128 then .done (BitVec.ofNat 64 (varintNumber (cs ++ [b])), cs.length + 1) m
      else varintDecLoop m base avail left (cs.length + 1) (BitVec.ofNat 64 (varintNumber (cs ++ [b]))) := by
  have hO2 : ¬(cs.length = 9 ∧ 1 < (b &&& 0x7F#8).toNat) := by
    rw [toNat_payload]
    omega
  rw [varintDecLoop, if_neg (by omega), hb]
  dsimp only
  rw [if_neg hO2]
  simp only [varintNumber_or_payload hlen hten, getLsbD_seven_eq_false]

/-- Past the continuation bytes `cs` the loop holds the number they say. -/
theorem varintDecLoop_skip {cs : List Byte} (hb : HoldsBytes m base cs) (hc : ∀ b ∈ cs, 128 ≤ b.toNat)
    (hlen : cs.length ≤ 9) (ha : cs.length ≤ avail) :
    varintDecLoop m base avail (cs.length + left) 0 0#64
      = varintDecLoop m base avail left cs.length (BitVec.ofNat 64 (varintNumber cs)) := by
  induction cs using List.reverseRecOn generalizing left with
  | nil => simp [varintNumber]
  | append_singleton cs b ih =>
    obtain ⟨hcs, hlast⟩ := holdsBytes_concat_iff.1 hb
    rw [List.length_append, List.length_singleton] at hlen ha ⊢
    rw [Nat.add_assoc, Nat.add_comm 1 left, ih hcs (fun c h => hc c (by simp [h])) (by omega) (by omega),
      varintDecLoop_step (by omega) hlast (by omega) (by omega), if_neg (Nat.not_lt.2 (hc b (by simp)))]

/-- `VARINT_DEC` past at most nine continuation bytes. -/
theorem varintDecLoop_after_continues {cs : List Byte} (hb : HoldsBytes m base cs) (hc : ∀ b ∈ cs, 128 ≤ b.toNat)
    (hlen : cs.length ≤ 9) (ha : cs.length ≤ avail) :
    varintDecLoop m base avail 10 0 0#64
      = varintDecLoop m base avail (10 - cs.length) cs.length (BitVec.ofNat 64 (varintNumber cs)) := by
  rw [← varintDecLoop_skip hb hc hlen ha, Nat.add_sub_cancel' (by omega)]

/-- The same from the bytes one by one. -/
theorem varintDecLoop_after_firstContinue {k : Nat} (h : FirstContinue m base k) (hk : k ≤ 9) (ha : k ≤ avail) :
    ∃ cs : List Byte, cs.length = k ∧ varintDecLoop m base avail 10 0 0#64
      = varintDecLoop m base avail (10 - k) k (BitVec.ofNat 64 (varintNumber cs)) := by
  obtain ⟨cs, rfl, hb, hc⟩ := firstContinue_iff.1 h
  exact ⟨cs, rfl, varintDecLoop_after_continues hb hc hk ha⟩

/-- A tenth continuation byte with payload 0 or 1 brings the loop to the tests (T) and (O1) of the eleventh. -/
theorem varintDecLoop_after_ten (h : FirstContinue m base 10) (hb : memRead m (base + 9) = some b)
    (hp : b.toNat % 128 ≤ 1) (ha : 10 ≤ avail) :
    ∃ acc, varintDecLoop m base avail 10 0 0#64 = varintDecLoop m base avail 0 10 acc := by
  have hnine : FirstContinue m base 9 := fun j hj => h j (by omega)
  have hge : 128 ≤ b.toNat := by
    obtain ⟨c, hc, hge⟩ := h 9 (by omega)
    rw [hb] at hc
    exact Option.some.inj hc ▸ hge
  obtain ⟨cs, hcs, hloop⟩ := varintDecLoop_after_firstContinue hnine le_rfl (Nat.le_of_succ_le ha)
  have hstep := varintDecLoop_step (left := 0) (cs := cs) (avail := avail) (by omega) (hcs ▸ hb) hcs.le fun _ => hp
  rw [if_neg (Nat.not_lt.2 hge), hcs] at hstep
  exact ⟨_, hloop.trans hstep⟩

end

/-! ### The two operations -/

section
variable {s : State} {base cap avail : Addr} {v : BitVec 64} {bs : List Byte}

/-- `VARINT_ENC` with space for the shortest form writes it and answers its length (41_varint R110). -/
theorem exec_varintEnc_of_le (hin : base.toNat + cap.toNat ≤ s.cfg.memSize.val) (hcap : varintLen v.toNat ≤ cap.toNat) :
    exec (.varintEnc base cap v) s = .next ((s.setMem (writeBytes s.mem base.toNat (varintBytes v))).setResponse
      (some (.ok (.varintEnc (BitVec.ofNat 64 (varintLen v.toNat)))))) :=
  congrArg (respond s _) (opVarintEnc_eq_done.2 ⟨hin, hcap, rfl, rfl⟩)

/-- `VARINT_DEC` inside `MEM` answers what its loop gives (41_varint R118). -/
theorem exec_varintDec (hin : base.toNat + avail.toNat ≤ s.cfg.memSize.val) :
    exec (.varintDec base avail) s = respond s (fun r => .varintDec r.1 (BitVec.ofNat 64 r.2))
      (varintDecLoop s.mem base.toNat avail.toNat 10 0 0#64) :=
  congrArg (respond s _) (inWindow_of_le hin)

/-- `VARINT_DEC` on a varint answers the number it says and its length, and changes nothing else (41_varint R117). -/
theorem exec_varintDec_of_isVarint (hin : base.toNat + avail.toNat ≤ s.cfg.memSize.val) (hv : IsVarint bs)
    (ha : bs.length ≤ avail.toNat) (hb : HoldsBytes s.mem base.toNat bs) :
    exec (.varintDec base avail) s = .next (s.setResponse
      (some (.ok (.varintDec (BitVec.ofNat 64 (varintNumber bs)) (BitVec.ofNat 64 bs.length))))) := by
  obtain ⟨cs, l, rfl, hc, hl, hlen, hten⟩ := hv.exists_concat
  obtain ⟨hcs, hlast⟩ := holdsBytes_concat_iff.1 hb
  rw [List.length_append, List.length_singleton] at ha ⊢
  rw [exec_varintDec hin, varintDecLoop_after_continues hcs hc hlen (by omega), Nat.succ_sub hlen,
    varintDecLoop_step (by omega) hlast hlen hten, if_pos hl, respond_done, State.setMem_self]

end

/-! ### The statements -/

/-- Settles O14: the bytes written are those of the shortest form, each given by its arithmetic. -/
theorem varintEncWritesShortestForm : Obligations.VarintEncWritesShortestForm := by
  unfold Obligations.VarintEncWritesShortestForm
  intro s base cap value hin hcap
  have hexec := exec_varintEnc_of_le hin hcap
  refine ⟨_, hexec, rfl, fun i hi => ?_, ?_, exec_onlyBlock hexec⟩
  · rw [← varintBytes_length] at hi
    calc memRead (writeBytes s.mem base.toNat (varintBytes value)) (base.toNat + i)
        = some (varintBytes value)[i] := holdsBytes_writeBytes _ _ _ i hi
      _ = _ := by rw [varintBytes_getElem, ← toNat_varintByte, BitVec.ofNat_toNat, BitVec.setWidth_eq]
  · rw [← varintBytes_length]
    exact sameOutside_writeBytes s.mem base.toNat (varintBytes value)

/-- Settles O17: both give the bytes of the lowest group and go on with the rest of the value. -/
theorem varintUsualLoopAgrees : Obligations.VarintUsualLoopAgrees := by
  unfold Obligations.VarintUsualLoopAgrees
  exact fun v => varintLoop_eq_varintBytes 9 v (v.isLt.trans (by decide))

/-- Settles O19: after the continuation bytes the loop holds the number they say, and the terminating byte ends it. -/
theorem varintDecReturnsValueAndLength : Obligations.VarintDecReturnsValueAndLength := by
  unfold Obligations.VarintDecReturnsValueAndLength
  exact fun s base avail bs hin hv ha hb => ⟨hv.number_lt, exec_varintDec_of_isVarint hin hv ha hb⟩

/-- Settles O18: the shortest form is a varint that says the value, and the encoder leaves it at `base`. -/
theorem varintEncodeThenDecode : Obligations.VarintEncodeThenDecode := by
  unfold Obligations.VarintEncodeThenDecode
  intro s base cap avail v hin hcap hin' havail
  refine ⟨_, exec_varintEnc_of_le hin hcap, rfl, ?_⟩
  rw [exec_varintDec_of_isVarint (bs := varintBytes v), varintNumber_varintBytes, varintBytes_length,
    BitVec.ofNat_toNat, BitVec.setWidth_eq]
  · exact hin'
  · exact isVarint_varintBytes v
  · rwa [varintBytes_length]
  · exact holdsBytes_writeBytes s.mem base.toNat (varintBytes v)

/-- Settles O23: the continuation bits and the padding leave the number as it is. -/
theorem paddedVarintsDecodeToTheSameValue : Obligations.PaddedVarintsDecodeToTheSameValue := by
  unfold Obligations.PaddedVarintsDecodeToTheSameValue
  intro s base avail v pad hin hten ha hb
  have hlen : ((varintBytes v).map (· ||| 0x80#8) ++ List.replicate pad 0x80#8 ++ [0x00#8]).length
      = varintLen v.toNat + pad + 1 := by
    simp [Nat.add_assoc]
  have hnum : varintNumber ((varintBytes v).map (· ||| 0x80#8) ++ List.replicate pad 0x80#8 ++ [0x00#8]) = v.toNat := by
    rw [List.append_assoc, varintNumber_append, varintNumber_padding, varintNumber_map_or_continuation,
      varintNumber_varintBytes, Nat.mul_zero, Nat.add_zero]
  rw [exec_varintDec_of_isVarint hin (isVarint_padded (by rwa [varintBytes_length])) (hlen.trans_le ha) hb, hlen, hnum,
    BitVec.ofNat_toNat, BitVec.setWidth_eq]

/-- Settles O20: nine continuation bytes bring the loop to the tenth, where the tests come in the rule's order; fewer
bring it to the window's end. -/
theorem varintDecErrorOrder : Obligations.VarintDecErrorOrder := by
  unfold Obligations.VarintDecErrorOrder
  intro s base avail hin
  have hfew (hlt : avail.toNat < 10) (hc : FirstContinue s.mem base.toNat avail.toNat) :
      exec (.varintDec base avail) s = .next (s.setResponse (some (.error .truncated))) := by
    obtain ⟨cs, hcs, hloop⟩ := varintDecLoop_after_firstContinue hc (Nat.le_of_lt_succ hlt) le_rfl
    rw [exec_varintDec hin, hloop, varintDecLoop_at_end le_rfl, respond_error]
  refine ⟨fun b ha hc hb hp => ?_, fun b ha hc hb hp => ?_, fun b ha hc hb hp => ?_, hfew, fun h0 => ?_⟩
  · obtain ⟨acc, hloop⟩ := varintDecLoop_after_ten hc hb hp ha.ge
    rw [exec_varintDec hin, hloop, varintDecLoop_at_end ha.le, respond_error]
  · obtain ⟨acc, hloop⟩ := varintDecLoop_after_ten hc hb hp ha.le
    rw [exec_varintDec hin, hloop, varintDecLoop_eleventh ha, respond_error]
  · obtain ⟨cs, hcs, hloop⟩ := varintDecLoop_after_firstContinue hc le_rfl (Nat.le_of_succ_le ha)
    rw [exec_varintDec hin, hloop, varintDecLoop_tenth_payload ha hb hp, respond_error]
  · exact hfew (by omega) fun j hj => absurd hj (by omega)

end Sys2Proof.Machine
end

section
/-! SUPPORT. The 14 bytes of a header and its fields, a write of bytes that are already there, and the proofs of the
statements about `HDR_SER` and `HDR_DES` (42_header; 30_encoding R71 to R73). -/

namespace Sys2Proof

/-- A byte takes the lowest eight bits of a number. -/
theorem ofNat_eight_mod (v : Nat) : BitVec.ofNat 8 (v % 256) = BitVec.ofNat 8 v :=
  BitVec.eq_of_toNat_eq (Nat.mod_mod v 256)

end Sys2Proof

namespace Sys2Proof.Machine

/-! ### A header and its bytes -/

/-- The fields of a header's bytes are the header's, whatever follows them (42_header R151). -/
theorem headerOf_headerBytes_append (h : FrameHeader) (rest : List Byte) : headerOf (headerBytes h ++ rest) = h := by
  simp [headerOf, headerBytes, fieldAt_append, ofNat_fieldAt_zero]

theorem headerOf_headerBytes (h : FrameHeader) : headerOf (headerBytes h) = h := by
  simpa using headerOf_headerBytes_append h []

/-- The header of 14 bytes has these bytes: "the layout has no padding and no ignored bit" (42_header R151). -/
theorem headerBytes_headerOf {bs : List Byte} (hl : bs.length = 14) : headerBytes (headerOf bs) = bs := by
  have hrest : headerBytes (headerOf bs) ++ bs.drop 14 = bs := by
    simp (disch := omega) only [headerBytes, headerOf, List.append_assoc, leBytes_fieldAt_append_drop, List.drop_zero]
  rwa [List.drop_eq_nil_of_le hl.le, List.append_nil] at hrest

/-- The 14 bytes written out, field by field (30_encoding R72). -/
theorem headerBytes_eq (h : FrameHeader) :
    headerBytes h =
      [BitVec.ofNat 8 h.magic.toNat, BitVec.ofNat 8 (h.magic.toNat / 2 ^ 8), h.version, h.flags,
        BitVec.ofNat 8 h.msgType.toNat, BitVec.ofNat 8 (h.msgType.toNat / 2 ^ 8),
        BitVec.ofNat 8 h.seq.toNat, BitVec.ofNat 8 (h.seq.toNat / 2 ^ 8),
        BitVec.ofNat 8 (h.seq.toNat / 2 ^ 16), BitVec.ofNat 8 (h.seq.toNat / 2 ^ 24),
        BitVec.ofNat 8 h.bodyLen.toNat, BitVec.ofNat 8 (h.bodyLen.toNat / 2 ^ 8),
        BitVec.ofNat 8 (h.bodyLen.toNat / 2 ^ 16), BitVec.ofNat 8 (h.bodyLen.toNat / 2 ^ 24)] := by
  simp [headerBytes, leBytes, ofNat_eight_mod, Nat.div_div_eq_div_mul]

/-- The fields of 14 bytes written out, byte by byte (30_encoding R72). -/
theorem headerOf_bytes (b0 b1 b2 b3 b4 b5 b6 b7 b8 b9 b10 b11 b12 b13 : Byte) :
    headerOf [b0, b1, b2, b3, b4, b5, b6, b7, b8, b9, b10, b11, b12, b13] =
      { magic := BitVec.ofNat 16 (b0.toNat + 256 * b1.toNat)
        version := b2
        flags := b3
        msgType := BitVec.ofNat 16 (b4.toNat + 256 * b5.toNat)
        seq := BitVec.ofNat 32 (b6.toNat + 2 ^ 8 * b7.toNat + 2 ^ 16 * b8.toNat + 2 ^ 24 * b9.toNat)
        bodyLen := BitVec.ofNat 32 (b10.toNat + 2 ^ 8 * b11.toNat + 2 ^ 16 * b12.toNat + 2 ^ 24 * b13.toNat) } := by
  simp [headerOf, fieldAt, fromLE, Nat.mul_add, ← Nat.mul_assoc, Nat.add_assoc]

/-- `magic` is the first two bytes (30_encoding R72). -/
theorem headerOf_magic_toNat (bs : List Byte) : (headerOf bs).magic.toNat = fromLE (bs.take 2) := by
  have hlt : fromLE (bs.take 2) < 256 ^ 2 :=
    (fromLE_lt _).trans_le (Nat.pow_le_pow_right (by decide) (List.length_take_le 2 bs))
  exact Nat.mod_eq_of_lt hlt

/-- `version` is the third byte (30_encoding R72). -/
theorem headerOf_version {bs : List Byte} (hl : 2 < bs.length) : (headerOf bs).version = bs[2] := by
  have hfield : fieldAt 2 1 bs = bs[2].toNat := by
    rw [fieldAt, List.drop_eq_getElem_cons hl, List.take_succ_cons, List.take_zero]
    rfl
  rw [headerOf, hfield, BitVec.ofNat_toNat, BitVec.setWidth_eq]

/-! ### Writing what is there -/

/-- Bytes that are there already, written again, leave every byte as it was. -/
theorem memRead_writeBytes_of_holds {m : Memory} {addr : Nat} {bs : List Byte} (h : HoldsBytes m addr bs) (a : Nat) :
    memRead (writeBytes m addr bs) a = memRead m a := by
  by_cases ha : addr ≤ a ∧ a < addr + bs.length
  · obtain ⟨k, rfl⟩ := Nat.exists_eq_add_of_le ha.1
    have hk : k < bs.length := by omega
    rw [holdsBytes_writeBytes m addr bs k hk, h k hk]
  · exact memRead_writeBytes_outside m addr bs (by omega)

/-- So a write into a canonical memory, repeated, changes nothing. -/
theorem writeBytes_writeBytes_self {m : Memory} (h : Memory.wf m) (addr : Nat) (bs : List Byte) :
    writeBytes (writeBytes m addr bs) addr bs = writeBytes m addr bs :=
  have hw := writeBytes_wf h addr bs
  Memory.ext_of_wf (writeBytes_wf hw addr bs) hw (memRead_writeBytes_of_holds (holdsBytes_writeBytes m addr bs))

/-! ### The two operations -/

section
variable {s t : State} {base cap avail : Addr} {h : FrameHeader} {bs : List Byte} {n : BitVec 64}

/-- `HDR_SER` with space for the header writes its bytes and answers 14 (42_header R140). -/
theorem exec_hdrSer_of_le (hin : base.toNat + cap.toNat ≤ s.cfg.memSize.val) (hcap : 14 ≤ cap.toNat) :
    exec (.hdrSer base cap h) s
      = .next ((s.setMem (writeBytes s.mem base.toNat (headerBytes h))).setResponse (some (.ok (.hdrSer 14)))) :=
  congrArg (respond s _) (opHdrSer_eq_done.2 ⟨hin, hcap, rfl, rfl⟩)

/-- `HDR_SER` without space for the header answers its error (42_header R141). -/
theorem exec_hdrSer_of_lt (hin : base.toNat + cap.toNat ≤ s.cfg.memSize.val) (hcap : cap.toNat < 14) :
    exec (.hdrSer base cap h) s = .next (s.setResponse (some (.error .bufferTooSmall))) :=
  congrArg (respond s _) (opHdrSer_eq_error.2 ⟨hin, hcap, rfl⟩)

/-- `HDR_DES` with fewer than 14 bytes reads none of them (42_header R147). -/
theorem exec_hdrDes_of_lt (hin : base.toNat + avail.toNat ≤ s.cfg.memSize.val) (ha : avail.toNat < 14) :
    exec (.hdrDes base avail) s = .next (s.setResponse (some (.error .truncated))) :=
  congrArg (respond s _) ((inWindow_of_le hin).trans (if_pos ha))

/-- `HDR_DES` on 14 bytes that are there answers what the checks of their header give (42_header R147). -/
theorem exec_hdrDes_of_holds (hin : base.toNat + avail.toNat ≤ s.cfg.memSize.val) (ha : 14 ≤ avail.toNat)
    (hl : bs.length = 14) (hb : HoldsBytes s.mem base.toNat bs) :
    exec (.hdrDes base avail) s
      = respond s (fun r => .hdrDes r.1 (BitVec.ofNat 64 r.2)) (checkHeader s.cfg s.mem (headerOf bs)) :=
  congrArg (respond s _)
    ((inWindow_of_le hin).trans ((if_neg (Nat.not_lt.2 ha)).trans (withBytes_of_holds hl hb)))

/-- `HDR_DES` accepts 14 bytes whose header has the right magic and a supported version, and changes nothing else
(42_header R146). -/
theorem exec_hdrDes_of_accepted (hin : base.toNat + avail.toNat ≤ s.cfg.memSize.val) (ha : 14 ≤ avail.toNat)
    (hl : bs.length = 14) (hb : HoldsBytes s.mem base.toNat bs) (hof : headerOf bs = h)
    (hmagic : h.magic = s.cfg.magic) (hversion : h.version.toNat ≤ s.cfg.maxVersion.toNat) :
    exec (.hdrDes base avail) s = .next (s.setResponse (some (.ok (.hdrDes h 14)))) :=
  congrArg (respond s _) (opHdrDes_eq_done.2 ⟨hin, ha, rfl, rfl, hmagic, hversion, bs, hl, hb, hof.symm⟩)

/-- A header `HDR_DES` has returned stands at `base`, byte by byte, and `MEM` is as it was (42_header R146, R151). -/
theorem holdsBytes_of_exec_hdrDes (he : exec (.hdrDes base avail) s = .next t)
    (hr : t.response = some (.ok (.hdrDes h n))) : t.mem = s.mem ∧ HoldsBytes s.mem base.toNat (headerBytes h) := by
  obtain ⟨⟨h', n'⟩, m, hx, hfields⟩ := result_of_respond he hr
  obtain ⟨rfl, -⟩ := Result.hdrDes.inj hfields
  obtain ⟨-, -, -, -, -, -, bs, hl, hb, rfl⟩ := opHdrDes_eq_done.1 hx
  exact ⟨mem_eq_of_respond he fun _ _ => opHdrDes_mem, (headerBytes_headerOf hl).symm ▸ hb⟩

end

/-! ### The statements -/

/-- Settles O28: one way the header's bytes are left at `base` and give the header back; the other way the bytes of the
header returned are those at `base`, and writing them again changes none. -/
theorem headerRoundTrips : Obligations.HeaderRoundTrips := by
  unfold Obligations.HeaderRoundTrips
  refine ⟨fun s base cap avail h hin hcap hin' havail hmagic hversion => ?_,
    fun s t base avail cap h n he hr hin hcap => ?_⟩
  · have hb := holdsBytes_writeBytes s.mem base.toNat (headerBytes h)
    exact ⟨_, exec_hdrSer_of_le hin hcap, exec_hdrDes_of_accepted hin' havail (headerBytes_length h) hb
      (headerOf_headerBytes h) hmagic hversion⟩
  · obtain ⟨hmem, hb⟩ := holdsBytes_of_exec_hdrDes he hr
    refine ⟨_, exec_hdrSer_of_le ((exec_onlyBlock he).cfg ▸ hin) hcap, fun a => ?_⟩
    rw [State.setResponse_mem, State.setMem_mem, hmem]
    exact memRead_writeBytes_of_holds hb a

/-- Settles O24: the bytes written are the header's, written out field by field. -/
theorem hdrSerWritesTheHeader : Obligations.HdrSerWritesTheHeader := by
  unfold Obligations.HdrSerWritesTheHeader
  intro s base cap h hin hcap
  have hexec := exec_hdrSer_of_le (h := h) hin hcap
  refine ⟨_, hexec, rfl, ?_, ?_, exec_onlyBlock hexec⟩
  · rw [← headerBytes_eq]
    exact holdsBytes_writeBytes s.mem base.toNat (headerBytes h)
  · rw [← headerBytes_length h]
    exact sameOutside_writeBytes s.mem base.toNat (headerBytes h)

/-- Settles O25: with space for the header the second write finds its bytes there; without, nothing is written. -/
theorem hdrSerTwiceIsHdrSerOnce : Obligations.HdrSerTwiceIsHdrSerOnce := by
  unfold Obligations.HdrSerTwiceIsHdrSerOnce
  intro s t base cap h hwf he
  have hin : base.toNat + cap.toNat ≤ s.cfg.memSize.val := exec_window_inside he
  rcases Nat.lt_or_ge cap.toNat 14 with hlt | hge
  · rw [exec_hdrSer_of_lt hin hlt] at he
    cases he
    exact exec_hdrSer_of_lt hin hlt
  · rw [exec_hdrSer_of_le hin hge] at he
    cases he
    rw [exec_hdrSer_of_le (by exact hin) hge, State.setResponse_mem, State.setMem_mem, writeBytes_writeBytes_self hwf]
    rfl

/-- Settles O26: the header of the 14 bytes passes both checks. -/
theorem hdrDesReturnsTheFields : Obligations.HdrDesReturnsTheFields := by
  unfold Obligations.HdrDesReturnsTheFields
  intro s base avail b0 b1 b2 b3 b4 b5 b6 b7 b8 b9 b10 b11 b12 b13 hin ha hb hmagic hversion
  have hm : BitVec.ofNat 16 (b0.toNat + 256 * b1.toNat) = s.cfg.magic := by
    rw [hmagic, BitVec.ofNat_toNat, BitVec.setWidth_eq]
  have hof := headerOf_bytes b0 b1 b2 b3 b4 b5 b6 b7 b8 b9 b10 b11 b12 b13
  rw [hm] at hof
  exact exec_hdrDes_of_accepted hin ha rfl hb hof rfl hversion

/-- Settles O27: the window's length comes before the bytes, and of the bytes `magic` before `version`. -/
theorem hdrDesErrorPriority : Obligations.HdrDesErrorPriority := by
  unfold Obligations.HdrDesErrorPriority
  refine fun s base avail hin => ⟨exec_hdrDes_of_lt hin, fun bs hl ha hb => ⟨fun hmagic => ?_, fun hmagic hv => ?_⟩⟩
  · have hne : (headerOf bs).magic ≠ s.cfg.magic := fun h => hmagic (by rw [← headerOf_magic_toNat, h])
    rw [exec_hdrDes_of_holds hin ha hl hb, checkHeader, if_pos hne, respond_error]
  · have heq : (headerOf bs).magic = s.cfg.magic := BitVec.eq_of_toNat_eq ((headerOf_magic_toNat bs).trans hmagic)
    have hlt : s.cfg.maxVersion.toNat < (headerOf bs).version.toNat := by
      rw [headerOf_version (by omega)]
      exact hv _ (List.getElem?_eq_getElem _)
    rw [exec_hdrDes_of_holds hin ha hl hb, checkHeader, if_neg (not_not.2 heq), if_pos hlt, respond_error]

end Sys2Proof.Machine
end

section
/-! SUPPORT. What a host call leaves, from the outcome of its procedure; each encoder call case by case; and the proofs
of the statements about failed calls, the Frame Encoder and the Body Writer (48_frame_context R181 to R190, R195). -/

namespace Sys2Proof.Machine

/-! ### A call and the outcome of its procedure -/

section
variable {s t : State} {e : Encoder} {d : Decoder} {k : ErrorKind} {v : CallValue} {m : Memory}

theorem onEncoder_of_error {f : Encoder → OpResult (CallValue × Encoder)} (he : s.encoder = some e)
    (hx : f e = .error k) : onEncoder s f = .next (s.setCallResult (some (.error k))) := by
  rw [onEncoder, he]
  exact congrArg (settleEncoder s) hx

theorem onDecoder_of_error {f : Decoder → OpResult (CallValue × Decoder)} (hd : s.decoder = some d)
    (hx : f d = .error k) : onDecoder s f = .next (s.setCallResult (some (.error k))) := by
  rw [onDecoder, hd]
  exact congrArg (settleDecoder s) hx

theorem onEncoder_of_refused {f : Encoder → OpResult (CallValue × Encoder)} {r : Refusal} (he : s.encoder = some e)
    (hx : f e = .refused r) : onEncoder s f = .refused r := by
  rw [onEncoder, he]
  exact congrArg (settleEncoder s) hx

/-- An encoder call whose procedure ends in a value leaves that value, the encoder and `MEM`, and all else as it was. -/
theorem onEncoder_of_done {f : Encoder → OpResult (CallValue × Encoder)} {e' : Encoder} (he : s.encoder = some e)
    (hx : f e = .done (v, e') m) :
    ∃ t, onEncoder s f = .next t ∧ t.callResult = some (.ok v) ∧ t.encoder = some e' ∧ t.mem = m ∧ OnlyEncoder s t := by
  rw [onEncoder, he]
  exact ⟨_, congrArg (settleEncoder s) hx, rfl, rfl, rfl, rfl, rfl, rfl, rfl, rfl⟩

/-- A decoder call that writes nothing leaves its value and the decoder. -/
theorem onDecoder_of_done {f : Decoder → OpResult (CallValue × Decoder)} {d' : Decoder} (hd : s.decoder = some d)
    (hx : f d = .done (v, d') s.mem) :
    onDecoder s f = .next ((s.setDecoder (some d')).setCallResult (some (.ok v))) := by
  rw [onDecoder, hd]
  exact congrArg (settleDecoder s) hx

/-- The error of an encoder call is its procedure's. -/
theorem error_of_onEncoder {f : Encoder → OpResult (CallValue × Encoder)} (he : s.encoder = some e)
    (h : onEncoder s f = .next t) (hk : t.callResult = some (.error k)) : f e = .error k := by
  obtain ⟨e', he', hs⟩ := onEncoder_eq_next.1 h
  obtain rfl : e = e' := Option.some.inj (he.symm.trans he')
  rcases settleEncoder_eq_next.1 hs with ⟨v, e', m, -, rfl⟩ | ⟨k', hx, rfl⟩
  · cases hk
  · cases hk
    exact hx

/-- The error of a decoder call is its procedure's. -/
theorem error_of_onDecoder {f : Decoder → OpResult (CallValue × Decoder)} (hd : s.decoder = some d)
    (h : onDecoder s f = .next t) (hk : t.callResult = some (.error k)) : f d = .error k := by
  obtain ⟨d', hd', hs⟩ := onDecoder_eq_next.1 h
  obtain rfl : d = d' := Option.some.inj (hd.symm.trans hd')
  rcases settleDecoder_eq_next.1 hs with ⟨v, d', m, -, rfl⟩ | ⟨k', hx, rfl⟩
  · cases hk
  · cases hk
    exact hx

/-- An encoder call that returns a value leaves the encoder its procedure gives. -/
theorem done_of_onEncoder {f : Encoder → OpResult (CallValue × Encoder)} (h : onEncoder s f = .next t)
    (hv : t.callResult = some (.ok v)) : ∃ e e', f e = .done (v, e') t.mem ∧ t.encoder = some e' := by
  obtain ⟨e, -, hs⟩ := onEncoder_eq_next.1 h
  rcases settleEncoder_eq_next.1 hs with ⟨v', e', m, hx, rfl⟩ | ⟨k, -, rfl⟩
  · cases hv
    exact ⟨e, e', hx, rfl⟩
  · cases hv

/-- A decoder call that returns a value leaves the decoder its procedure gives. -/
theorem done_of_onDecoder {f : Decoder → OpResult (CallValue × Decoder)} (h : onDecoder s f = .next t)
    (hv : t.callResult = some (.ok v)) : ∃ d d', f d = .done (v, d') t.mem ∧ t.decoder = some d' := by
  obtain ⟨d, -, hs⟩ := onDecoder_eq_next.1 h
  rcases settleDecoder_eq_next.1 hs with ⟨v', d', m, hx, rfl⟩ | ⟨k, -, rfl⟩
  · cases hv
    exact ⟨d, d', hx, rfl⟩
  · cases hv

/-- No call takes the host's encoder away. -/
theorem runCall_keeps_some_encoder {c : HostCall} (h : runCall c s = .next t) (he : s.encoder = some e) :
    ∃ e', t.encoder = some e' := by
  rcases runCall_settles h with ⟨x, hx⟩ | ⟨x, hx⟩
  · rcases settleEncoder_eq_next.1 hx with ⟨v, e', m, -, rfl⟩ | ⟨k, -, rfl⟩
    · exact ⟨e', rfl⟩
    · exact ⟨e, he⟩
  · rcases settleDecoder_eq_next.1 hx with ⟨v, d, m, -, rfl⟩ | ⟨k, -, rfl⟩
    · exact ⟨e, he⟩
    · exact ⟨e, he⟩

/-- No call takes the host's decoder away. -/
theorem runCall_keeps_some_decoder {c : HostCall} (h : runCall c s = .next t) (hd : s.decoder = some d) :
    ∃ d', t.decoder = some d' := by
  rcases runCall_settles h with ⟨x, hx⟩ | ⟨x, hx⟩
  · rcases settleEncoder_eq_next.1 hx with ⟨v, e, m, -, rfl⟩ | ⟨k, -, rfl⟩
    · exact ⟨d, hd⟩
    · exact ⟨d, hd⟩
  · rcases settleDecoder_eq_next.1 hx with ⟨v, d', m, -, rfl⟩ | ⟨k, -, rfl⟩
    · exact ⟨d', rfl⟩
    · exact ⟨d, hd⟩

end

/-- Settles O50: a call settles its procedure's outcome, and an error settles to itself alone. -/
theorem failedHostCallsChangeNothing : Obligations.FailedHostCallsChangeNothing := by
  unfold Obligations.FailedHostCallsChangeNothing
  intro c s t k h hk
  rcases runCall_settles h with ⟨x, hx⟩ | ⟨x, hx⟩
  · rcases settleEncoder_eq_next.1 hx with ⟨v, e, m, -, rfl⟩ | ⟨k', -, rfl⟩
    · cases hk
    · cases hk; rfl
  · rcases settleDecoder_eq_next.1 hx with ⟨v, d, m, -, rfl⟩ | ⟨k', -, rfl⟩
    · cases hk
    · cases hk; rfl

/-! ### Bytes that stand one after another -/

/-- A byte string is there when its two parts are. -/
theorem holdsBytes_append_iff {m : Memory} {base : Nat} {bs cs : List Byte} :
    HoldsBytes m base (bs ++ cs) ↔ HoldsBytes m base bs ∧ HoldsBytes m (base + bs.length) cs := by
  constructor
  · refine fun h => ⟨fun k hk => ?_, fun k hk => ?_⟩
    · rw [h k (by rw [List.length_append]; omega), List.getElem_append_left hk]
    · rw [Nat.add_assoc, h (bs.length + k) (by rw [List.length_append]; omega),
        List.getElem_append_right (Nat.le_add_right _ _)]
      simp
  · rintro ⟨hb, hc⟩ k hk
    rcases Nat.lt_or_ge k bs.length with hlt | hge
    · rw [hb k hlt, List.getElem_append_left hlt]
    · obtain ⟨j, rfl⟩ := Nat.exists_eq_add_of_le hge
      rw [List.length_append] at hk
      rw [← Nat.add_assoc, hc j (by omega), List.getElem_append_right hge]
      simp

/-- A write leaves the bytes before it as they were. -/
theorem HoldsBytes.writeBytes_after {m : Memory} {base addr : Nat} {bs : List Byte} (h : HoldsBytes m base bs)
    (ha : base + bs.length ≤ addr) (cs : List Byte) : HoldsBytes (writeBytes m addr cs) base bs := fun k hk => by
  rw [memRead_writeBytes_outside m addr cs (by omega), h k hk]

/-- A write leaves the bytes after it as they were. -/
theorem HoldsBytes.writeBytes_before {m : Memory} {base addr : Nat} {bs cs : List Byte} (h : HoldsBytes m base bs)
    (ha : addr + cs.length ≤ base) : HoldsBytes (writeBytes m addr cs) base bs := fun k hk => by
  rw [memRead_writeBytes_outside m addr cs (by omega), h k hk]

/-- Bytes written over part of a byte string: what stands before and after them stays. -/
theorem holdsBytes_writeBytes_inside {m : Memory} {base off : Nat} {bs cs : List Byte} (h : HoldsBytes m base bs)
    (hl : off + cs.length ≤ bs.length) :
    HoldsBytes (writeBytes m (base + off) cs) base (bs.take off ++ cs ++ bs.drop (off + cs.length)) := by
  have hsplit : bs = bs.take off ++ (bs.drop off).take cs.length ++ bs.drop (off + cs.length) := by
    rw [List.append_assoc, ← List.drop_drop, List.take_append_drop, List.take_append_drop]
  have htake : (bs.take off).length = off := List.length_take_of_le (by omega)
  have hmid : ((bs.drop off).take cs.length).length = cs.length := by
    rw [List.length_take, List.length_drop]
    omega
  rw [hsplit] at h
  obtain ⟨hfront, hback⟩ := holdsBytes_append_iff.1 h
  obtain ⟨hfirst, -⟩ := holdsBytes_append_iff.1 hfront
  rw [List.length_append, htake, hmid] at hback
  refine holdsBytes_append_iff.2 ⟨holdsBytes_append_iff.2 ⟨hfirst.writeBytes_after (by omega) cs, ?_⟩, ?_⟩
  · rw [htake]
    exact holdsBytes_writeBytes m (base + off) cs
  · rw [List.length_append, htake]
    exact hback.writeBytes_before (by omega)

/-- Two changes inside a window change nothing outside it. -/
theorem SameOutside.trans {w : Window} {m m' m'' : Memory} (h : SameOutside w m m') (h' : SameOutside w m' m'') :
    SameOutside w m m'' := fun a ha => (h' a ha).trans (h a ha)

/-- A write inside a window changes nothing outside it. -/
theorem sameOutside_writeBytes_of_within {w : Window} (m : Memory) {addr : Nat} {bs : List Byte} (hb : w.base ≤ addr)
    (hl : addr + bs.length ≤ w.base + w.len) : SameOutside w m (writeBytes m addr bs) := fun a ha => by
  rw [Window.holds_eq_false] at ha
  exact memRead_writeBytes_outside m addr bs (by omega)

/-! ### The writer's ordering table -/

section
variable {ws : WriterState} {untouched : Bool}

theorem writerAfterFixed_eq_none : writerAfterFixed ws = none ↔ ws ≠ .writingFixed := by
  cases ws <;> simp [writerAfterFixed]

theorem writerAfterBitmap_eq_none : writerAfterBitmap ws = none ↔ ws ≠ .writingFixed := by
  cases ws <;> simp [writerAfterBitmap]

theorem writerAfterVarbytes_eq_none :
    writerAfterVarbytes untouched ws = none ↔ ws = .closed ∨ (ws = .writingFixed ∧ untouched = false) := by
  cases ws <;> simp [writerAfterVarbytes]

end

/-- The writer's order allows a variable field (48_frame_context R182). -/
abbrev Encoder.VarbytesAllowed (e : Encoder) : Prop :=
  e.writer.state = .bitmapWritten ∨ e.writer.state = .writingVariable
    ∨ (e.writer.state = .writingFixed ∧ e.writer.cursor = e.writer.bodyStart)

theorem Encoder.VarbytesAllowed.after {e : Encoder} (h : e.VarbytesAllowed) :
    writerAfterVarbytes (e.writer.cursor == e.writer.bodyStart) e.writer.state = some .writingVariable := by
  rcases h with h | h | ⟨h, hc⟩
  · rw [h]; rfl
  · rw [h]; rfl
  · rw [h, hc]; simp [writerAfterVarbytes]

/-! ### Each encoder call, case by case -/

section
variable {p : Parameters} {m : Memory} {e : Encoder}

theorem openEncoder_of_ge {base cap : Nat} (hm : base + cap ≤ p.memSize.val) (hr : 2 ^ 64 ≤ base + cap) :
    openEncoder p m base cap = .error .overflow :=
  (inWindow_of_le hm).trans (checkedSum_of_ge hr)

theorem openDecoder_of_ge {base len : Nat} (hm : base + len ≤ p.memSize.val) (hr : 2 ^ 64 ≤ base + len) :
    openDecoder p m base len = .error .overflow :=
  (inWindow_of_le hm).trans (checkedSum_of_ge hr)

/-- A buffer inside `MEM` whose end is an address gets an encoder (48_frame_context R183). -/
theorem runCall_openEncoder_of_lt {s : State} {base cap : Addr} (hm : base.toNat + cap.toNat ≤ s.cfg.memSize.val)
    (hr : base.toNat + cap.toNat < 2 ^ 64) :
    runCall (.openEncoder base cap) s = .next (((s.setMem s.mem).setEncoder
      (some (newEncoder base.toNat cap.toNat))).setCallResult (some (.ok .unit))) :=
  settleEncoder_eq_next.2 (.inl ⟨_, _, _, openEncoder_eq_done.2 ⟨hm, hr, rfl, rfl, rfl⟩, rfl⟩)

/-- A buffer inside `MEM` whose end is an address gets a decoder (48_frame_context R196). -/
theorem runCall_openDecoder_of_lt {s : State} {base len : Addr} (hm : base.toNat + len.toNat ≤ s.cfg.memSize.val)
    (hr : base.toNat + len.toNat < 2 ^ 64) :
    runCall (.openDecoder base len) s = .next ((s.setDecoder
      (some (newDecoder base.toNat len.toNat))).setCallResult (some (.ok .unit))) :=
  settleDecoder_eq_next.2 (.inl ⟨_, _, _, openDecoder_eq_done.2 ⟨hm, hr, rfl, rfl, rfl⟩, rfl⟩)

theorem beginFrame_of_lt {h : FrameHeader} {ext : List Byte} (hs : e.state = .created) (hn : e.cap < beginNeed h ext) :
    beginFrame p m e h ext = .error .bufferTooSmall := by
  rw [beginFrame, if_neg (not_not.2 hs), if_pos hn, ite_self]

/-- In a buffer inside `MEM` the region `begin` needs is as long as what it writes (48_frame_context R185). -/
theorem beginBytes_length_of_le {h : FrameHeader} {ext : List Byte} (hn : beginNeed h ext ≤ e.cap)
    (hm : e.base + e.cap ≤ p.memSize.val) : (beginBytes p h ext).length = beginNeed h ext := by
  by_cases hf : extFlag h = true
  · have hsize := memSize_le p
    rw [beginNeed, if_pos hf, Config.hdrSize] at hn
    exact beginBytes_length (by omega)
  · rw [beginBytes, beginNeed, if_neg hf, if_neg hf, List.append_nil, headerBytes_length]

/-- With its space there, `begin` writes header and extension region and reserves them (48_frame_context R185). -/
theorem beginFrame_of_le {h : FrameHeader} {ext : List Byte} (hs : e.state = .created) (hn : beginNeed h ext ≤ e.cap)
    (hm : e.base + e.cap ≤ p.memSize.val) :
    beginFrame p m e h ext = .done (.unit, e.begun (placeholderHeader p h) (beginNeed h ext - 14))
      (writeBytes m e.base (beginBytes p h ext)) := by
  have hsize := memSize_le p
  have h14 := hdrSize_le_beginNeed h ext
  have hser : opHdrSer p m e.base Config.hdrSize (placeholderHeader p h)
      = .done 14 (writeBytes m e.base (headerBytes (placeholderHeader p h))) :=
    opHdrSer_eq_done.2 ⟨by simp only [Config.hdrSize]; omega, le_rfl, rfl, rfl⟩
  rw [beginFrame, if_neg (not_not.2 hs)]
  by_cases hf : extFlag h = true
  · rw [beginNeed, if_pos hf, Config.hdrSize] at hn
    have hlen : (BitVec.ofNat 64 ext.length).toNat = ext.length := Nat.mod_eq_of_lt (by omega)
    have henc : opVarintEnc p (writeBytes m e.base (headerBytes (placeholderHeader p h))) (e.base + Config.hdrSize)
        (e.cap - Config.hdrSize) (BitVec.ofNat 64 ext.length) = .done (varintLen ext.length)
          (writeBytes (writeBytes m e.base (headerBytes (placeholderHeader p h))) (e.base + 14)
            (varintBytes (BitVec.ofNat 64 ext.length))) := by
      refine opVarintEnc_eq_done.2 ⟨?_, ?_, ?_, rfl⟩
      · simp only [Config.hdrSize]; omega
      · simp only [hlen, Config.hdrSize]; omega
      · rw [hlen]
    have hneed : beginNeed h ext - 14 = varintLen ext.length + ext.length := by
      rw [beginNeed, if_pos hf, Config.hdrSize]
      omega
    rw [if_neg (by omega), if_neg (by rw [beginNeed, if_pos hf, Config.hdrSize]; omega), hser, andThen_done, if_pos hf,
      henc, andThen_done, hneed, beginBytes, if_pos hf, writeBytes_append, writeBytes_append, headerBytes_length,
      varintBytes_length, hlen]
  · have hneed : beginNeed h ext = 14 := if_neg hf
    rw [if_neg (fun hx => hf hx.1), if_neg (by omega), hser, andThen_done, if_neg hf, hneed, beginBytes, if_neg hf,
      List.append_nil]

theorem putBytes_of_lt {ws : WriterState} {bs : List Byte} (h : e.writer.limit - e.writer.cursor < bs.length) :
    putBytes m e ws bs = .error .bufferTooSmall :=
  if_pos h

theorem putBytes_of_le {ws : WriterState} {bs : List Byte} (h : bs.length ≤ e.writer.limit - e.writer.cursor) :
    putBytes m e ws bs = .done (.unit, e.advance ws bs.length) (writeBytes m e.writer.cursor bs) :=
  putBytes_eq_done.2 ⟨h, rfl, rfl, rfl⟩

/-- A source that gives its bytes gives them to the call (48_frame_context R187, 93 U17). -/
theorem withSource_of_gives {α : Type} {dest : Window} {bs : List Byte} {src : VarSource} {f : List Byte → OpResult α}
    (h : SourceGives p m dest bs src) : withSource p m dest f src = f bs := by
  cases src with
  | literal lit => exact congrArg f h
  | window w =>
    obtain ⟨hl, hin, ho, hb⟩ := h
    rw [withSource, inWindow_of_le hin, ho, if_neg Bool.false_ne_true, withBytes_of_holds hl.symm hb]

section
variable (hs : e.state = .bodyInProgress)
include hs

theorem putFixed_of_writingFixed (hw : e.writer.state = .writingFixed) (v : FixedValue) :
    putFixed m e v = putBytes m e .writingFixed (fixedBytes v) := by
  rw [putFixed, if_neg (not_not.2 hs), hw]
  rfl

theorem putFixed_of_not_writingFixed (hw : e.writer.state ≠ .writingFixed) (v : FixedValue) :
    putFixed m e v = .error .fieldOrderViolation := by
  rw [putFixed, if_neg (not_not.2 hs), writerAfterFixed_eq_none.2 hw]

theorem putBitmap_of_writingFixed (hw : e.writer.state = .writingFixed) (b : Bitmap) :
    putBitmap m e b = putBytes m e .bitmapWritten (bitmapBytes b) := by
  rw [putBitmap, if_neg (not_not.2 hs), hw]
  rfl

theorem putBitmap_of_not_writingFixed (hw : e.writer.state ≠ .writingFixed) (b : Bitmap) :
    putBitmap m e b = .error .fieldOrderViolation := by
  rw [putBitmap, if_neg (not_not.2 hs), writerAfterBitmap_eq_none.2 hw]

theorem putVarbytes_of_violation
    (hw : e.writer.state = .closed ∨ (e.writer.state = .writingFixed ∧ e.writer.cursor ≠ e.writer.bodyStart))
    (src : VarSource) : putVarbytes p m e src = .error .fieldOrderViolation := by
  have hnone : writerAfterVarbytes (e.writer.cursor == e.writer.bodyStart) e.writer.state = none := by
    rwa [writerAfterVarbytes_eq_none, beq_eq_false_iff_ne]
  rw [putVarbytes, if_neg (not_not.2 hs), hnone]

/-- Where the order allows a variable field, what is left to fail is its length and the space (48_frame_context
R187). -/
theorem putVarbytes_onlyErrors_of_allowed (ha : e.VarbytesAllowed) (src : VarSource) :
    OnlyErrors [.overflow, .bufferTooSmall] (putVarbytes p m e src) := by
  rw [putVarbytes, if_neg (not_not.2 hs), ha.after]
  refine .check (by simp) (.check (by simp) (.check (by simp) (.withSource (fun bs => ?_) src)))
  exact .andThen ((opVarintEnc_onlyErrors ..).mono (by simp)) fun _ _ => .done _

theorem putVarbytes_of_too_long (ha : e.VarbytesAllowed) {src : VarSource}
    (hmax : p.maxVarbytesLen.toNat < src.length) : putVarbytes p m e src = .error .overflow := by
  rw [putVarbytes, if_neg (not_not.2 hs), ha.after]
  exact if_pos hmax

theorem putVarbytes_of_no_room (ha : e.VarbytesAllowed) {src : VarSource} (hmax : src.length ≤ p.maxVarbytesLen.toNat)
    (hroom : e.writer.limit - e.writer.cursor < varintLen src.length + src.length) :
    putVarbytes p m e src = .error .bufferTooSmall := by
  rw [putVarbytes, if_neg (not_not.2 hs), ha.after]
  dsimp only
  rw [if_neg (Nat.not_lt.2 hmax), if_pos hroom, ite_self]

theorem putVarbytes_of_overlap (ha : e.VarbytesAllowed) {w : Window} (hmax : w.len ≤ p.maxVarbytesLen.toNat)
    (hroom : varintLen w.len + w.len ≤ e.writer.limit - e.writer.cursor) (hin : w.base + w.len ≤ p.memSize.val)
    (ho : (⟨e.writer.cursor, varintLen w.len + w.len⟩ : Window).overlaps w = true) :
    putVarbytes p m e (.window w) = .refused .sourceOverlapsDestination := by
  rw [putVarbytes, if_neg (not_not.2 hs), ha.after]
  exact (if_neg (Nat.not_lt.2 hmax)).trans <| (if_neg (by simp only [VarSource.length]; omega)).trans <|
    (if_neg (Nat.not_lt.2 hroom)).trans <| (inWindow_of_le hin).trans (if_pos ho)

/-- `put_varbytes` writes the length as a varint and then the bytes (48_frame_context R187). -/
theorem putVarbytes_of_gives (ha : e.VarbytesAllowed) {src : VarSource} {bs : List Byte}
    (hmax : bs.length ≤ p.maxVarbytesLen.toNat)
    (hroom : varintLen bs.length + bs.length ≤ e.writer.limit - e.writer.cursor)
    (hlim : e.writer.limit ≤ p.memSize.val)
    (hsrc : SourceGives p m ⟨e.writer.cursor, varintLen bs.length + bs.length⟩ bs src) :
    putVarbytes p m e src = .done (.unit, e.advance .writingVariable (varintLen bs.length + bs.length))
      (writeBytes m e.writer.cursor (varintBytes (BitVec.ofNat 64 bs.length) ++ bs)) := by
  have hpos := varintLen_pos bs.length
  have hlen : (BitVec.ofNat 64 bs.length).toNat = bs.length :=
    Nat.mod_eq_of_lt (hmax.trans_lt p.maxVarbytesLen.isLt)
  have henc : opVarintEnc p m e.writer.cursor (e.writer.limit - e.writer.cursor) (BitVec.ofNat 64 bs.length)
      = .done (varintLen bs.length) (writeBytes m e.writer.cursor (varintBytes (BitVec.ofNat 64 bs.length))) :=
    opVarintEnc_eq_done.2 ⟨by omega, by rw [hlen]; omega, by rw [hlen], rfl⟩
  rw [putVarbytes, if_neg (not_not.2 hs), ha.after, hsrc.length]
  dsimp only
  rw [if_neg (Nat.not_lt.2 hmax), if_neg (by omega), if_neg (Nat.not_lt.2 hroom), withSource_of_gives hsrc, henc,
    andThen_done, writeBytes_append, varintBytes_length, hlen]

end

theorem finishFrame_of_too_long (hs : e.state = .bodyInProgress)
    (hb : 2 ^ 32 - 1 < e.writer.cursor - e.writer.bodyStart) : finishFrame p m e = .error .overflow := by
  rw [finishFrame, if_neg (not_not.2 hs), if_pos hb]

theorem finishFrame_of_no_room (hs : e.state = .bodyInProgress)
    (hb : e.writer.cursor - e.writer.bodyStart ≤ 2 ^ 32 - 1) (hroom : e.writer.limit - e.writer.cursor < 4) :
    finishFrame p m e = .error .bufferTooSmall := by
  rw [finishFrame, if_neg (not_not.2 hs), if_neg (Nat.not_lt.2 hb), Config.trailerSize, if_pos hroom]

/-- `finish_crc32c` with the span there: the body's length over its placeholder, the checksum of the span so patched
behind it (48_frame_context R189). -/
theorem finishFrame_of_holds {patched : List Byte} (hs : e.state = .bodyInProgress)
    (hb : e.writer.cursor - e.writer.bodyStart ≤ 2 ^ 32 - 1) (hroom : 4 ≤ e.writer.limit - e.writer.cursor)
    (hlen : patched.length = e.writer.cursor - e.base) (hlow : e.base ≤ e.writer.cursor)
    (hin : e.writer.cursor ≤ p.memSize.val)
    (hp : HoldsBytes (writeBytes m (e.base + 10) (leBytes 4 (e.writer.cursor - e.writer.bodyStart))) e.base patched) :
    finishFrame p m e
      = .done (.frameLength (e.writer.cursor + 4 - e.base), e.finished (e.writer.cursor - e.writer.bodyStart))
        (writeBytes (writeBytes m (e.base + 10) (leBytes 4 (e.writer.cursor - e.writer.bodyStart))) e.writer.cursor
          (leBytes 4 (crc32c patched).toNat)) := by
  have hcrc := opCrc32c_eq_done.2 ⟨show e.base + (e.writer.cursor - e.base) ≤ p.memSize.val by omega, rfl, patched,
    hlen, hp, rfl⟩
  rw [finishFrame, if_neg (not_not.2 hs), if_neg (Nat.not_lt.2 hb), Config.trailerSize, if_neg (Nat.not_lt.2 hroom),
    hcrc, andThen_done]

end

/-! ### The statements -/

/-- Settles O44: each call looks at the encoder's state first. -/
theorem encoderStateErrors : Obligations.EncoderStateErrors := by
  unfold Obligations.EncoderStateErrors
  refine fun s e he => ⟨fun hs h ext => ?_, fun hs => ⟨fun v => ?_, fun b => ?_, fun src => ?_, ?_⟩⟩ <;>
    exact onEncoder_of_error he (if_pos hs)

/-- Settles O45: in the cells of the table that are violations the call fails before anything else is looked at; in the
others only length and space are left to fail, and the writer's state after a value is that of the cell. -/
theorem writerOrderFollowsTheTable : Obligations.WriterOrderFollowsTheTable := by
  unfold Obligations.WriterOrderFollowsTheTable
  intro s e he hs
  refine ⟨fun hw => ⟨fun v => ?_, fun b => ?_⟩, fun hw src => ?_, fun c t hcell h hk => ?_, fun c t v h hv => ?_⟩
  · exact onEncoder_of_error he (putFixed_of_not_writingFixed hs hw v)
  · exact onEncoder_of_error he (putBitmap_of_not_writingFixed hs hw b)
  · exact onEncoder_of_error he (putVarbytes_of_violation hs hw src)
  · rcases hcell with ⟨hw, ⟨v, rfl⟩ | ⟨b, rfl⟩⟩ | ⟨ha, src, rfl⟩
    · have hx := error_of_onEncoder he h hk
      rw [putFixed_of_writingFixed hs hw] at hx
      simpa using (putBytes_onlyErrors ..).mem _ hx
    · have hx := error_of_onEncoder he h hk
      rw [putBitmap_of_writingFixed hs hw] at hx
      simpa using (putBytes_onlyErrors ..).mem _ hx
    · simpa using (putVarbytes_onlyErrors_of_allowed hs ha src).mem _ (error_of_onEncoder he h hk)
  · obtain ⟨e', he'⟩ := runCall_keeps_some_encoder h he
    refine ⟨e', he', ?_, ?_, ?_⟩
    · rintro ⟨x, rfl⟩
      obtain ⟨e₀, e₁, hx, ht⟩ := done_of_onEncoder h hv
      obtain ⟨-, -, -, -, rfl, -⟩ := putFixed_eq_done hx
      cases he'.symm.trans ht
      rfl
    · rintro ⟨x, rfl⟩
      obtain ⟨e₀, e₁, hx, ht⟩ := done_of_onEncoder h hv
      obtain ⟨-, -, -, -, rfl, -⟩ := putBitmap_eq_done hx
      cases he'.symm.trans ht
      rfl
    · rintro ⟨src, rfl⟩
      obtain ⟨e₀, e₁, hx, ht⟩ := done_of_onEncoder h hv
      obtain ⟨-, bs, -, -, -, -, rfl, -⟩ := putVarbytes_eq_done hx
      cases he'.symm.trans ht
      rfl

/-- The space `begin` needs is the header and the extension region (48_frame_context R185). -/
theorem beginNeed_eq (h : FrameHeader) (ext : List Byte) :
    beginNeed h ext = 14 + if h.flags.getLsbD 0 then varintLen ext.length + ext.length else 0 := by
  rw [beginNeed, extFlag, Config.hdrSize]
  split
  · rw [Nat.add_assoc]
  · rfl

/-- Settles O46: opening checks the buffer's end and makes a new object; `begin` checks its whole space, then writes the
header and the extension region one after another. -/
theorem beginReservesHeaderAndExtension : Obligations.BeginReservesHeaderAndExtension := by
  unfold Obligations.BeginReservesHeaderAndExtension
  refine ⟨fun s base cap hin => ⟨fun hr => ?_, fun hr => ?_, fun hr => ⟨?_, ?_⟩⟩, fun s e h ext extSize he hext => ?_⟩
  · exact ⟨_, _, runCall_openEncoder_of_lt hin hr, rfl, rfl, rfl, rfl, rfl, rfl, rfl, rfl, rfl, rfl, rfl, rfl, rfl, rfl⟩
  · exact ⟨_, _, runCall_openDecoder_of_lt hin hr, rfl, rfl, rfl, rfl⟩
  · exact congrArg (settleEncoder s) (openEncoder_of_ge hin hr)
  · exact congrArg (settleDecoder s) (openDecoder_of_ge hin hr)
  · have hneed : beginNeed h ext = 14 + extSize := hext ▸ beginNeed_eq h ext
    refine ⟨fun hs => onEncoder_of_error he (if_pos hs), fun hs hlt => ?_, fun hs hle hin => ?_⟩
    · exact onEncoder_of_error he (beginFrame_of_lt hs (hneed ▸ hlt))
    · have hfits : beginNeed h ext ≤ e.cap := hneed ▸ hle
      have hlen := (beginBytes_length_of_le (p := s.cfg) hfits hin).trans hneed
      obtain ⟨t, hrun, hv, he', hmem, honly⟩ := onEncoder_of_done (f := fun e => beginFrame s.cfg s.mem e h ext) he
        (beginFrame_of_le hs hfits hin)
      obtain ⟨hhdr, hregion⟩ := holdsBytes_append_iff.1 (holdsBytes_writeBytes s.mem e.base (beginBytes s.cfg h ext))
      rw [hneed, Nat.add_sub_cancel_left] at he'
      refine ⟨t, hrun, hv, he', hmem ▸ hhdr, fun hf => ?_, hmem ▸ sameOutside_writeBytes_of_le _ _ hlen.le, honly⟩
      rwa [headerBytes_length, if_pos (show extFlag h = true from hf), ← hmem] at hregion

/-- Settles O47: with the width left, the bytes of the value are written at the cursor. -/
theorem putFixedAndBitmapWriteAtTheCursor : Obligations.PutFixedAndBitmapWriteAtTheCursor := by
  unfold Obligations.PutFixedAndBitmapWriteAtTheCursor
  intro s e he hs hw
  refine ⟨fun v hlt => ?_, fun v hle => ?_, fun b hlt => ?_, fun b hle => ?_⟩
  · rw [← fixedBytes_length] at hlt
    exact onEncoder_of_error he ((putFixed_of_writingFixed hs hw v).trans (putBytes_of_lt hlt))
  · rw [← fixedBytes_length] at hle
    obtain ⟨t, hrun, hv, he', hmem, honly⟩ := onEncoder_of_done (f := fun e => putFixed s.mem e v) he
      ((putFixed_of_writingFixed hs hw v).trans (putBytes_of_le hle))
    rw [fixedBytes_length, Encoder.advance, ← hw] at he'
    exact ⟨t, hrun, hv, he', hmem ▸ holdsBytes_writeBytes _ _ _,
      hmem ▸ sameOutside_writeBytes_of_le _ _ (fixedBytes_length v).le, honly⟩
  · rw [← bitmapBytes_length] at hlt
    exact onEncoder_of_error he ((putBitmap_of_writingFixed hs hw b).trans (putBytes_of_lt hlt))
  · rw [← bitmapBytes_length] at hle
    obtain ⟨t, hrun, hv, he', hmem, honly⟩ := onEncoder_of_done (f := fun e => putBitmap s.mem e b) he
      ((putBitmap_of_writingFixed hs hw b).trans (putBytes_of_le hle))
    rw [bitmapBytes_length] at he'
    exact ⟨t, hrun, hv, he', hmem ▸ holdsBytes_writeBytes _ _ _,
      hmem ▸ sameOutside_writeBytes_of_le _ _ (bitmapBytes_length b).le, honly⟩

/-- Settles O48: the checks come in the rule's order, and past them the length and the bytes are written at the
cursor. -/
theorem putVarbytesWritesLengthAndBytes : Obligations.PutVarbytesWritesLengthAndBytes := by
  unfold Obligations.PutVarbytesWritesLengthAndBytes
  intro s e src he hs ha
  refine ⟨fun hmax => ?_, fun hmax hroom => ?_, ?_, fun bs hmax hroom hlim hsrc => ?_⟩
  · exact onEncoder_of_error he (putVarbytes_of_too_long hs ha hmax)
  · exact onEncoder_of_error he (putVarbytes_of_no_room hs ha hmax hroom)
  · rintro w rfl hmax hroom hin ho
    exact onEncoder_of_refused he (putVarbytes_of_overlap hs ha hmax hroom hin ho)
  · have hlen : (varintBytes (BitVec.ofNat 64 bs.length) ++ bs).length = varintLen bs.length + bs.length := by
      rw [List.length_append, varintBytes_ofNat_length (hmax.trans_lt s.cfg.maxVarbytesLen.isLt)]
    obtain ⟨t, hrun, hv, he', hmem, honly⟩ := onEncoder_of_done (f := fun e => putVarbytes s.cfg s.mem e src) he
      (putVarbytes_of_gives hs ha hmax hroom hlim hsrc)
    exact ⟨t, hrun, hv, he', hmem ▸ holdsBytes_writeBytes _ _ _, hmem ▸ sameOutside_writeBytes_of_le _ _ hlen.le, honly⟩

/-- Settles O49: the length goes over its placeholder inside the span, and the checksum of the span so patched goes
behind it. -/
theorem finishBackPatchesThenSums : Obligations.FinishBackPatchesThenSums := by
  unfold Obligations.FinishBackPatchesThenSums
  intro s e he hok hs
  refine ⟨fun hb => ?_, fun hb hroom => ?_, fun span patched hb hroom hspan hbytes hpatched => ?_⟩
  · exact onEncoder_of_error he (finishFrame_of_too_long hs hb)
  · exact onEncoder_of_error he (finishFrame_of_no_room hs hb hroom)
  · have hnc : e.state ≠ .created := by simp [hs]
    have hstart := hok.bodyStart hnc
    have hlow := hok.lower hnc
    have hlim := hok.limit
    have hbuf := hok.buffer
    have hlen : patched.length = e.writer.cursor - e.base := by
      rw [hpatched]
      simp only [List.length_append, List.length_take, List.length_drop, leBytes_length]
      omega
    have hp : HoldsBytes (writeBytes s.mem (e.base + 10) (leBytes 4 (e.writer.cursor - e.writer.bodyStart))) e.base
        patched := by
      rw [hpatched]
      exact holdsBytes_writeBytes_inside hbytes (by rw [leBytes_length]; omega)
    obtain ⟨t, hrun, hv, he', hmem, honly⟩ := onEncoder_of_done (f := fun e => finishFrame s.cfg s.mem e) he
      (finishFrame_of_holds hs hb hroom hlen (by omega) (by omega) hp)
    refine ⟨t, hrun, hv, he', ?_, ?_, honly⟩
    · rw [hmem, holdsBytes_append_iff, hlen, Nat.add_sub_cancel' (by omega)]
      exact ⟨hp.writeBytes_after (by omega) _, holdsBytes_writeBytes _ _ _⟩
    · rw [hmem]
      refine (sameOutside_writeBytes_of_within _ ?_ ?_).trans (sameOutside_writeBytes_of_within _ ?_ ?_)
      · dsimp only; omega
      · rw [leBytes_length]; dsimp only; omega
      · dsimp only; omega
      · rw [leBytes_length]; dsimp only; omega

end Sys2Proof.Machine
end

section
/-! SUPPORT. Fixed fields and bitmaps as patterns of bits, and the proof of the statement about them (48_frame_context
R175, R179, R180). -/

namespace Sys2Proof.Machine

/-- The pattern of a fixed value, as an unsigned number: `v mod 2^(8w)` (48_frame_context R180). -/
def FixedValue.pattern : FixedValue → Nat
  | .u8 v | .i8 v => v.toNat
  | .u16 v | .i16 v => v.toNat
  | .u32 v | .i32 v => v.toNat
  | .u64 v | .i64 v => v.toNat

/-- A signed type: the value is the two's complement of its pattern (48_frame_context R180). -/
abbrev FixedType.Signed (t : FixedType) : Prop := t = .i8 ∨ t = .i16 ∨ t = .i32 ∨ t = .i64

theorem FixedValue.pattern_lt (v : FixedValue) : v.pattern < 2 ^ (8 * v.type.width) := by
  cases v <;> exact BitVec.isLt _

/-- The highest bit of a pattern of `k + 1` bits is set in its upper half. -/
theorem testBit_highest {k p : Nat} (hp : p < 2 ^ (k + 1)) : p.testBit k = true ↔ 2 ^ k ≤ p := by
  have hhalf : p / 2 ^ k < 2 := (Nat.div_lt_iff_lt_mul (Nat.two_pow_pos k)).2 (by rwa [Nat.mul_comm, ← Nat.pow_succ])
  have hone := Nat.le_div_iff_mul_le (x := 1) (y := p) (Nat.two_pow_pos k)
  rw [Nat.one_mul] at hone
  rw [Nat.testBit_eq_decide_div_mod_eq, decide_eq_true_eq, ← hone]
  generalize p / 2 ^ k = q at hhalf
  omega

/-- The sign extension of a pattern, by its upper half (48_frame_context R180). -/
theorem sextBytes_eq {w p : Nat} (hw : 1 ≤ w) (hp : p < 2 ^ (8 * w)) :
    sextBytes w p = if 2 ^ (8 * w - 1) ≤ p then (p : Int) - 2 ^ (8 * w) else (p : Int) := by
  have hk : 8 * w - 1 + 1 = 8 * w := by omega
  rw [sextBytes]
  simp only [testBit_highest (hk ▸ hp)]

/-- The number a value stands for, from its pattern: two's complement where the type is signed. -/
theorem FixedValue.int_eq (v : FixedValue) :
    v.int = if v.type.Signed ∧ 2 ^ (8 * v.type.width - 1) ≤ v.pattern then (v.pattern : Int) - 2 ^ (8 * v.type.width)
      else (v.pattern : Int) := by
  have hlt := v.pattern_lt
  cases v with
  | u8 | u16 | u32 | u64 => exact (if_neg fun h => absurd h.1 (by simp [FixedType.Signed, FixedValue.type])).symm
  | i8 | i16 | i32 | i64 =>
    refine (sextBytes_eq (by simp [FixedValue.type, FixedType.width]) hlt).trans
      (if_congr (and_iff_right ?_).symm rfl rfl)
    simp [FixedType.Signed, FixedValue.type]

/-- The number written, modulo `2^(8w)`, is the pattern (48_frame_context R180). -/
theorem FixedValue.int_emod (v : FixedValue) : (v.int % 2 ^ (8 * v.type.width)).toNat = v.pattern := by
  have hmod : (v.pattern : Int) % 2 ^ (8 * v.type.width) = v.pattern := by
    exact_mod_cast Nat.mod_eq_of_lt v.pattern_lt
  rw [v.int_eq]
  split
  · rw [Int.sub_emod_right, hmod, Int.toNat_natCast]
  · rw [hmod, Int.toNat_natCast]

theorem fixedBytes_eq (v : FixedValue) : fixedBytes v = leBytes v.type.width v.pattern := by
  rw [fixedBytes, v.int_emod]

theorem fromLE_fixedBytes (v : FixedValue) : fromLE (fixedBytes v) = v.pattern := by
  rw [fixedBytes_eq, fromLE_leBytes, ← two_pow_eq_of_bytes rfl, Nat.mod_eq_of_lt v.pattern_lt]

theorem fixedOf_of_pattern {v : FixedValue} {bs : List Byte} (h : fromLE bs = v.pattern) : fixedOf v.type bs = v := by
  cases v <;> simp [fixedOf, FixedValue.type, h, FixedValue.pattern]

theorem Bitmap.value_lt (b : Bitmap) : b.value < 2 ^ (8 * b.width.bytes) := by
  cases b <;> exact BitVec.isLt _

theorem fromLE_bitmapBytes (b : Bitmap) : fromLE (bitmapBytes b) = b.value := by
  rw [bitmapBytes, fromLE_leBytes, ← two_pow_eq_of_bytes rfl, Nat.mod_eq_of_lt b.value_lt]

theorem bitmapOf_of_value {b : Bitmap} {bs : List Byte} (h : fromLE bs = b.value) : bitmapOf b.width bs = b := by
  cases b <;> simp [bitmapOf, Bitmap.width, h, Bitmap.value]

/-- Settles O51: the bytes of a fixed value are those of its pattern, and the pattern says the value. -/
theorem fixedFieldsReadBackAsWritten : Obligations.FixedFieldsReadBackAsWritten := by
  unfold Obligations.FixedFieldsReadBackAsWritten
  refine ⟨fun v => ⟨fixedBytes_length v, fixedOf_of_pattern (fromLE_fixedBytes v), ?_⟩, fun b =>
    ⟨bitmapBytes_length b, bitmapOf_of_value (fromLE_bitmapBytes b), fromLE_bitmapBytes b⟩⟩
  rw [fromLE_fixedBytes]
  exact v.int_eq

end Sys2Proof.Machine
end

section
/-! SUPPORT. Each decoder call case by case, what a step can leave of the decoder, and the proofs of the statements
about the Frame Decoder and the Body Reader (48_frame_context R191 to R209). -/

namespace Sys2Proof.Machine

/-! ### The block's operations a decoder call issues -/

section
variable {p : Parameters} {m : Memory} {base avail : Nat} {vs : List Byte}

/-- `VARINT_DEC` on a varint returns the number it says and its length (41_varint R117). -/
theorem opVarintDec_of_isVarint (hin : base + avail ≤ p.memSize.val) (hv : IsVarint vs) (ha : vs.length ≤ avail)
    (hb : HoldsBytes m base vs) :
    opVarintDec p m base avail = .done (BitVec.ofNat 64 (varintNumber vs), vs.length) m := by
  obtain ⟨cs, l, rfl, hc, hl, hlen, hten⟩ := hv.exists_concat
  obtain ⟨hcs, hlast⟩ := holdsBytes_concat_iff.1 hb
  rw [List.length_append, List.length_singleton] at ha ⊢
  rw [opVarintDec, inWindow_of_le hin, Config.maxVarintLen, varintDecLoop_after_continues hcs hc hlen (by omega),
    Nat.succ_sub hlen, varintDecLoop_step (by omega) hlast hlen hten, if_pos hl]

/-- `VARINT_DEC` in a window that ends inside the varint: every byte there is continued (41_varint R118, test (T)). -/
theorem opVarintDec_of_short (hin : base + avail ≤ p.memSize.val) (hv : IsVarint vs) (ha : avail < vs.length)
    (hb : HoldsBytes m base vs) : opVarintDec p m base avail = .error .truncated := by
  obtain ⟨cs, l, rfl, hc, -, hlen, -⟩ := hv.exists_concat
  obtain ⟨hcs, -⟩ := holdsBytes_concat_iff.1 hb
  rw [List.length_append, List.length_singleton] at ha
  have hcont : FirstContinue m base avail := fun j hj =>
    ⟨cs[j], hcs j (by omega), hc _ (List.getElem_mem _)⟩
  obtain ⟨_, -, hloop⟩ := varintDecLoop_after_firstContinue hcont (by omega) le_rfl
  rw [opVarintDec, inWindow_of_le hin, Config.maxVarintLen, hloop, varintDecLoop_at_end le_rfl]

theorem opHdrDes_of_lt (hin : base + avail ≤ p.memSize.val) (ha : avail < 14) :
    opHdrDes p m base avail = .error .truncated :=
  (inWindow_of_le hin).trans (if_pos ha)

end

/-- Four bytes that say a checksum are its bytes (48_frame_context R177, R199). -/
theorem toNat_eq_fromLE_iff {c : BitVec 32} {bs : List Byte} (hl : bs.length = 4) :
    c.toNat = fromLE bs ↔ bs = leBytes 4 c.toNat := by
  constructor
  · intro h
    rw [h, ← hl, leBytes_fromLE]
  · intro h
    rw [h, fromLE_leBytes]
    exact (Nat.mod_eq_of_lt c.isLt).symm

/-! ### `header()`, `verify_crc32c()` and `body()`, case by case -/

section
variable {p : Parameters} {m : Memory} {d : Decoder} {h : FrameHeader}

theorem checkLength_of_fits {ext rem : Nat} {view : Option Window} (hfit : h.bodyLen.toNat + 4 ≤ rem) :
    checkLength m d h ext rem view = .done (.header h view, d.withHeader h ext) m :=
  checkLength_eq_done.2 ⟨hfit, rfl, rfl, rfl⟩

theorem checkLength_of_short {ext rem : Nat} {view : Option Window} (hshort : rem < h.bodyLen.toNat + 4) :
    checkLength m d h ext rem view = .error .lengthMismatch :=
  if_pos (by simp only [Config.trailerSize]; omega)

section
variable (hs : d.state = .created)
include hs

theorem readHeader_of_hdrDes_error {k : ErrorKind} (hk : opHdrDes p m d.base d.len = .error k) :
    readHeader p m d = .error k := by
  rw [readHeader, if_neg (not_not.2 hs), hk, andThen_error]

variable (hdes : opHdrDes p m d.base d.len = .done (h, 14) m)
include hdes

/-- Without an extension the body follows the header (48_frame_context R197). -/
theorem readHeader_of_unflagged (hf : extFlag h = false) :
    readHeader p m d = checkLength m d h 0 (d.len - 14) none := by
  rw [readHeader, if_neg (not_not.2 hs), hdes, andThen_done]
  exact if_neg (by simp [hf])

theorem readHeader_of_varint_error (hf : extFlag h = true) {k : ErrorKind}
    (hk : opVarintDec p m (d.base + 14) (d.len - 14) = .error k) : readHeader p m d = .error k := by
  rw [readHeader, if_neg (not_not.2 hs), hdes, andThen_done]
  exact (if_pos hf).trans (by rw [hk, andThen_error])

variable {vs : List Byte} (hf : extFlag h = true) (hin : d.base + d.len ≤ p.memSize.val) (hv : IsVarint vs)
  (ha : 14 + vs.length ≤ d.len) (hb : HoldsBytes m (d.base + 14) vs)
include hf hin hv ha hb

/-- With an extension length that is there, what is left is to hold extension, body and trailer (48_frame_context
R197). -/
theorem readHeader_of_varint :
    readHeader p m d = if d.len - 14 - vs.length < varintNumber vs then .error .lengthMismatch
      else checkLength m d h (vs.length + varintNumber vs) (d.len - 14 - (vs.length + varintNumber vs))
        (some ⟨d.base + 14 + vs.length, varintNumber vs⟩) := by
  have hdec : opVarintDec p m (d.base + 14) (d.len - 14) = .done (BitVec.ofNat 64 (varintNumber vs), vs.length) m :=
    opVarintDec_of_isVarint (by omega) hv (by omega) hb
  have hnum : (BitVec.ofNat 64 (varintNumber vs)).toNat = varintNumber vs := Nat.mod_eq_of_lt hv.number_lt
  rw [readHeader, if_neg (not_not.2 hs), hdes, andThen_done]
  refine (if_pos hf).trans ?_
  rw [hdec, andThen_done]
  simp only [hnum, Config.hdrSize]

theorem readHeader_of_flagged_fits (hfit : 14 + (vs.length + varintNumber vs) + h.bodyLen.toNat + 4 ≤ d.len) :
    readHeader p m d = .done (.header h (some ⟨d.base + 14 + vs.length, varintNumber vs⟩),
      d.withHeader h (vs.length + varintNumber vs)) m := by
  rw [readHeader_of_varint hs hdes hf hin hv ha hb, if_neg (by omega), checkLength_of_fits (by omega)]

theorem readHeader_of_flagged_short (hshort : d.len < 14 + (vs.length + varintNumber vs) + h.bodyLen.toNat + 4) :
    readHeader p m d = .error .lengthMismatch := by
  rw [readHeader_of_varint hs hdes hf hin hv ha hb]
  split
  · rfl
  · exact checkLength_of_short (by omega)

end

/-- `verify_crc32c` on a span and a trailer that are there compares the span's checksum with the trailer
(48_frame_context R199). -/
theorem verifyFrame_of_holds {span trailer : List Byte} (hs : d.state = .headerRead)
    (hspan : span.length = 14 + d.extSize + d.bodyLen) (htrailer : trailer.length = 4)
    (hin : d.base + span.length ≤ p.memSize.val) (hb : HoldsBytes m d.base span)
    (ht : HoldsBytes m (d.base + span.length) trailer) :
    verifyFrame p m d = if (crc32c span).toNat ≠ fromLE trailer then .error .checksumMismatch
      else .done (.unit, { d with state := .checksumVerified }) m := by
  have hlen : d.span = span.length := hspan.symm
  rw [verifyFrame, if_neg (not_not.2 hs), hlen, opCrc32c_eq_done.2 ⟨hin, rfl, span, rfl, hb, rfl⟩, andThen_done,
    withBytes_of_holds htrailer ht]

/-- A decoder is verified only with its span's checksum behind the span (48_frame_context R199). -/
theorem verifyFrame_done_checks {d' : Decoder} {m' : Memory} {v : CallValue}
    (hd : verifyFrame p m d = .done (v, d') m') :
    ∃ span, span.length = 14 + d.extSize + d.bodyLen ∧ HoldsBytes m d.base span
      ∧ HoldsBytes m (d.base + span.length) (leBytes 4 (crc32c span).toNat) := by
  unfold verifyFrame at hd
  simp only [ite_error_eq_done, andThen_eq_done, withBytes_eq_done, not_not] at hd
  obtain ⟨-, crc, m1, hcrc, trailer, hl, ht, heq, -⟩ := hd
  obtain ⟨-, -, span, hlen, hb, rfl⟩ := opCrc32c_eq_done.1 hcrc
  refine ⟨span, hlen, hb, ?_⟩
  rwa [hlen, ← (toNat_eq_fromLE_iff hl).1 heq]

end

/-- `body()` on a verified decoder opens the reader on the body region (48_frame_context R200). -/
theorem runCall_openBody_of_verified {s : State} {d : Decoder} (hd : s.decoder = some d)
    (hs : d.state = .checksumVerified) :
    runCall .openBody s = .next ((s.setDecoder (some d.withBody)).setCallResult (some (.ok .unit))) :=
  onDecoder_of_done hd (openBody_eq_done.2 ⟨hs, rfl, rfl, rfl⟩)

/-! ### The reader's ordering table -/

section
variable {rs rs' : ReaderState} {untouched : Bool}

theorem readerAfterFixed_eq_some : readerAfterFixed rs = some rs' ↔ rs = .readingFixed ∧ rs' = .readingFixed := by
  cases rs <;> simp [readerAfterFixed, eq_comm]

theorem readerAfterBitmap_eq_some : readerAfterBitmap rs = some rs' ↔ rs = .readingFixed ∧ rs' = .bitmapRead := by
  cases rs <;> simp [readerAfterBitmap, eq_comm]

/-- Variable fields leave the reader in ReadingVariable (48_frame_context R182, R194). -/
theorem readerAfterVarbytes_eq (h : readerAfterVarbytes untouched rs = some rs') : rs' = .readingVariable := by
  cases rs with
  | readingFixed => simp only [readerAfterVarbytes] at h; split at h <;> cases h; rfl
  | bitmapRead | readingVariable => cases h; rfl
  | closed => cases h

theorem readerAfterFixed_eq_none : readerAfterFixed rs = none ↔ rs ≠ .readingFixed := by
  cases rs <;> simp [readerAfterFixed]

theorem readerAfterBitmap_eq_none : readerAfterBitmap rs = none ↔ rs ≠ .readingFixed := by
  cases rs <;> simp [readerAfterBitmap]

theorem readerAfterVarbytes_eq_none :
    readerAfterVarbytes untouched rs = none ↔ rs = .closed ∨ (rs = .readingFixed ∧ untouched = false) := by
  cases rs <;> simp [readerAfterVarbytes]

end

/-- The reader's order allows a variable field (48_frame_context R182, R194). -/
abbrev Decoder.VarbytesAllowed (d : Decoder) : Prop :=
  d.reader.state = .bitmapRead ∨ d.reader.state = .readingVariable
    ∨ (d.reader.state = .readingFixed ∧ d.reader.cursor = d.reader.bodyStart)

theorem Decoder.VarbytesAllowed.after {d : Decoder} (h : d.VarbytesAllowed) :
    readerAfterVarbytes (d.reader.cursor == d.reader.bodyStart) d.reader.state = some .readingVariable := by
  rcases h with h | h | ⟨h, hc⟩
  · rw [h]; rfl
  · rw [h]; rfl
  · rw [h, hc]; simp [readerAfterVarbytes]

/-! ### Each reader call, case by case -/

section
variable {p : Parameters} {m m' : Memory} {d d' : Decoder} {v : CallValue}

theorem getBytes_of_lt {rs : ReaderState} {n : Nat} {value : List Byte → CallValue}
    (h : d.reader.bodyEnd - d.reader.cursor < n) : getBytes m d rs n value = .error .truncated :=
  if_pos h

theorem getBytes_of_holds {rs : ReaderState} {n : Nat} {value : List Byte → CallValue} {bs : List Byte}
    (hl : bs.length = n) (h : n ≤ d.reader.bodyEnd - d.reader.cursor) (hb : HoldsBytes m d.reader.cursor bs) :
    getBytes m d rs n value = .done (value bs, d.advance rs n) m :=
  (if_neg (Nat.not_lt.2 h)).trans (withBytes_of_holds hl hb)

section
variable (hs : d.state = .bodyInProgress)
include hs

theorem withReader_of_inProgress (x : OpResult (CallValue × Decoder)) : withReader d x = x :=
  if_neg (not_not.2 hs)

theorem getFixed_of_readingFixed (hr : d.reader.state = .readingFixed) (t : FixedType) :
    getFixed m d t = getBytes m d d.reader.state t.width fun bs => .fixed (fixedOf t bs) := by
  rw [getFixed, withReader_of_inProgress hs, hr]
  rfl

theorem getFixed_of_not_readingFixed (hr : d.reader.state ≠ .readingFixed) (t : FixedType) :
    getFixed m d t = .error .fieldOrderViolation := by
  rw [getFixed, withReader_of_inProgress hs, readerAfterFixed_eq_none.2 hr]

theorem getBitmap_of_readingFixed (hr : d.reader.state = .readingFixed) (w : BitmapWidth) :
    getBitmap m d w = getBytes m d .bitmapRead w.bytes fun bs => .bitmap (bitmapOf w bs) := by
  rw [getBitmap, withReader_of_inProgress hs, hr]
  rfl

theorem getBitmap_of_not_readingFixed (hr : d.reader.state ≠ .readingFixed) (w : BitmapWidth) :
    getBitmap m d w = .error .fieldOrderViolation := by
  rw [getBitmap, withReader_of_inProgress hs, readerAfterBitmap_eq_none.2 hr]

section
variable (value : Window → CallValue)

theorem takeVarbytes_of_violation
    (hr : d.reader.state = .closed ∨ (d.reader.state = .readingFixed ∧ d.reader.cursor ≠ d.reader.bodyStart)) :
    takeVarbytes p m d value = .error .fieldOrderViolation := by
  have hnone : readerAfterVarbytes (d.reader.cursor == d.reader.bodyStart) d.reader.state = none := by
    rwa [readerAfterVarbytes_eq_none, beq_eq_false_iff_ne]
  rw [takeVarbytes, withReader_of_inProgress hs, hnone]

variable (ha : d.VarbytesAllowed)
include ha

/-- Where the order allows a variable field, what is left to fail is its length (48_frame_context R193). -/
theorem takeVarbytes_onlyErrors_of_allowed : OnlyErrors [.truncated, .overflow] (takeVarbytes p m d value) := by
  rw [takeVarbytes, withReader_of_inProgress hs, ha.after]
  exact .andThen (opVarintDec_onlyErrors ..) fun x _ => .check (by simp) (.done _)

theorem takeVarbytes_of_varint_error {k : ErrorKind}
    (hk : opVarintDec p m d.reader.cursor (d.reader.bodyEnd - d.reader.cursor) = .error k) :
    takeVarbytes p m d value = .error k := by
  rw [takeVarbytes, withReader_of_inProgress hs, ha.after]
  dsimp only
  rw [hk, andThen_error]

/-- With the length varint there, what is left is to hold the field (48_frame_context R193). -/
theorem takeVarbytes_of_varint {vs : List Byte}
    (hin : d.reader.cursor + (d.reader.bodyEnd - d.reader.cursor) ≤ p.memSize.val) (hv : IsVarint vs)
    (hl : vs.length ≤ d.reader.bodyEnd - d.reader.cursor) (hb : HoldsBytes m d.reader.cursor vs) :
    takeVarbytes p m d value = if d.reader.bodyEnd - d.reader.cursor - vs.length < varintNumber vs
      then .error .truncated
      else .done (value ⟨d.reader.cursor + vs.length, varintNumber vs⟩,
        d.advance .readingVariable (vs.length + varintNumber vs)) m := by
  have hnum : (BitVec.ofNat 64 (varintNumber vs)).toNat = varintNumber vs := Nat.mod_eq_of_lt hv.number_lt
  rw [takeVarbytes, withReader_of_inProgress hs, ha.after]
  dsimp only
  rw [opVarintDec_of_isVarint hin hv hl hb, andThen_done]
  simp only [hnum]

end
end

theorem getFixed_reader_state {t : FixedType} (hd : getFixed m d t = .done (v, d') m') :
    d'.reader.state = .readingFixed := by
  obtain ⟨-, hd⟩ := withReader_eq_done.1 hd
  split at hd
  · cases hd
  · next rs hrs =>
    obtain ⟨-, rfl⟩ := readerAfterFixed_eq_some.1 hrs
    obtain ⟨-, rfl, -⟩ := getBytes_eq_done hd
    rfl

theorem getBitmap_reader_state {w : BitmapWidth} (hd : getBitmap m d w = .done (v, d') m') :
    d'.reader.state = .bitmapRead := by
  obtain ⟨-, hd⟩ := withReader_eq_done.1 hd
  split at hd
  · cases hd
  · next rs hrs =>
    obtain ⟨-, rfl⟩ := readerAfterBitmap_eq_some.1 hrs
    obtain ⟨-, rfl, -⟩ := getBytes_eq_done hd
    rfl

theorem takeVarbytes_reader_state {value : Window → CallValue} (hd : takeVarbytes p m d value = .done (v, d') m') :
    d'.reader.state = .readingVariable := by
  obtain ⟨-, hd⟩ := withReader_eq_done.1 hd
  split at hd
  · cases hd
  · next rs hrs =>
    obtain rfl := readerAfterVarbytes_eq hrs
    simp only [andThen_eq_done, ite_error_eq_done] at hd
    obtain ⟨x, m1, -, -, hd⟩ := hd
    cases hd
    rfl

end

/-! ### What a step can leave of the decoder -/

/-- What a step from a decoder `o` over `m` guarantees of the decoder `d'` after it: verified only against the trailer
that `m` holds, and in the body only from a verified decoder or from the body before (48_frame_context R199, R200). -/
structure VerifiedFrom (m : Memory) (o : Option Decoder) (d' : Decoder) : Prop where
  verified : d'.state = .checksumVerified → o = some d' ∨ ∃ d span, o = some d ∧ d.state = .headerRead
    ∧ d' = { d with state := .checksumVerified } ∧ span.length = 14 + d.extSize + d.bodyLen
    ∧ HoldsBytes m d.base span ∧ HoldsBytes m (d.base + span.length) (leBytes 4 (crc32c span).toNat)
  body : d'.state = .bodyInProgress →
    ∃ d, o = some d ∧ d'.base = d.base ∧ d'.len = d.len ∧ d'.header = d.header
      ∧ d'.extSize = d.extSize ∧ d'.bodyLen = d.bodyLen
      ∧ ((d.state = .bodyInProgress ∧ d'.reader.bodyStart = d.reader.bodyStart
          ∧ d'.reader.bodyEnd = d.reader.bodyEnd)
        ∨ (d.state = .checksumVerified ∧ d'.reader = ⟨.readingFixed, d.base + 14 + d.extSize,
          d.base + 14 + d.extSize, d.base + 14 + d.extSize + d.bodyLen⟩))

section
variable {p : Parameters} {m m' : Memory} {o : Option Decoder} {d d' : Decoder} {v : CallValue}

/-- A decoder that stays as it was. -/
theorem VerifiedFrom.refl (m : Memory) (d : Decoder) : VerifiedFrom m (some d) d where
  verified _ := .inl rfl
  body hs := ⟨d, rfl, rfl, rfl, rfl, rfl, rfl, .inl ⟨hs, rfl, rfl⟩⟩

theorem VerifiedFrom.of_created (hs : d'.state = .created) : VerifiedFrom m o d' where
  verified h := nomatch hs.symm.trans h
  body h := nomatch hs.symm.trans h

theorem VerifiedFrom.of_headerRead (hs : d'.state = .headerRead) : VerifiedFrom m o d' where
  verified h := nomatch hs.symm.trans h
  body h := nomatch hs.symm.trans h

theorem verifyFrame_verifiedFrom (hd : verifyFrame p m d = .done (v, d') m') : VerifiedFrom m (some d) d' := by
  obtain ⟨hs, -, -, rfl⟩ := verifyFrame_eq_done hd
  obtain ⟨span, hlen, hb, ht⟩ := verifyFrame_done_checks hd
  exact ⟨fun _ => .inr ⟨d, span, rfl, hs, rfl, hlen, hb, ht⟩, nofun⟩

theorem openBody_verifiedFrom (hd : openBody m d = .done (v, d') m') : VerifiedFrom m (some d) d' := by
  obtain ⟨hs, -, rfl, -⟩ := openBody_eq_done.1 hd
  exact ⟨nofun, fun _ => ⟨d, rfl, rfl, rfl, rfl, rfl, rfl, .inr ⟨hs, rfl⟩⟩⟩

theorem ReaderMoved.verifiedFrom (h : ReaderMoved m d d' m') : VerifiedFrom m (some d) d' := by
  obtain ⟨rs, n, -, -, rfl⟩ := h.moved
  have hs : (d.advance rs n).state = .bodyInProgress := h.inBody
  exact ⟨fun hv => (nomatch hs.symm.trans hv), fun _ => ⟨d, rfl, rfl, rfl, rfl, rfl, rfl, .inl ⟨h.inBody, rfl, rfl⟩⟩⟩

end

section
variable {s t : State} {d' : Decoder}

theorem verifiedFrom_of_decoder_eq (h : t.decoder = s.decoder) (hd : t.decoder = some d') :
    VerifiedFrom s.mem s.decoder d' := by
  rw [← h, hd]
  exact .refl s.mem d'

/-- An encoder call leaves the decoder as it was. -/
theorem settleEncoder_decoder {x : OpResult (CallValue × Encoder)} (h : settleEncoder s x = .next t) :
    t.decoder = s.decoder := by
  rcases settleEncoder_eq_next.1 h with ⟨v, e, m, -, rfl⟩ | ⟨k, -, rfl⟩
  · rfl
  · rfl

theorem onEncoder_decoder {f : Encoder → OpResult (CallValue × Encoder)} (h : onEncoder s f = .next t) :
    t.decoder = s.decoder := by
  obtain ⟨e, -, hx⟩ := onEncoder_eq_next.1 h
  exact settleEncoder_decoder hx

theorem verifiedFrom_settleDecoder {x : OpResult (CallValue × Decoder)}
    (hx : ∀ v d m, x = .done (v, d) m → VerifiedFrom s.mem s.decoder d) (h : settleDecoder s x = .next t)
    (hd : t.decoder = some d') : VerifiedFrom s.mem s.decoder d' := by
  rcases settleDecoder_eq_next.1 h with ⟨v, d, m, hdone, rfl⟩ | ⟨k, -, rfl⟩
  · cases hd
    exact hx v d' m hdone
  · exact verifiedFrom_of_decoder_eq rfl hd

theorem verifiedFrom_onDecoder {f : Decoder → OpResult (CallValue × Decoder)}
    (hf : ∀ d v d₁ m, f d = .done (v, d₁) m → VerifiedFrom s.mem (some d) d₁) (h : onDecoder s f = .next t)
    (hd : t.decoder = some d') : VerifiedFrom s.mem s.decoder d' := by
  obtain ⟨d, hsome, hx⟩ := onDecoder_eq_next.1 h
  exact verifiedFrom_settleDecoder (fun v d₁ m hdone => hsome ▸ hf d v d₁ m hdone) hx hd

/-- Every call keeps the body behind the verification (48_frame_context R199, R200). -/
theorem verifiedFrom_runCall {c : HostCall} (h : runCall c s = .next t) (hd : t.decoder = some d') :
    VerifiedFrom s.mem s.decoder d' := by
  cases c with
  | openEncoder base cap => exact verifiedFrom_of_decoder_eq (settleEncoder_decoder h) hd
  | beginFrame | putFixed | putBitmap | putVarbytes | finishCrc32c =>
    exact verifiedFrom_of_decoder_eq (onEncoder_decoder h) hd
  | openDecoder base len =>
    refine verifiedFrom_settleDecoder (fun v d m hx => ?_) h hd
    obtain ⟨-, -, -, rfl, -⟩ := openDecoder_eq_done.1 hx
    exact .of_created rfl
  | readHeader =>
    refine verifiedFrom_onDecoder (fun d v d₁ m hx => ?_) h hd
    obtain ⟨-, -, hdr, ext, view, -, rfl, -⟩ := readHeader_eq_done hx
    exact .of_headerRead rfl
  | verifyCrc32c => exact verifiedFrom_onDecoder (fun _ _ _ _ hx => verifyFrame_verifiedFrom hx) h hd
  | openBody => exact verifiedFrom_onDecoder (fun _ _ _ _ hx => openBody_verifiedFrom hx) h hd
  | getFixed type => exact verifiedFrom_onDecoder (fun _ _ _ _ hx => (getFixed_moves hx).verifiedFrom) h hd
  | getBitmap width => exact verifiedFrom_onDecoder (fun _ _ _ _ hx => (getBitmap_moves hx).verifiedFrom) h hd
  | getVarbytes | skipVarbytes =>
    exact verifiedFrom_onDecoder (fun _ _ _ _ hx => (takeVarbytes_moves hx).verifiedFrom) h hd

/-- Only a call touches the decoder. -/
theorem verifiedFrom_runInput {x : Input} (h : runInput x s = .next t) (hd : t.decoder = some d') :
    VerifiedFrom s.mem s.decoder d' := by
  cases x with
  | command record during =>
    obtain ⟨i, u, m, -, he, -, rfl⟩ := runCommand_eq_next h
    exact verifiedFrom_of_decoder_eq (exec_onlyBlock he).decoder hd
  | cutByReset record =>
    obtain ⟨i, -, -, rfl⟩ := runCut_eq_next h
    exact verifiedFrom_of_decoder_eq rfl hd
  | reset => cases h; exact verifiedFrom_of_decoder_eq rfl hd
  | hostRead base n =>
    obtain ⟨bs, rfl⟩ := runHostRead_eq_next h
    exact verifiedFrom_of_decoder_eq rfl hd
  | hostWrite base bytes =>
    obtain ⟨-, rfl⟩ := runHostWrite_eq_next h
    exact verifiedFrom_of_decoder_eq rfl hd
  | call c => exact verifiedFrom_runCall h hd

theorem verifiedFrom_step (h : step s = .next t) (hd : t.decoder = some d') : VerifiedFrom s.mem s.decoder d' := by
  cases hi : s.inputs with
  | nil => rw [step_of_no_input hi] at h; cases h; exact verifiedFrom_of_decoder_eq rfl hd
  | cons x rest => rw [step_of_input hi] at h; exact verifiedFrom_runInput (s := s.setInputs rest) h hd

end

/-- Settles O55: of all inputs only the decoder's calls touch the decoder, only `verify_crc32c` ends in
ChecksumVerified, and only `body()` and the reader's calls end in BodyInProgress. -/
theorem bodyOnlyAfterVerification : Obligations.BodyOnlyAfterVerification := by
  unfold Obligations.BodyOnlyAfterVerification
  intro s t d' h hd
  obtain ⟨hverified, hbody⟩ := verifiedFrom_step h hd
  exact ⟨hverified, hbody⟩

/-! ### The statements about the calls -/

/-- Settles O52: the header is read, then the extension length if flagged, and what is left is compared with body and
trailer. -/
theorem headerCallLocatesTheFrame : Obligations.HeaderCallLocatesTheFrame := by
  unfold Obligations.HeaderCallLocatesTheFrame
  intro s d hd hin
  refine ⟨fun hs => onDecoder_of_error hd (if_pos hs),
    fun k hs hk => onDecoder_of_error hd (readHeader_of_hdrDes_error hs hk),
    fun bs h hs hlen hl hb hof hmagic hversion => ?_⟩
  have hdes : opHdrDes s.cfg s.mem d.base d.len = .done (h, 14) s.mem :=
    opHdrDes_eq_done.2 ⟨hin, hlen, rfl, rfl, hmagic, hversion, bs, hl, hb, hof⟩
  refine ⟨fun k hf hk => onDecoder_of_error hd (readHeader_of_varint_error hs hdes hf hk),
    fun hf => ⟨fun hshort => ?_, fun hfit => ?_⟩, fun vs hf hv ha hvs => ⟨fun hshort => ?_, fun hfit => ?_⟩⟩
  · exact onDecoder_of_error hd ((readHeader_of_unflagged hs hdes hf).trans (checkLength_of_short (by omega)))
  · exact onDecoder_of_done hd ((readHeader_of_unflagged hs hdes hf).trans (checkLength_of_fits (by omega)))
  · exact onDecoder_of_error hd (readHeader_of_flagged_short hs hdes hf hin hv (by omega) hvs hshort)
  · exact onDecoder_of_done hd (readHeader_of_flagged_fits hs hdes hf hin hv (by omega) hvs hfit)

/-- Settles O53: the four bytes of the trailer say the checksum or another number. -/
theorem verifyComparesChecksumAndTrailer : Obligations.VerifyComparesChecksumAndTrailer := by
  unfold Obligations.VerifyComparesChecksumAndTrailer
  refine fun s d span trailer hd => ⟨fun hs => onDecoder_of_error hd (if_pos hs),
    fun hs hspan htrailer hin hb ht => ⟨fun heq => ?_, fun hne => ?_⟩⟩
  · exact onDecoder_of_done hd ((verifyFrame_of_holds hs hspan htrailer hin hb ht).trans
      (if_neg (not_not.2 ((toNat_eq_fromLE_iff htrailer).2 heq))))
  · exact onDecoder_of_error hd ((verifyFrame_of_holds hs hspan htrailer hin hb ht).trans
      (if_pos (mt (toNat_eq_fromLE_iff htrailer).1 hne)))

/-- Settles O54: each call looks at the decoder's state first. -/
theorem decoderStateErrors : Obligations.DecoderStateErrors := by
  unfold Obligations.DecoderStateErrors
  refine fun s d hd => ⟨fun hs => ?_, fun hs => ?_, fun hs => ?_, fun hs => ?_⟩
  · exact onDecoder_of_error hd (if_pos hs)
  · exact onDecoder_of_error hd (if_pos hs)
  · exact onDecoder_of_error hd (if_pos hs)
  · exact runCall_openBody_of_verified hd hs

/-- Settles O56: as for the writer, a violation of the table fails first, and elsewhere only the bytes are left to
fail. -/
theorem readerOrderMirrorsTheWriter : Obligations.ReaderOrderMirrorsTheWriter := by
  unfold Obligations.ReaderOrderMirrorsTheWriter
  intro s d hd hs
  refine ⟨fun hr => ⟨fun ty => ?_, fun w => ?_⟩, fun hr => ⟨?_, ?_⟩, fun c t hcell h hk => ?_, fun c t v h hv => ?_⟩
  · exact onDecoder_of_error hd (getFixed_of_not_readingFixed hs hr ty)
  · exact onDecoder_of_error hd (getBitmap_of_not_readingFixed hs hr w)
  · exact onDecoder_of_error hd (takeVarbytes_of_violation hs _ hr)
  · exact onDecoder_of_error hd (takeVarbytes_of_violation hs _ hr)
  · rcases hcell with ⟨hr, ⟨ty, rfl⟩ | ⟨w, rfl⟩⟩ | ⟨ha, rfl | rfl⟩
    · have hx := error_of_onDecoder hd h hk
      rw [getFixed_of_readingFixed hs hr] at hx
      simpa using (getBytes_onlyErrors ..).mem _ hx
    · have hx := error_of_onDecoder hd h hk
      rw [getBitmap_of_readingFixed hs hr] at hx
      simpa using (getBytes_onlyErrors ..).mem _ hx
    · simpa using (takeVarbytes_onlyErrors_of_allowed hs _ ha).mem _ (error_of_onDecoder hd h hk)
    · simpa using (takeVarbytes_onlyErrors_of_allowed hs _ ha).mem _ (error_of_onDecoder hd h hk)
  · obtain ⟨d', hd'⟩ := runCall_keeps_some_decoder h hd
    refine ⟨d', hd', ?_, ?_, ?_⟩
    · rintro ⟨ty, rfl⟩
      obtain ⟨d₀, d₁, hx, ht⟩ := done_of_onDecoder h hv
      cases hd'.symm.trans ht
      exact getFixed_reader_state hx
    · rintro ⟨w, rfl⟩
      obtain ⟨d₀, d₁, hx, ht⟩ := done_of_onDecoder h hv
      cases hd'.symm.trans ht
      exact getBitmap_reader_state hx
    · rintro (rfl | rfl) <;>
      · obtain ⟨d₀, d₁, hx, ht⟩ := done_of_onDecoder h hv
        cases hd'.symm.trans ht
        exact takeVarbytes_reader_state hx

/-- Settles O57: with the width left, the bytes at the cursor are the value's. -/
theorem readerReadsFixedFieldsAndBitmap : Obligations.ReaderReadsFixedFieldsAndBitmap := by
  unfold Obligations.ReaderReadsFixedFieldsAndBitmap
  intro s d hd hs hr
  refine ⟨fun ty hlt => ?_, fun ty bs hl hle hb => ?_, fun w hlt => ?_, fun w bs hl hle hb => ?_⟩
  · exact onDecoder_of_error hd ((getFixed_of_readingFixed hs hr ty).trans (getBytes_of_lt hlt))
  · exact onDecoder_of_done hd ((getFixed_of_readingFixed hs hr ty).trans (getBytes_of_holds hl hle hb))
  · exact onDecoder_of_error hd ((getBitmap_of_readingFixed hs hr w).trans (getBytes_of_lt hlt))
  · exact onDecoder_of_done hd ((getBitmap_of_readingFixed hs hr w).trans (getBytes_of_holds hl hle hb))

/-- Settles O58: the two calls are one procedure that differs in the value it returns. -/
theorem varbytesAreReturnedAsViews : Obligations.VarbytesAreReturnedAsViews := by
  unfold Obligations.VarbytesAreReturnedAsViews
  intro s d hd hs ha
  have herror (k : ErrorKind)
      (hk : opVarintDec s.cfg s.mem d.reader.cursor (d.reader.bodyEnd - d.reader.cursor) = .error k) :
      runCall .getVarbytes s = .next (s.setCallResult (some (.error k)))
        ∧ runCall .skipVarbytes s = .next (s.setCallResult (some (.error k))) :=
    ⟨onDecoder_of_error hd (takeVarbytes_of_varint_error hs _ ha hk),
      onDecoder_of_error hd (takeVarbytes_of_varint_error hs _ ha hk)⟩
  refine ⟨fun k hk => ⟨?_, herror k hk⟩, fun hend hin => herror _ ?_, fun vs hle hin hv hl hb => ?_⟩
  · simpa using (opVarintDec_onlyErrors ..).mem k hk
  · rw [hend, Nat.sub_self]
    exact (inWindow_of_le (w := ⟨d.reader.bodyEnd, 0⟩) hin).trans (varintDecLoop_at_end le_rfl)
  · have hin' : d.reader.cursor + (d.reader.bodyEnd - d.reader.cursor) ≤ s.cfg.memSize.val := by omega
    have htake (value : Window → CallValue) := takeVarbytes_of_varint hs value ha hin' hv hl hb
    refine ⟨fun hshort => ?_, fun hfit => ⟨_, rfl, ?_, ?_⟩⟩
    · exact ⟨onDecoder_of_error hd ((htake _).trans (if_pos (by omega))),
        onDecoder_of_error hd ((htake _).trans (if_pos (by omega)))⟩
    · exact onDecoder_of_done hd ((htake _).trans (if_neg (by omega)))
    · exact onDecoder_of_done hd ((htake _).trans (if_neg (by omega)))

/-- Settles O59: a buffer too short ends in the header, in the extension length, or behind both. -/
theorem truncatedFramesAreRejected : Obligations.TruncatedFramesAreRejected := by
  unfold Obligations.TruncatedFramesAreRejected
  intro s d bs vs h total hd hs hin hl hb hof hmagic hversion hframe htotal
  have hdes (hlen : 14 ≤ d.len) : opHdrDes s.cfg s.mem d.base d.len = .done (h, 14) s.mem :=
    opHdrDes_eq_done.2 ⟨hin, hlen, rfl, rfl, hmagic, hversion, bs, hl, hb, hof⟩
  refine ⟨fun hlt => onDecoder_of_error hd ?_, fun hle => onDecoder_of_error hd ?_⟩
  · rcases Nat.lt_or_ge d.len 14 with hshort | hlen
    · exact readHeader_of_hdrDes_error hs (opHdrDes_of_lt hin hshort)
    · rcases hframe with ⟨-, rfl, -⟩ | ⟨hf, hv, hvs, -⟩
      · exact absurd hlen (Nat.not_le.2 hlt)
      · exact readHeader_of_varint_error hs (hdes hlen) hf (opVarintDec_of_short (by omega) hv (by omega) hvs)
  · rcases hframe with ⟨hf, rfl, rfl⟩ | ⟨hf, hv, hvs, rfl⟩
    · exact (readHeader_of_unflagged hs (hdes hle) hf).trans (checkLength_of_short (by omega))
    · exact readHeader_of_flagged_short hs (hdes (by omega)) hf hin hv hle hvs htotal

end Sys2Proof.Machine
end

section
/-! SUPPORT. A whole frame in `MEM`, that a decoder over it accepts it and that `finish_crc32c` leaves one, with the
proof of the statement that a finished frame decodes (48_frame_context R172, R196 to R200, R207). -/

namespace Sys2Proof.Machine

/-! ### A frame and the decoder over it -/

/-- `MEM` holds a whole frame at `base`: a header this implementation accepts, behind it the extension region of
`extSize` bytes and the body in `rest`, and the checksum of these as the trailer (48_frame_context R172, R176, R177). -/
structure HoldsFrame (p : Parameters) (m : Memory) (base : Nat) (h : FrameHeader) (extSize : Nat) (rest : List Byte) :
    Prop where
  magic : h.magic = p.magic
  version : h.version.toNat ≤ p.maxVersion.toNat
  length : rest.length = extSize + h.bodyLen.toNat
  inside : base + (14 + rest.length + 4) ≤ p.memSize.val
  span : HoldsBytes m base (headerBytes h ++ rest)
  trailer : HoldsBytes m (base + (14 + rest.length)) (leBytes 4 (crc32c (headerBytes h ++ rest)).toNat)
  unflagged : extFlag h = false → extSize = 0
  flagged : extFlag h = true → ∃ vs, IsVarint vs ∧ vs.length + varintNumber vs = extSize ∧ HoldsBytes m (base + 14) vs

section
variable {s : State} {h : FrameHeader} {extSize : Nat} {rest : List Byte} {d : Decoder}

/-- `header()` over exactly a frame returns its header (48_frame_context R197). -/
theorem HoldsFrame.runCall_readHeader (hd : s.decoder = some d) (hf : HoldsFrame s.cfg s.mem d.base h extSize rest)
    (hs : d.state = .created) (hlen : d.len = 14 + rest.length + 4) :
    ∃ view, runCall .readHeader s
      = .next ((s.setDecoder (some (d.withHeader h extSize))).setCallResult (some (.ok (.header h view)))) := by
  have hrest := hf.length
  have hin : d.base + d.len ≤ s.cfg.memSize.val := hlen ▸ hf.inside
  obtain ⟨hheader, -⟩ := holdsBytes_append_iff.1 hf.span
  have hdes : opHdrDes s.cfg s.mem d.base d.len = .done (h, 14) s.mem :=
    opHdrDes_eq_done.2 ⟨hin, by omega, rfl, rfl, hf.magic, hf.version, _, headerBytes_length h, hheader,
      (headerOf_headerBytes h).symm⟩
  cases hflag : extFlag h with
  | false =>
    obtain rfl := hf.unflagged hflag
    exact ⟨_, onDecoder_of_done hd ((readHeader_of_unflagged hs hdes hflag).trans (checkLength_of_fits (by omega)))⟩
  | true =>
    obtain ⟨vs, hv, rfl, hvs⟩ := hf.flagged hflag
    exact ⟨_, onDecoder_of_done hd (readHeader_of_flagged_fits hs hdes hflag hin hv (by omega) hvs (by omega))⟩

/-- `verify_crc32c()` accepts the frame's trailer (48_frame_context R199). -/
theorem HoldsFrame.runCall_verifyCrc32c (hd : s.decoder = some d) (hf : HoldsFrame s.cfg s.mem d.base h extSize rest)
    (hs : d.state = .headerRead) (hext : d.extSize = extSize) (hbody : d.bodyLen = h.bodyLen.toNat) :
    runCall .verifyCrc32c s
      = .next ((s.setDecoder (some { d with state := .checksumVerified })).setCallResult (some (.ok .unit))) := by
  have hlen : (headerBytes h ++ rest).length = 14 + rest.length := by rw [List.length_append, headerBytes_length]
  have hrest := hf.length
  have hin := hf.inside
  have htrailer := hf.trailer
  rw [← hlen] at htrailer
  obtain ⟨-, hverify⟩ := verifyComparesChecksumAndTrailer s d _ _ hd
  obtain ⟨hmatch, -⟩ := hverify hs (by omega) (leBytes_length 4 _) (by omega) hf.span htrailer
  exact hmatch rfl

/-- A decoder made over exactly a frame goes through all its calls and stands at the body (48_frame_context R196 to
R200). -/
theorem HoldsFrame.decodes {base n : Nat} (hf : HoldsFrame s.cfg s.mem base h extSize rest)
    (hn : n = 14 + rest.length + 4) (hrep : base + n < 2 ^ 64) :
    ∃ t1 t2 t3 t4 view d, runCall (.openDecoder (BitVec.ofNat 64 base) (BitVec.ofNat 64 n)) s = .next t1
      ∧ (∃ d1, t1.decoder = some d1 ∧ d1.state = .created ∧ d1.base = base ∧ d1.len = n)
      ∧ runCall .readHeader t1 = .next t2 ∧ t2.callResult = some (.ok (.header h view))
      ∧ runCall .verifyCrc32c t2 = .next t3 ∧ t3.callResult = some (.ok .unit)
      ∧ runCall .openBody t3 = .next t4 ∧ t4.callResult = some (.ok .unit)
      ∧ t4.decoder = some d ∧ d.reader.bodyStart = base + 14 + extSize
      ∧ d.reader.bodyEnd = base + 14 + extSize + h.bodyLen.toNat ∧ t4.mem = s.mem := by
  have hbase : (BitVec.ofNat 64 base).toNat = base := Nat.mod_eq_of_lt (by omega)
  have hcount : (BitVec.ofNat 64 n).toNat = n := Nat.mod_eq_of_lt (by omega)
  have hin := hf.inside
  have hopen := runCall_openDecoder_of_lt (s := s) (base := BitVec.ofNat 64 base) (len := BitVec.ofNat 64 n)
    (by rw [hbase, hcount]; omega) (by rw [hbase, hcount]; omega)
  rw [hbase, hcount] at hopen
  obtain ⟨view, hread⟩ := HoldsFrame.runCall_readHeader (d := newDecoder base n)
    (s := (s.setDecoder (some (newDecoder base n))).setCallResult (some (.ok .unit))) rfl hf rfl hn
  refine ⟨_, _, _, _, view, _, hopen, ⟨_, rfl, rfl, rfl, rfl⟩, hread, rfl, runCall_verifyCrc32c rfl hf rfl rfl rfl, rfl,
    runCall_openBody_of_verified rfl rfl, rfl, rfl, rfl, rfl, ?_⟩
  simp only [State.setCallResult_mem, State.setDecoder_mem]

end

/-! ### The frame that `finish_crc32c` leaves -/

/-- The last four bytes of a header are its body length (30_encoding R72). -/
theorem headerBytes_setBodyLen (h : FrameHeader) {b : Nat} (hb : b < 2 ^ 32) :
    headerBytes { h with bodyLen := BitVec.ofNat 32 b } = (headerBytes h).take 10 ++ leBytes 4 b := by
  rw [headerBytes, headerBytes, List.take_left' (by simp), BitVec.toNat_ofNat, Nat.mod_eq_of_lt hb]

/-- A span with its body length written over the placeholder is the header that counts it, and the rest
(48_frame_context R189). -/
theorem patched_eq {span : List Byte} {b : Nat} (hl : 14 ≤ span.length) (hb : b < 2 ^ 32) :
    span.take 10 ++ leBytes 4 b ++ span.drop 14
      = headerBytes { headerOf (span.take 14) with bodyLen := BitVec.ofNat 32 b } ++ span.drop 14 := by
  rw [headerBytes_setBodyLen _ hb, headerBytes_headerOf (List.length_take_of_le hl), List.take_take]
  rfl

/-- Bytes that stand inside a string that two memories hold stand in both. -/
theorem HoldsBytes.of_common {m m' : Memory} {base : Nat} {bs cs : List Byte} (hc : HoldsBytes m base cs)
    (hm : HoldsBytes m base bs) (hm' : HoldsBytes m' base bs) (hl : cs.length ≤ bs.length) : HoldsBytes m' base cs :=
  fun k hk => by rw [hm' k (by omega), ← hm k (by omega), hc k hk]

/-- A span of header, extension region and `b` body bytes, with `b` written into its header and its checksum behind it,
is a frame (48_frame_context R172, R189). The extension length stands where it stood before. -/
theorem HoldsFrame.of_patched {p : Parameters} {m m' : Memory} {base extSize b : Nat} {h : FrameHeader}
    {span patched : List Byte} (hmagic : h.magic = p.magic) (hversion : h.version.toNat ≤ p.maxVersion.toNat)
    (hb : b < 2 ^ 32) (hlen : span.length = 14 + extSize + b) (hin : base + (span.length + 4) ≤ p.memSize.val)
    (hm : HoldsBytes m base span)
    (hp : patched = headerBytes { h with bodyLen := BitVec.ofNat 32 b } ++ span.drop 14)
    (hm' : HoldsBytes m' base (patched ++ leBytes 4 (crc32c patched).toNat))
    (hunflagged : extFlag h = false → extSize = 0)
    (hflagged : extFlag h = true →
      ∃ vs, IsVarint vs ∧ vs.length + varintNumber vs = extSize ∧ HoldsBytes m (base + 14) vs) :
    HoldsFrame p m' base { h with bodyLen := BitVec.ofNat 32 b } extSize (span.drop 14) := by
  have hrest : (span.drop 14).length = extSize + b := by rw [List.length_drop]; omega
  have hplen : patched.length = 14 + (span.drop 14).length := by rw [hp, List.length_append, headerBytes_length]
  obtain ⟨hspan, htrailer⟩ := holdsBytes_append_iff.1 hm'
  rw [hplen] at htrailer
  have hregion : HoldsBytes m (base + 14) (span.drop 14) := by
    rw [← List.take_append_drop 14 span, holdsBytes_append_iff, List.length_take_of_le (by omega)] at hm
    exact hm.2
  have hregion' : HoldsBytes m' (base + 14) (span.drop 14) := by
    rw [hp, holdsBytes_append_iff, headerBytes_length] at hspan
    exact hspan.2
  exact {
    magic := hmagic
    version := hversion
    length := by rw [hrest, BitVec.toNat_ofNat, Nat.mod_eq_of_lt hb]
    inside := by omega
    span := hp ▸ hspan
    trailer := hp ▸ htrailer
    unflagged := hunflagged
    flagged := fun hf => by
      obtain ⟨vs, hv, hsize, hvs⟩ := hflagged hf
      exact ⟨vs, hv, hsize, hvs.of_common hregion hregion' (by omega)⟩ }

/-- Settles O60: `finish_crc32c` leaves a frame, and a decoder over exactly a frame reads its header, verifies it and
opens its body. -/
theorem finishedFramesDecode : Obligations.FinishedFramesDecode := by
  unfold Obligations.FinishedFramesDecode
  intro s e span n he hok hs hb hroom hspan hbytes hof hversion hext hn
  have hnc : e.state ≠ .created := by simp [hs]
  have hstart := hok.bodyStart hnc
  have hlow := hok.lower hnc
  have hlim := hok.limit
  have hbuf := hok.buffer
  have hrep := hok.representable
  obtain ⟨-, -, hfinish⟩ := finishBackPatchesThenSums s e he hok hs
  obtain ⟨t, hrun, hv, -, hfinished, -, honly⟩ := hfinish span _ hb hroom hspan hbytes rfl
  have hb32 : e.writer.cursor - e.writer.bodyStart < 2 ^ 32 := by omega
  have hrest : (span.drop 14).length = span.length - 14 := List.length_drop
  have hframe : HoldsFrame t.cfg t.mem e.base
      { e.header with bodyLen := BitVec.ofNat 32 (e.writer.cursor - e.writer.bodyStart) } e.extSize (span.drop 14) := by
    rw [honly.cfg]
    refine .of_patched (hok.magic hnc) hversion hb32 (by omega) (by omega) hbytes
      (hof ▸ patched_eq (by omega) hb32) hfinished (hok.ext hnc) fun hf => ?_
    exact hext.resolve_left fun hf' => by cases hf.symm.trans hf'
  obtain ⟨t1, t2, t3, t4, view, d, hopen, hd1, hread, hv2, hverify, hv3, hbody, hv4, hd, hfrom, hto, hmem⟩ :=
    hframe.decodes (n := n) (by omega) (by omega)
  rw [BitVec.toNat_ofNat, Nat.mod_eq_of_lt hb32] at hto
  exact ⟨t, t1, t2, t3, t4, view, d, hrun, hn ▸ hv, hopen, hd1, hread, hv2, hverify, hv3, hbody, hv4, hd,
    hfrom.trans hstart.symm, by omega, hmem⟩

end Sys2Proof.Machine
end

section
/-! SUPPORT. When an operation answers an error and when it is refused: what stands in `MEM` behind an error of
`VARINT_DEC` or `HDR_DES`, the one refusal of an operation whose window is inside `MEM`, and the proofs of the
statements about errors and refusals (60_exceptions R231 to R247). -/

namespace Sys2Proof.Machine

/-! ### What stands behind an error of `VARINT_DEC` or `HDR_DES` -/

/-- The tests of 41_varint R118 as facts about `MEM`: when `VARINT_DEC` ends in an error. -/
inductive VarintDecError (m : Memory) (base avail : Nat) : ErrorKind → Prop where
  /-- Test (T): the window ends and every byte of it is a continuation byte. -/
  | windowEnds (ha : avail ≤ 10) (hc : FirstContinue m base avail) : VarintDecError m base avail .truncated
  /-- Test (O2) on the tenth byte's payload, or test (O1) on an eleventh byte. -/
  | tooLong {b : Byte} (hc : FirstContinue m base 9) (ha : 10 ≤ avail) (hb : memRead m (base + 9) = some b)
      (ht : 1 < b.toNat % 128 ∨ (128 ≤ b.toNat ∧ 10 < avail)) : VarintDecError m base avail .overflow

section
variable {p : Parameters} {m : Memory} {base avail : Nat} {k : ErrorKind}

theorem firstContinue_mono {i j : Nat} (hc : FirstContinue m base i) (hj : j ≤ i) : FirstContinue m base j :=
  fun l hl => hc l (hl.trans_le hj)

theorem firstContinue_succ {i : Nat} {b : Byte} (hc : FirstContinue m base i) (hb : memRead m (base + i) = some b)
    (hge : 128 ≤ b.toNat) : FirstContinue m base (i + 1) := by
  intro j hj
  rcases Nat.lt_succ_iff_lt_or_eq.1 hj with hlt | rfl
  · exact hc j hlt
  · exact ⟨b, hb, hge⟩

/-- An error of the loop behind `i` continuation bytes comes from one of its tests. -/
theorem varintDecError_of_loop {left i : Nat} {acc : BitVec 64} (h : varintDecLoop m base avail left i acc = .error k)
    (hc : FirstContinue m base i) (hi : i + left = 10) : VarintDecError m base avail k := by
  induction left generalizing i acc with
  | zero =>
    simp only [varintDecLoop] at h
    split at h
    · next ha =>
      cases h
      exact .windowEnds (by omega) (firstContinue_mono hc ha)
    · next ha =>
      cases h
      obtain ⟨b, hb, hge⟩ := hc 9 (by omega)
      exact .tooLong (firstContinue_mono hc (by omega)) (by omega) hb (.inr ⟨hge, by omega⟩)
  | succ left ih =>
    simp only [varintDecLoop] at h
    split at h
    · next ha =>
      cases h
      exact .windowEnds (by omega) (firstContinue_mono hc ha)
    · next ha =>
      split at h
      · cases h
      · next b hb =>
        split at h
        · next hten =>
          obtain ⟨rfl, hp⟩ := hten
          cases h
          exact .tooLong hc (by omega) hb (.inl (toNat_payload b ▸ hp))
        · split at h
          · cases h
          · next hbit =>
            have hge : 128 ≤ b.toNat := Nat.not_lt.1 (mt (getLsbD_seven_eq_false b).2 hbit)
            exact ih h (firstContinue_succ hc hb hge) (by omega)

theorem varintDecError_of_op (h : opVarintDec p m base avail = .error k) : VarintDecError m base avail k :=
  varintDecError_of_loop (inWindow_eq_error.1 h).2 (fun _ hj => absurd hj (Nat.not_lt_zero _)) rfl

/-- `HDR_DES` answers `Truncated` exactly for want of 14 bytes (42_header R148). -/
theorem opHdrDes_eq_truncated :
    opHdrDes p m base avail = .error .truncated ↔ base + avail ≤ p.memSize.val ∧ avail < 14 := by
  refine ⟨fun h => ?_, fun h => opHdrDes_of_lt h.1 h.2⟩
  obtain ⟨hin, hx⟩ := inWindow_eq_error.1 h
  refine ⟨hin, ?_⟩
  by_contra ha
  have hchecks : OnlyErrors [.invalidMagic, .unsupportedVersion]
      (withBytes m base Config.hdrSize fun bs => checkHeader p m (headerOf bs)) :=
    .withBytes fun _ => .check (by simp) (.check (by simp) (.done _))
  have hmem := hchecks.mem _ ((if_neg ha).symm.trans hx)
  simp at hmem

end

/-! ### The refusals of an operation whose window is inside `MEM` -/

/-- An outcome whose refusal, if it is one, names a byte of the window that nothing has written. -/
structure OnlyUnwritten {α : Type} (w : Window) (m : Memory) (x : OpResult α) : Prop where
  unwritten : ∀ r, x = .refused r → ∃ a, r = .readUnwritten a ∧ w.holds a = true ∧ memRead m a = none

section
variable {α : Type} {w : Window} {p : Parameters} {m : Memory} {x : OpResult α}

theorem OnlyUnwritten.done (a : α) (m' : Memory) : OnlyUnwritten w m (.done a m') :=
  ⟨fun _ h => nomatch h⟩

theorem OnlyUnwritten.error (k : ErrorKind) : OnlyUnwritten w m (.error k : OpResult α) :=
  ⟨fun _ h => nomatch h⟩

theorem OnlyUnwritten.readUnwritten {a : Nat} (hw : w.holds a = true) (ha : memRead m a = none) :
    OnlyUnwritten w m (.refused (.readUnwritten a) : OpResult α) :=
  ⟨fun _ h => ⟨a, (OpResult.refused.inj h).symm, hw, ha⟩⟩

/-- A check that raises an error refuses nothing; past it, its condition is known to fail. -/
theorem OnlyUnwritten.check {c : Prop} [Decidable c] {k : ErrorKind} (hx : ¬c → OnlyUnwritten w m x) :
    OnlyUnwritten w m (if c then .error k else x) := by
  split
  · exact .error k
  · next hc => exact hx hc

/-- A read at the front of the window misses only bytes of the window (70_reset_and_hazards R275). -/
theorem OnlyUnwritten.withBytes {base len n : Nat} {f : List Byte → OpResult α} (hn : n ≤ len)
    (hf : ∀ bs, OnlyUnwritten ⟨base, len⟩ m (f bs)) : OnlyUnwritten ⟨base, len⟩ m (withBytes m base n f) := by
  rcases withBytes_cases m base n f with ⟨bs, -, -, he⟩ | ⟨a, hge, hlt, ha, he⟩
  · exact he ▸ hf bs
  · exact he ▸ .readUnwritten ((Window.holds_iff _ _).2 ⟨hge, hlt.trans_le (Nat.add_le_add_left hn base)⟩) ha

/-- The loop of `VARINT_DEC` reads inside its window (41_varint R118). -/
theorem varintDecLoop_onlyUnwritten (base avail left i : Nat) (acc : BitVec 64) :
    OnlyUnwritten ⟨base, avail⟩ m (varintDecLoop m base avail left i acc) := by
  induction left generalizing i acc with
  | zero => exact .check fun _ => .error _
  | succ left ih =>
    refine .check fun hi => ?_
    split
    · next hb => exact .readUnwritten ((Window.holds_iff _ _).2 ⟨Nat.le_add_right .., by simp only; omega⟩) hb
    · refine .check fun _ => ?_
      dsimp only
      split
      · exact .done ..
      · exact ih _ _

variable {s : State} {fields : α → Result}

/-- An operation on a window answers, or is refused for the window, or for what its outcome inside `MEM` is refused
for. -/
theorem respond_inWindow_cases (hx : OnlyUnwritten w s.mem x) :
    (∃ t r, respond s fields (inWindow p w x) = .next t ∧ t.response = some r)
    ∨ (respond s fields (inWindow p w x) = .refused (.windowOutsideMem w) ∧ p.memSize.val < w.base + w.len)
    ∨ (∃ a, respond s fields (inWindow p w x) = .refused (.readUnwritten a) ∧ w.holds a = true
        ∧ memRead s.mem a = none) := by
  rcases Nat.lt_or_ge p.memSize.val (w.base + w.len) with hout | hin
  · exact .inr (.inl ⟨congrArg (respond s fields) (inWindow_of_lt hout), hout⟩)
  · rw [inWindow_of_le hin]
    cases x with
    | done a m' => exact .inl ⟨_, _, rfl, rfl⟩
    | error k => exact .inl ⟨_, _, rfl, rfl⟩
    | refused r =>
      obtain ⟨a, rfl, hw, ha⟩ := hx.unwritten r rfl
      exact .inr (.inr ⟨a, rfl, hw, ha⟩)

/-- An error response is its operation's error and changes nothing else (60_exceptions R246, R247). -/
theorem error_of_respond {t : State} {k : ErrorKind} (h : respond s fields x = .next t)
    (hk : t.response = some (.error k)) : x = .error k ∧ t = s.setResponse (some (.error k)) := by
  rcases respond_eq_next.1 h with ⟨a, m, -, rfl⟩ | ⟨k', hx, rfl⟩
  · cases hk
  · cases hk
    exact ⟨hx, rfl⟩

end

/-! ### The statements -/

/-- `VARINT_ENC` without space for the shortest form answers its error (41_varint R112). -/
theorem exec_varintEnc_of_lt {s : State} {base cap : Addr} {v : BitVec 64}
    (hin : base.toNat + cap.toNat ≤ s.cfg.memSize.val) (hcap : cap.toNat < varintLen v.toNat) :
    exec (.varintEnc base cap v) s = .next (s.setResponse (some (.error .bufferTooSmall))) :=
  congrArg (respond s _) (opVarintEnc_eq_error.2 ⟨hin, hcap, rfl⟩)

/-- Settles O6: each operation looks at its window before anything else. -/
theorem windowOutsideMemRefused : Obligations.WindowOutsideMemRefused := by
  unfold Obligations.WindowOutsideMemRefused
  intro i s hout
  cases i <;> exact congrArg (respond s _) (inWindow_of_lt hout)

/-- Settles O15: inside `MEM` a short `cap` is the one error of both writing operations. -/
theorem bufferTooSmallWhenSpaceIsShort : Obligations.BufferTooSmallWhenSpaceIsShort := by
  unfold Obligations.BufferTooSmallWhenSpaceIsShort
  exact ⟨fun _ _ _ _ hin hcap => exec_varintEnc_of_lt hin hcap, fun _ _ _ _ hin hcap => exec_hdrSer_of_lt hin hcap⟩

/-- Settles O30: every operation delivers its error as its response alone. -/
theorem errorsWriteNothing : Obligations.ErrorsWriteNothing := by
  unfold Obligations.ErrorsWriteNothing
  intro i s t k h hk
  cases i <;> exact (error_of_respond h hk).2

/-- Settles O21: no other operation has `Overflow` among its errors, and in `VARINT_DEC` it comes from the tests on the
tenth and the eleventh byte. -/
theorem overflowOnlyFromVarintDec : Obligations.OverflowOnlyFromVarintDec := by
  unfold Obligations.OverflowOnlyFromVarintDec
  intro i s t h hk
  have hmem := error_mem_errorsOf h hk
  cases i with
  | crc32c | varintEnc | hdrSer | hdrDes => simp [errorsOf] at hmem
  | varintDec base avail =>
    cases varintDecError_of_op (error_of_respond h hk).1 with
    | tooLong hc ha hb ht => exact ⟨base, avail, _, rfl, hc, ha, hb, ht⟩

/-- Settles O22: one way from the operation's error back to its test; the other way the window's end is reached with no
terminating byte, or before 14 bytes. -/
theorem truncatedWhenTheWindowEnds : Obligations.TruncatedWhenTheWindowEnds := by
  unfold Obligations.TruncatedWhenTheWindowEnds
  refine ⟨fun i s t h hk => ?_, fun s base avail hin ha hc hten => ?_,
    fun s base avail hin ha => exec_hdrDes_of_lt hin ha⟩
  · have hmem := error_mem_errorsOf h hk
    cases i with
    | crc32c | varintEnc | hdrSer => simp [errorsOf] at hmem
    | varintDec base avail =>
      cases varintDecError_of_op (error_of_respond h hk).1 with
      | windowEnds ha hc => exact .inl ⟨base, avail, rfl, ha, hc⟩
    | hdrDes base avail =>
      obtain ⟨-, ha⟩ := opHdrDes_eq_truncated.1 (error_of_respond h hk).1
      exact .inr ⟨base, avail, rfl, ha⟩
  · obtain ⟨hfull, -, -, hfew, -⟩ := varintDecErrorOrder s base avail hin
    rcases Nat.lt_or_eq_of_le ha with hlt | heq
    · exact hfew hlt hc
    · rw [heq] at hc
      obtain ⟨b, hb, -⟩ := hc 9 (by omega)
      exact hfull b heq hc hb (hten b heq hb)

/-- Settles O33: past the window check an operation is refused only at a byte of its window that nothing has
written. -/
theorem onlyTwoReasonsToRefuseACommand : Obligations.OnlyTwoReasonsToRefuseACommand := by
  unfold Obligations.OnlyTwoReasonsToRefuseACommand
  intro i s
  cases i with
  | crc32c base len => exact respond_inWindow_cases (.withBytes le_rfl fun _ => .done ..)
  | varintEnc base cap value => exact respond_inWindow_cases (.check fun _ => .done ..)
  | varintDec base avail => exact respond_inWindow_cases (varintDecLoop_onlyUnwritten ..)
  | hdrSer base cap header => exact respond_inWindow_cases (.check fun _ => .done ..)
  | hdrDes base avail =>
    exact respond_inWindow_cases (.check fun ha => .withBytes (Nat.not_lt.1 ha) fun _ =>
      .check fun _ => .check fun _ => .done ..)

end Sys2Proof.Machine
end

section
/-! SUPPORT. Reads of bytes nothing has written, accesses that break exclusivity and commands a reset cuts short, with
the proofs of the statements about resets and hazards (70_reset_and_hazards). -/

namespace Sys2Proof.Machine

/-- Settles O40: nothing is listed in `MEM`, and the host holds no object. -/
theorem invariantHoldsAtReset : Obligations.InvariantHoldsAtReset where
  wf := reset_mem_wf
  inside _ hc := absurd hc List.not_mem_nil
  encoder _ he := nomatch he
  decoder _ hd := nomatch hd

/-! ### Reads of bytes nothing has written -/

section
variable {m : Memory} {base : Nat}

/-- A read of a range with a byte nothing has written in it is refused, naming such a byte (70_reset_and_hazards
R275). -/
theorem withBytes_of_unwritten {α : Type} {n k : Nat} {f : List Byte → OpResult α} (hk : k < n)
    (hb : memRead m (base + k) = none) :
    ∃ a, withBytes m base n f = .refused (.readUnwritten a) ∧ memRead m a = none := by
  rcases withBytes_cases m base n f with ⟨bs, rfl, hbytes, -⟩ | ⟨a, -, -, ha, he⟩
  · exact absurd (hb.symm.trans (hbytes k hk)) nofun
  · exact ⟨a, he, ha⟩

/-- The loop of `VARINT_DEC` is refused at a byte of its window that nothing has written. -/
theorem varintDecLoop_unwritten {avail left i : Nat} {acc : BitVec 64} (hi : i < avail)
    (hb : memRead m (base + i) = none) :
    varintDecLoop m base avail (left + 1) i acc = .refused (.readUnwritten (base + i)) := by
  rw [varintDecLoop, if_neg (Nat.not_le.2 hi), hb]

end

section
variable {s : State} {base len : Addr} (hin : base.toNat + len.toNat ≤ s.cfg.memSize.val)
include hin

theorem exec_crc32c_of_unwritten {k : Nat} (hk : k < len.toNat) (hb : memRead s.mem (base.toNat + k) = none) :
    ∃ a, exec (.crc32c base len) s = .refused (.readUnwritten a) ∧ memRead s.mem a = none := by
  obtain ⟨a, he, ha⟩ := withBytes_of_unwritten (f := fun bs => OpResult.done (crc32c bs) s.mem) hk hb
  exact ⟨a, congrArg (respond s _) ((inWindow_of_le hin).trans he), ha⟩

/-- Fewer than ten continuation bytes bring `VARINT_DEC` to the byte after them (41_varint R118). -/
theorem exec_varintDec_of_unwritten {k : Nat} (hk : k < len.toNat) (hten : k < 10)
    (hc : FirstContinue s.mem base.toNat k) (hb : memRead s.mem (base.toNat + k) = none) :
    exec (.varintDec base len) s = .refused (.readUnwritten (base.toNat + k)) := by
  obtain ⟨cs, -, hloop⟩ := varintDecLoop_after_firstContinue hc (Nat.le_of_lt_succ hten) hk.le
  have hleft : 10 - k = (9 - k) + 1 := by omega
  rw [exec_varintDec hin, hloop, hleft, varintDecLoop_unwritten hk hb, respond_refused]

theorem exec_hdrDes_of_unwritten {k : Nat} (hlen : 14 ≤ len.toNat) (hk : k < 14)
    (hb : memRead s.mem (base.toNat + k) = none) :
    ∃ a, exec (.hdrDes base len) s = .refused (.readUnwritten a) ∧ memRead s.mem a = none := by
  obtain ⟨a, he, ha⟩ := withBytes_of_unwritten (f := fun bs => checkHeader s.cfg s.mem (headerOf bs)) hk hb
  exact ⟨a, congrArg (respond s _) ((inWindow_of_le hin).trans ((if_neg (Nat.not_lt.2 hlen)).trans he)), ha⟩

end

/-- Settles O34: each reading operation comes to the unwritten byte, or to one before it. -/
theorem readOfUnwrittenByteRefused : Obligations.ReadOfUnwrittenByteRefused := by
  unfold Obligations.ReadOfUnwrittenByteRefused
  intro s base len hin
  refine ⟨?_, ?_, ?_⟩
  · rintro ⟨k, hk, hb⟩
    exact exec_crc32c_of_unwritten hin hk hb
  · exact fun k hk hten hc hb => exec_varintDec_of_unwritten hin hk hten hc hb
  · rintro hlen ⟨k, hk, hb⟩
    exact exec_hdrDes_of_unwritten hin hlen hk hb

/-! ### Exclusivity -/

section
variable {i : Instr}

/-- The three ways an access breaks exclusivity (70_reset_and_hazards R277). -/
theorem accessBreaks_isSome_iff {a : HostAccess} :
    (accessBreaks i a).isSome = true ↔
      (∃ b bs, a = .write b bs ∧ i.window.overlaps ⟨b, bs.length⟩ = true)
      ∨ (∃ w, a = .read w ∧ (outputRange i).overlaps w = true) ∨ ∃ r, a = .command r := by
  cases a <;> simp [accessBreaks]

/-- The refusal of an access that breaks exclusivity says which one it is (60_exceptions R241). -/
theorem accessBreaks_eq_some {a : HostAccess} {r : Refusal} (h : accessBreaks i a = some r) :
    r = .secondCommand ∨ r = .windowTouched a := by
  cases a with
  | read | write =>
    obtain ⟨-, hr⟩ := Option.ite_none_right_eq_some.1 h
    exact .inr (Option.some.inj hr).symm
  | command record => exact .inl (Option.some.inj h).symm

/-- A command is refused for the first access that breaks exclusivity, before it is executed (60_exceptions R241). -/
theorem runCommand_of_break {record : List Byte} {during : List HostAccess} {r : Refusal}
    (hd : decode record = .ok (i, [])) (hr : during.findSome? (accessBreaks i) = some r) (s : State) :
    runCommand record during s = .refused r := by
  simp [runCommand, parseCommand_of_decode hd, hr]

end

/-- Settles O36: some access breaks exclusivity, so there is a first one that does, and the run is refused for it. -/
theorem touchedWindowRefused : Obligations.TouchedWindowRefused := by
  unfold Obligations.TouchedWindowRefused
  rintro s record i during rest hd hi ⟨a, ha, hbreak⟩
  have hfound : (during.findSome? (accessBreaks i)).isSome = true :=
    List.findSome?_isSome_iff.2 ⟨a, ha, accessBreaks_isSome_iff.2 hbreak⟩
  obtain ⟨r, hr⟩ := Option.isSome_iff_exists.1 hfound
  obtain ⟨first, hfirst, hrefusal⟩ := List.exists_of_findSome?_eq_some hr
  refine ⟨r, (step_of_input hi).trans (runCommand_of_break hd hr _), ?_⟩
  exact (accessBreaks_eq_some hrefusal).imp_right fun h => ⟨first, hfirst, h⟩

/-! ### Commands a reset cuts short -/

/-- A write that fills a window leaves a value in every byte of it. -/
theorem exists_memRead_writeBytes (m : Memory) {w : Window} {bs : List Byte} (hl : bs.length = w.len) {a : Nat}
    (ha : w.holds a = true) : ∃ b, memRead (writeBytes m w.base bs) a = some b := by
  obtain ⟨hge, hlt⟩ := (Window.holds_iff w a).1 ha
  have hread := holdsBytes_writeBytes m w.base bs (a - w.base) (by omega)
  rw [Nat.add_sub_cancel' hge] at hread
  exact ⟨_, hread⟩

/-- A command cut short with its window inside `MEM` leaves free bytes in its output range and no response
(70_reset_and_hazards R272). -/
theorem runCut_of_inside {record : List Byte} {i : Instr} {s : State} (hd : decode record = .ok (i, []))
    (hin : i.window.base + i.window.len ≤ s.cfg.memSize.val) :
    runCut record s = .next (((s.setMem (writeBytes s.mem (outputRange i).base
      (freeBytes s.freeCount (outputRange i).len))).setResponse none).setFreeCount
      (s.freeCount + (outputRange i).len)) := by
  have hw : windowInside s.cfg i.window = true := (windowInside_iff _ _).2 hin
  simp [runCut, parseCommand_of_decode hd, hw]

/-- Settles O42: the free bytes fill the output range and nothing else is touched; a reading command's range is
empty. -/
theorem cutOperationIsConfined : Obligations.CutOperationIsConfined := by
  unfold Obligations.CutOperationIsConfined
  intro s record i rest hd hin hi
  have hl := freeBytes_length s.freeCount (outputRange i).len
  exact ⟨_, (step_of_input hi).trans (runCut_of_inside hd hin), rfl, sameOutside_writeBytes_of_le s.mem _ hl.le,
    fun _ => exists_memRead_writeBytes s.mem hl, rfl, rfl, rfl, rfl, rfl⟩

end Sys2Proof.Machine
end
